-- ==== Sys2Proof/Word.lean ====
section
/-!
DEFINITION. The word types of the IRE/FBR block: the 32-bit word of the command port and of the IRE registers
(00_scope.md R8, 30_encoding.md R80) and the 8-bit byte of the frame buffer and the source memory (20_memory.md R60).
-/
namespace Sys2Proof

/-- A word of the command port, a response word, or an IRE staging or session register (00_scope.md R8). -/
abbrev Word := BitVec 32

/-- A byte of the frame buffer or of the source memory (20_memory.md R60, R65). -/
abbrev Byte := BitVec 8

end Sys2Proof
end

