-- ==== Sys2Proof/Syntax.lean ====
section
/-!
DEFINITION. The commands of the block as syntax: the operand types of 30_encoding.md R83 and R84, the 25 opcodes of
R85, and `Instr`, one constructor per row of spec/opcode_table.json.
-/
namespace Sys2Proof

/-- A logical drawing coordinate pair, exact integers (00_scope.md R8). As an operand it is the decoded value of a
POINT word (30_encoding.md R83). -/
structure Point where
  x : Int
  y : Int
  deriving DecidableEq, Repr

/-- The decoded value of a SIZE word: two unsigned counts (30_encoding.md R83). -/
structure Size where
  w : Nat
  h : Nat
  deriving DecidableEq, Repr

/-- The rotation codes (10_state.md R40): 0°, 90°, 180°, 270°. -/
inductive Rotation where
  | rotate0 | rotate90 | rotate180 | rotate270
  deriving DecidableEq, Repr

/-- The mirror codes (10_state.md R40). -/
inductive Mirror where
  | none | x | y | origin
  deriving DecidableEq, Repr

/-- The colours (10_state.md R40, 42_fb_config.md R186). -/
inductive Colour where
  | black | white
  deriving DecidableEq, Repr

/-- The 25 opcodes of 30_encoding.md R85, by mnemonic. -/
inductive Op where
  | irSetp | irGetp | irSend | irStatus
  | fbSetscale | fbSetrotate | fbSetmirror | fbSetwritemode | fbSetcolour | fbSetfont
  | fbClear | fbPaintpixel | fbDrawline | fbDrawrect | fbDrawopenrect | fbDrawcircle | fbDrawopencircle
  | fbWriteimage | fbMoveto | fbDrawchar
  | fbReadb | fbStatus | fbGetcursor | fbGetfont | fbGetsize
  deriving DecidableEq, Repr

/-- The commands, one constructor per row of spec/opcode_table.json (30_encoding.md R85). An operand the spec gives
legal values of its own (a register index, a scale, a write mode) stays the raw field, since an illegal value is
judged when the command executes (30_encoding.md R88). -/
inductive Instr where
  /-- IR_SETP idx, value (40_ir_commands.md R110) -/
  | irSetp (idx : BitVec 8) (value : Word)
  /-- IR_GETP idx (40_ir_commands.md R113) -/
  | irGetp (idx : BitVec 8)
  /-- IR_SEND payload1, payload2, postDelay, repeatCountOverride (40_ir_commands.md R124) -/
  | irSend (p1 p2 pd ovr : Word)
  /-- IR_STATUS (40_ir_commands.md R130) -/
  | irStatus
  /-- FB_SETSCALE v (42_fb_config.md R180) -/
  | fbSetscale (v : BitVec 8)
  /-- FB_SETROTATE v (42_fb_config.md R181) -/
  | fbSetrotate (v : Rotation)
  /-- FB_SETMIRROR v (42_fb_config.md R182) -/
  | fbSetmirror (v : Mirror)
  /-- FB_SETWRITEMODE v (42_fb_config.md R183) -/
  | fbSetwritemode (v : BitVec 3)
  /-- FB_SETCOLOUR c (42_fb_config.md R184) -/
  | fbSetcolour (c : Colour)
  /-- FB_SETFONT f (42_fb_config.md R185) -/
  | fbSetfont (f : BitVec 16)
  /-- FB_CLEAR c (42_fb_config.md R187) -/
  | fbClear (c : Colour)
  /-- FB_PAINTPIXEL p, c (43_fb_pixel.md R230) -/
  | fbPaintpixel (c : Colour) (p : Point)
  /-- FB_DRAWLINE p0, p1 (44_fb_shapes.md R244) -/
  | fbDrawline (p0 p1 : Point)
  /-- FB_DRAWRECT p0, p1 (44_fb_shapes.md R250) -/
  | fbDrawrect (p0 p1 : Point)
  /-- FB_DRAWOPENRECT p0, p1 (44_fb_shapes.md R251) -/
  | fbDrawopenrect (p0 p1 : Point)
  /-- FB_DRAWCIRCLE centre, r (44_fb_shapes.md R262) -/
  | fbDrawcircle (centre : Point) (r : Int)
  /-- FB_DRAWOPENCIRCLE centre, r (44_fb_shapes.md R261) -/
  | fbDrawopencircle (centre : Point) (r : Int)
  /-- FB_WRITEIMAGE origin, size, source (45_fb_blit.md R274) -/
  | fbWriteimage (origin : Point) (size : Size) (source : Word)
  /-- FB_MOVETO p (42_fb_config.md R188) -/
  | fbMoveto (p : Point)
  /-- FB_DRAWCHAR code (45_fb_blit.md R275) -/
  | fbDrawchar (code : BitVec 8)
  /-- FB_READB address (42_fb_config.md R189) -/
  | fbReadb (address : Word)
  /-- FB_STATUS (42_fb_config.md R190) -/
  | fbStatus
  /-- FB_GETCURSOR (42_fb_config.md R191) -/
  | fbGetcursor
  /-- FB_GETFONT (42_fb_config.md R192) -/
  | fbGetfont
  /-- FB_GETSIZE (42_fb_config.md R193) -/
  | fbGetsize
  deriving DecidableEq, Repr

end Sys2Proof
end

