-- ==== Sys2Proof/WellFormed.lean ====
section
/-!
DEFINITION. Which terms of `Instr` stand for a command of the port: every coordinate, radius and size fits the field
of the argument word it is carried in (30_encoding.md R83). All other operands have the width of their field already.
-/
namespace Sys2Proof

/-- A 16-bit two's complement coordinate or radius (30_encoding.md R83, forms POINT and RADIUS). -/
def coordOk (v : Int) : Bool := decide (-32768 ≤ v) && decide (v < 32768)

/-- Both coordinates of a POINT word fit their fields (30_encoding.md R83). -/
def Point.ok (p : Point) : Bool := coordOk p.x && coordOk p.y

/-- Both counts of a SIZE word fit their fields (30_encoding.md R83). -/
def Size.ok (z : Size) : Bool := decide (z.w < 65536) && decide (z.h < 65536)

/-- The command's operands fit the words that carry them (30_encoding.md R83). -/
def Instr.wellFormed : Instr → Bool
  | .irSetp _ _ => true
  | .irGetp _ => true
  | .irSend _ _ _ _ => true
  | .irStatus => true
  | .fbSetscale _ => true
  | .fbSetrotate _ => true
  | .fbSetmirror _ => true
  | .fbSetwritemode _ => true
  | .fbSetcolour _ => true
  | .fbSetfont _ => true
  | .fbClear _ => true
  | .fbPaintpixel _ p => p.ok
  | .fbDrawline p0 p1 => p0.ok && p1.ok
  | .fbDrawrect p0 p1 => p0.ok && p1.ok
  | .fbDrawopenrect p0 p1 => p0.ok && p1.ok
  | .fbDrawcircle c r => c.ok && coordOk r
  | .fbDrawopencircle c r => c.ok && coordOk r
  | .fbWriteimage o z _ => o.ok && z.ok
  | .fbMoveto p => p.ok
  | .fbDrawchar _ => true
  | .fbReadb _ => true
  | .fbStatus => true
  | .fbGetcursor => true
  | .fbGetfont => true
  | .fbGetsize => true

end Sys2Proof
end

