-- ==== Sys2Proof/Decode.lean ====
section
/-!
DEFINITION. The command encoding of 30_encoding.md: the opcode map (R85), the immediate and argument forms (R83, R84),
the reserved-bit checks (R86), the decoder, and after it the encoder, written from the same tables.
-/
namespace Sys2Proof

/-- The immediate forms of 30_encoding.md R84. -/
inductive ImmForm where
  | idx8 | scale8 | rot2 | mir2 | wm3 | col1 | font16 | char8 | none
  deriving DecidableEq, Repr

/-- The argument word forms of 30_encoding.md R83. -/
inductive ArgForm where
  | point | radius | size | addr | word
  deriving DecidableEq, Repr

/-- How many low bits of `imm` the form defines; every other bit is reserved (30_encoding.md R81, R84). -/
def ImmForm.width : ImmForm → Nat
  | .idx8 => 8
  | .scale8 => 8
  | .rot2 => 2
  | .mir2 => 2
  | .wm3 => 3
  | .col1 => 1
  | .font16 => 16
  | .char8 => 8
  | .none => 0

/-- The opcode byte of each mnemonic (30_encoding.md R85). -/
def Op.byte : Op → BitVec 8
  | .irSetp => 0x01#8
  | .irGetp => 0x02#8
  | .irSend => 0x03#8
  | .irStatus => 0x04#8
  | .fbSetscale => 0x10#8
  | .fbSetrotate => 0x11#8
  | .fbSetmirror => 0x12#8
  | .fbSetwritemode => 0x13#8
  | .fbSetcolour => 0x14#8
  | .fbSetfont => 0x15#8
  | .fbClear => 0x16#8
  | .fbPaintpixel => 0x17#8
  | .fbDrawline => 0x18#8
  | .fbDrawrect => 0x19#8
  | .fbDrawopenrect => 0x1A#8
  | .fbDrawcircle => 0x1B#8
  | .fbDrawopencircle => 0x1C#8
  | .fbWriteimage => 0x1D#8
  | .fbMoveto => 0x1E#8
  | .fbDrawchar => 0x1F#8
  | .fbReadb => 0x20#8
  | .fbStatus => 0x21#8
  | .fbGetcursor => 0x22#8
  | .fbGetfont => 0x23#8
  | .fbGetsize => 0x24#8

/-- The opcode map read the other way; `none` for an undefined opcode (30_encoding.md R85, R87). -/
def Op.ofByte? (b : BitVec 8) : Option Op :=
  match b.toNat with
  | 0x01 => some .irSetp
  | 0x02 => some .irGetp
  | 0x03 => some .irSend
  | 0x04 => some .irStatus
  | 0x10 => some .fbSetscale
  | 0x11 => some .fbSetrotate
  | 0x12 => some .fbSetmirror
  | 0x13 => some .fbSetwritemode
  | 0x14 => some .fbSetcolour
  | 0x15 => some .fbSetfont
  | 0x16 => some .fbClear
  | 0x17 => some .fbPaintpixel
  | 0x18 => some .fbDrawline
  | 0x19 => some .fbDrawrect
  | 0x1A => some .fbDrawopenrect
  | 0x1B => some .fbDrawcircle
  | 0x1C => some .fbDrawopencircle
  | 0x1D => some .fbWriteimage
  | 0x1E => some .fbMoveto
  | 0x1F => some .fbDrawchar
  | 0x20 => some .fbReadb
  | 0x21 => some .fbStatus
  | 0x22 => some .fbGetcursor
  | 0x23 => some .fbGetfont
  | 0x24 => some .fbGetsize
  | _ => none

/-- The immediate form of each opcode (30_encoding.md R85). -/
def Op.immForm : Op → ImmForm
  | .irSetp => .idx8
  | .irGetp => .idx8
  | .irSend => .none
  | .irStatus => .none
  | .fbSetscale => .scale8
  | .fbSetrotate => .rot2
  | .fbSetmirror => .mir2
  | .fbSetwritemode => .wm3
  | .fbSetcolour => .col1
  | .fbSetfont => .font16
  | .fbClear => .col1
  | .fbPaintpixel => .col1
  | .fbDrawline => .none
  | .fbDrawrect => .none
  | .fbDrawopenrect => .none
  | .fbDrawcircle => .none
  | .fbDrawopencircle => .none
  | .fbWriteimage => .none
  | .fbMoveto => .none
  | .fbDrawchar => .char8
  | .fbReadb => .none
  | .fbStatus => .none
  | .fbGetcursor => .none
  | .fbGetfont => .none
  | .fbGetsize => .none

/-- The argument words of each opcode, in order (30_encoding.md R85). -/
def Op.argForms : Op → List ArgForm
  | .irSetp => [.word]
  | .irGetp => []
  | .irSend => [.word, .word, .word, .word]
  | .irStatus => []
  | .fbSetscale => []
  | .fbSetrotate => []
  | .fbSetmirror => []
  | .fbSetwritemode => []
  | .fbSetcolour => []
  | .fbSetfont => []
  | .fbClear => []
  | .fbPaintpixel => [.point]
  | .fbDrawline => [.point, .point]
  | .fbDrawrect => [.point, .point]
  | .fbDrawopenrect => [.point, .point]
  | .fbDrawcircle => [.point, .radius]
  | .fbDrawopencircle => [.point, .radius]
  | .fbWriteimage => [.point, .size, .addr]
  | .fbMoveto => [.point]
  | .fbDrawchar => []
  | .fbReadb => [.addr]
  | .fbStatus => []
  | .fbGetcursor => []
  | .fbGetfont => []
  | .fbGetsize => []

/-- The number `k` of argument words (30_encoding.md R80, R85). -/
def Op.argc (op : Op) : Nat := op.argForms.length

/-- The opcodes with a response word (30_encoding.md R85, R92). -/
def Op.isQuery : Op → Bool
  | .irGetp => true
  | .irStatus => true
  | .fbReadb => true
  | .fbStatus => true
  | .fbGetcursor => true
  | .fbGetfont => true
  | .fbGetsize => true
  | .irSetp => false
  | .irSend => false
  | .fbSetscale => false
  | .fbSetrotate => false
  | .fbSetmirror => false
  | .fbSetwritemode => false
  | .fbSetcolour => false
  | .fbSetfont => false
  | .fbClear => false
  | .fbPaintpixel => false
  | .fbDrawline => false
  | .fbDrawrect => false
  | .fbDrawopenrect => false
  | .fbDrawcircle => false
  | .fbDrawopencircle => false
  | .fbWriteimage => false
  | .fbMoveto => false
  | .fbDrawchar => false

/-- The opcode of a command. -/
def Instr.op : Instr → Op
  | .irSetp _ _ => .irSetp
  | .irGetp _ => .irGetp
  | .irSend _ _ _ _ => .irSend
  | .irStatus => .irStatus
  | .fbSetscale _ => .fbSetscale
  | .fbSetrotate _ => .fbSetrotate
  | .fbSetmirror _ => .fbSetmirror
  | .fbSetwritemode _ => .fbSetwritemode
  | .fbSetcolour _ => .fbSetcolour
  | .fbSetfont _ => .fbSetfont
  | .fbClear _ => .fbClear
  | .fbPaintpixel _ _ => .fbPaintpixel
  | .fbDrawline _ _ => .fbDrawline
  | .fbDrawrect _ _ => .fbDrawrect
  | .fbDrawopenrect _ _ => .fbDrawopenrect
  | .fbDrawcircle _ _ => .fbDrawcircle
  | .fbDrawopencircle _ _ => .fbDrawopencircle
  | .fbWriteimage _ _ _ => .fbWriteimage
  | .fbMoveto _ => .fbMoveto
  | .fbDrawchar _ => .fbDrawchar
  | .fbReadb _ => .fbReadb
  | .fbStatus => .fbStatus
  | .fbGetcursor => .fbGetcursor
  | .fbGetfont => .fbGetfont
  | .fbGetsize => .fbGetsize

/-! ## Fields -/

/-- The opcode field, header[31:24] (30_encoding.md R81). -/
def opcodeField (h : Word) : BitVec 8 := h.extractLsb' 24 8

/-- The immediate field, header[23:0] (30_encoding.md R81). -/
def immField (h : Word) : BitVec 24 := h.extractLsb' 0 24

/-- The low half of an argument word. -/
def loHalf (w : Word) : BitVec 16 := w.extractLsb' 0 16

/-- The high half of an argument word. -/
def hiHalf (w : Word) : BitVec 16 := w.extractLsb' 16 16

/-- A POINT word: x in [15:0], y in [31:16], sign-extended (30_encoding.md R83). -/
def pointOfWord (w : Word) : Point := ⟨(loHalf w).toInt, (hiHalf w).toInt⟩

/-- A RADIUS word: r in [15:0], sign-extended (30_encoding.md R83). -/
def radiusOfWord (w : Word) : Int := (loHalf w).toInt

/-- A SIZE word: width in [15:0], height in [31:16], unsigned (30_encoding.md R83). -/
def sizeOfWord (w : Word) : Size := ⟨(loHalf w).toNat, (hiHalf w).toNat⟩

/-- The 2-bit rotation code (10_state.md R40). -/
def Rotation.code : Rotation → BitVec 2
  | .rotate0 => 0#2
  | .rotate90 => 1#2
  | .rotate180 => 2#2
  | .rotate270 => 3#2

/-- The rotation of a 2-bit code; all four are legal (42_fb_config.md R181). -/
def Rotation.ofCode (c : BitVec 2) : Rotation :=
  match c.toNat with
  | 0 => .rotate0
  | 1 => .rotate90
  | 2 => .rotate180
  | _ => .rotate270

/-- The 2-bit mirror code (10_state.md R40). -/
def Mirror.code : Mirror → BitVec 2
  | .none => 0#2
  | .x => 1#2
  | .y => 2#2
  | .origin => 3#2

/-- The mirror mode of a 2-bit code; all four are legal (42_fb_config.md R182). -/
def Mirror.ofCode (c : BitVec 2) : Mirror :=
  match c.toNat with
  | 0 => .none
  | 1 => .x
  | 2 => .y
  | _ => .origin

/-- The colour bit: BLACK 0, WHITE 1 (10_state.md R40). -/
def Colour.bit : Colour → BitVec 1
  | .black => 0#1
  | .white => 1#1

/-- The colour of a bit (30_encoding.md R84, form COL1). -/
def Colour.ofBit (b : BitVec 1) : Colour := if b = 0#1 then .black else .white

/-! ## The decoder -/

/-- What the port's next words are: a command and the words after it; a header with an undefined opcode (no argument
word goes with it, R87); a defined opcode with a reserved bit set (its argument words go with it); or a header whose
argument words are not all there, which R352 leaves undefined. -/
inductive Decoded where
  | command (i : Instr) (rest : List Word)
  | illegalOpcode (opcode : BitVec 8) (rest : List Word)
  | reservedBits (op : Op) (rest : List Word)
  | truncated (op : Op)
  deriving DecidableEq, Repr

/-- A bit of `imm` outside the form's bits is 1 (30_encoding.md R86). -/
def immReserved (f : ImmForm) (imm : BitVec 24) : Bool := decide (2 ^ f.width ≤ imm.toNat)

/-- A RADIUS word has a 1 in [31:16]; no other form has reserved bits (30_encoding.md R86). -/
def argReserved (f : ArgForm) (w : Word) : Bool :=
  match f with
  | .radius => hiHalf w != 0#16
  | .point => false
  | .size => false
  | .addr => false
  | .word => false

/-- Some argument word has a reserved bit set. -/
def argsReserved : List ArgForm → List Word → Bool
  | f :: fs, w :: ws => argReserved f w || argsReserved fs ws
  | _, _ => false

/-- Argument word `i` of a command, counted from 0. -/
def arg (args : List Word) (i : Nat) : Word := args.getD i 0#32

/-- The command of an opcode, its immediate field and its argument words (30_encoding.md R83 to R85). -/
def Instr.build (op : Op) (imm : BitVec 24) (args : List Word) : Instr :=
  match op with
  | .irSetp => .irSetp (imm.setWidth 8) (arg args 0)
  | .irGetp => .irGetp (imm.setWidth 8)
  | .irSend => .irSend (arg args 0) (arg args 1) (arg args 2) (arg args 3)
  | .irStatus => .irStatus
  | .fbSetscale => .fbSetscale (imm.setWidth 8)
  | .fbSetrotate => .fbSetrotate (.ofCode (imm.setWidth 2))
  | .fbSetmirror => .fbSetmirror (.ofCode (imm.setWidth 2))
  | .fbSetwritemode => .fbSetwritemode (imm.setWidth 3)
  | .fbSetcolour => .fbSetcolour (.ofBit (imm.setWidth 1))
  | .fbSetfont => .fbSetfont (imm.setWidth 16)
  | .fbClear => .fbClear (.ofBit (imm.setWidth 1))
  | .fbPaintpixel => .fbPaintpixel (.ofBit (imm.setWidth 1)) (pointOfWord (arg args 0))
  | .fbDrawline => .fbDrawline (pointOfWord (arg args 0)) (pointOfWord (arg args 1))
  | .fbDrawrect => .fbDrawrect (pointOfWord (arg args 0)) (pointOfWord (arg args 1))
  | .fbDrawopenrect => .fbDrawopenrect (pointOfWord (arg args 0)) (pointOfWord (arg args 1))
  | .fbDrawcircle => .fbDrawcircle (pointOfWord (arg args 0)) (radiusOfWord (arg args 1))
  | .fbDrawopencircle => .fbDrawopencircle (pointOfWord (arg args 0)) (radiusOfWord (arg args 1))
  | .fbWriteimage => .fbWriteimage (pointOfWord (arg args 0)) (sizeOfWord (arg args 1)) (arg args 2)
  | .fbMoveto => .fbMoveto (pointOfWord (arg args 0))
  | .fbDrawchar => .fbDrawchar (imm.setWidth 8)
  | .fbReadb => .fbReadb (arg args 0)
  | .fbStatus => .fbStatus
  | .fbGetcursor => .fbGetcursor
  | .fbGetfont => .fbGetfont
  | .fbGetsize => .fbGetsize

/-- Decode the header word `h` followed on the port by `ws` (30_encoding.md R80 to R87; the order of the opcode and
reserved-bit checks is 60_exceptions.md R304). -/
def decode (h : Word) (ws : List Word) : Decoded :=
  match Op.ofByte? (opcodeField h) with
  | none => .illegalOpcode (opcodeField h) ws
  | some op =>
    if ws.length < op.argc then .truncated op
    else if immReserved op.immForm (immField h) || argsReserved op.argForms ws then
      .reservedBits op (ws.drop op.argc)
    else .command (Instr.build op (immField h) (ws.take op.argc)) (ws.drop op.argc)

/-! ## The encoder -/

/-- A header word from its two fields (30_encoding.md R81). -/
def headerWord (op : Op) (imm : BitVec 24) : Word := op.byte ++ imm

/-- A POINT word (30_encoding.md R83). -/
def wordOfPoint (p : Point) : Word := BitVec.ofInt 16 p.y ++ BitVec.ofInt 16 p.x

/-- A RADIUS word, its high half 0 (30_encoding.md R83). -/
def wordOfRadius (r : Int) : Word := 0#16 ++ BitVec.ofInt 16 r

/-- A SIZE word (30_encoding.md R83). -/
def wordOfSize (z : Size) : Word := BitVec.ofNat 16 z.h ++ BitVec.ofNat 16 z.w

/-- The immediate field of a command, its reserved bits 0 (30_encoding.md R84). -/
def Instr.imm : Instr → BitVec 24
  | .irSetp idx _ => idx.setWidth 24
  | .irGetp idx => idx.setWidth 24
  | .irSend _ _ _ _ => 0#24
  | .irStatus => 0#24
  | .fbSetscale v => v.setWidth 24
  | .fbSetrotate v => v.code.setWidth 24
  | .fbSetmirror v => v.code.setWidth 24
  | .fbSetwritemode v => v.setWidth 24
  | .fbSetcolour c => c.bit.setWidth 24
  | .fbSetfont f => f.setWidth 24
  | .fbClear c => c.bit.setWidth 24
  | .fbPaintpixel c _ => c.bit.setWidth 24
  | .fbDrawline _ _ => 0#24
  | .fbDrawrect _ _ => 0#24
  | .fbDrawopenrect _ _ => 0#24
  | .fbDrawcircle _ _ => 0#24
  | .fbDrawopencircle _ _ => 0#24
  | .fbWriteimage _ _ _ => 0#24
  | .fbMoveto _ => 0#24
  | .fbDrawchar code => code.setWidth 24
  | .fbReadb _ => 0#24
  | .fbStatus => 0#24
  | .fbGetcursor => 0#24
  | .fbGetfont => 0#24
  | .fbGetsize => 0#24

/-- The argument words of a command, in order (30_encoding.md R85). -/
def Instr.args : Instr → List Word
  | .irSetp _ value => [value]
  | .irGetp _ => []
  | .irSend p1 p2 pd ovr => [p1, p2, pd, ovr]
  | .irStatus => []
  | .fbSetscale _ => []
  | .fbSetrotate _ => []
  | .fbSetmirror _ => []
  | .fbSetwritemode _ => []
  | .fbSetcolour _ => []
  | .fbSetfont _ => []
  | .fbClear _ => []
  | .fbPaintpixel _ p => [wordOfPoint p]
  | .fbDrawline p0 p1 => [wordOfPoint p0, wordOfPoint p1]
  | .fbDrawrect p0 p1 => [wordOfPoint p0, wordOfPoint p1]
  | .fbDrawopenrect p0 p1 => [wordOfPoint p0, wordOfPoint p1]
  | .fbDrawcircle c r => [wordOfPoint c, wordOfRadius r]
  | .fbDrawopencircle c r => [wordOfPoint c, wordOfRadius r]
  | .fbWriteimage o z a => [wordOfPoint o, wordOfSize z, a]
  | .fbMoveto p => [wordOfPoint p]
  | .fbDrawchar _ => []
  | .fbReadb a => [a]
  | .fbStatus => []
  | .fbGetcursor => []
  | .fbGetfont => []
  | .fbGetsize => []

/-- The header word of a command (30_encoding.md R81). -/
def Instr.header (i : Instr) : Word := headerWord i.op i.imm

/-- The words of a command: header, then argument words (30_encoding.md R80). -/
def encode (i : Instr) : List Word := i.header :: i.args

/-! ## Instructions as numbers, as spec/opcode_table.json numbers their bits -/

/-- Word `j` of an instruction whose bits are `w`, bit 0 the least significant bit of the first word; every bit at or
above `nbits` is 0. -/
def tableWord (nbits w j : Nat) : Word := BitVec.ofNat 32 ((w % 2 ^ nbits) >>> (32 * j))

/-- The argument words after the header; the longest command has four (30_encoding.md R85). -/
def tableArgs (nbits w : Nat) : List Word :=
  [tableWord nbits w 1, tableWord nbits w 2, tableWord nbits w 3, tableWord nbits w 4]

/-- The instruction the decoder reads from an instruction whose bits are `w`. -/
def decodeTableWord (nbits w : Nat) : Option Instr :=
  match decode (tableWord nbits w 0) (tableArgs nbits w) with
  | .command i _ => some i
  | .illegalOpcode _ _ => none
  | .reservedBits _ _ => none
  | .truncated _ => none

/-- The words of exactly one command whose bits are `w`: the header and as many argument words as its opcode takes,
none for an undefined opcode (30_encoding.md R82, R87). -/
def tableCommand (nbits w : Nat) : List Word :=
  match Op.ofByte? (opcodeField (tableWord nbits w 0)) with
  | none => [tableWord nbits w 0]
  | some op => tableWord nbits w 0 :: (tableArgs nbits w).take op.argc

end Sys2Proof
end

