-- ==== Sys2Proof/Config.lean ====
section
/-!
DEFINITION. What an implementation of the block fixes (00_scope.md R7) and the free values the spec leaves open
(93_implementation_defined.md). A parameter the spec calls OPEN and a value it calls "any value" is an uninterpreted
constant: `opaque`, with no body, so nothing can be proved of which value it is.
-/
namespace Sys2Proof

/-- One protocol parameter set: the fourteen staging registers of 10_state.md R24, in index order. -/
structure Bank where
  carrierHz     : Word
  startHigh     : Word
  startLow      : Word
  zeroHigh      : Word
  zeroLow       : Word
  oneHigh       : Word
  oneLow        : Word
  repeatHigh    : Word
  repeatLow     : Word
  packetLength  : Word
  middleStopBit : Word
  repeatCount   : Word
  repeatTime    : Word
  flags         : Word
  deriving DecidableEq, Repr

/-- A glyph of the font table: width, height, source address (45_fb_blit.md R277). -/
structure Glyph where
  w    : BitVec 16
  h    : BitVec 16
  addr : Word
  deriving DecidableEq, Repr

/-- What a 0 bit of a source bitmap paints (00_scope.md R7, 45_fb_blit.md R273). -/
inductive BlitZeroPolicy where
  | transparent | opaqueInverse
  deriving DecidableEq, Repr

/-- How often a shape paints a pixel its construction reaches more than once, under Xor (43_fb_pixel.md R225). -/
inductive XorMultiplicity where
  | set | unspecified
  deriving DecidableEq, Repr

/-- SIRC_LENGTH_MAP: the packet length for each selector value, `none` for INVALID (40_ir_commands.md R121). -/
structure SircLengthMap where
  sel0 : Option Nat
  sel1 : Option Nat
  sel2 : Option Nat
  sel3 : Option Nat
  deriving DecidableEq, Repr

/-- The parameters of 00_scope.md R7 as data. A parameter that is a function of its arguments (the source memory's
contents, FONT, SIRC_START_MARK) is held as the list of the points known of it; at every other point it is the
uninterpreted function of `Config` below (log 1, log 2). -/
structure Params where
  /-- PHYS_W -/
  physW       : Nat
  /-- PHYS_H -/
  physH       : Nat
  /-- SRC_SIZE -/
  srcSize     : Nat
  /-- known bytes of the source memory, by address -/
  src         : List (Nat × Byte)
  /-- known entries of FONT, by font reference and character code -/
  font        : List ((BitVec 16 × BitVec 8) × Option Glyph)
  /-- TICK_NS -/
  tickNs      : Nat
  /-- SIRC_LENGTH_MAP -/
  sircLengths : SircLengthMap
  /-- known values of SIRC_START_MARK, by latched parameter set and packet length -/
  startMarks  : List ((Bank × Nat) × Word)
  /-- BLIT_ZERO_POLICY -/
  blitZero    : BlitZeroPolicy
  /-- XOR_MULTIPLICITY -/
  xorMult     : XorMultiplicity
  deriving DecidableEq, Repr

/-- The identity string of the block (00_scope.md R2). -/
def Config.identity : String := "IRE/FBR-v7"

/-- PHYS_W - 1: OPEN, so that PHYS_W lies in 1 to 32767 (00_scope.md R7). -/
opaque Config.physWPred : Fin 32767

/-- PHYS_H - 1: OPEN, so that PHYS_H lies in 1 to 32767 (00_scope.md R7). -/
opaque Config.physHPred : Fin 32767

/-- SRC_SIZE: OPEN, 0 to 2^32 (00_scope.md R7). -/
opaque Config.srcSize : Fin 4294967297

/-- TICK_NS - 1: OPEN, so that TICK_NS is above 0 (00_scope.md R7). -/
opaque Config.tickNsPred : Nat

/-- The contents of the source memory: a parameter, fixed for the run (20_memory.md R65). -/
opaque Config.sourceByte : Nat → Byte

/-- FONT: a total function of font reference and character code, OPEN (00_scope.md R7, 45_fb_blit.md R277). -/
opaque Config.font : BitVec 16 → BitVec 8 → Option Glyph

/-- SIRC_START_MARK: a function of the latched parameter set and the packet length, OPEN (41_ir_sequencer.md R147). -/
opaque Config.sircStartMark : Bank → Nat → Word

/-- A free byte: any value for each stamp and address. It stands for the frame buffer's contents after a reset
(70_reset_and_hazards.md R341), for the pixels XOR_MULTIPLICITY = UNSPECIFIED leaves open (43_fb_pixel.md R225) and
for the bytes FB_BUFFER_OVERRUN leaves open (60_exceptions.md R302). -/
opaque Config.anyByte : (stamp addr : Nat) → Byte

/-- The carrier inside a mark: any level at each time, given the carrier frequency (10_state.md R34, 93 U2). -/
opaque Config.carrierLevel : (carrierHz : Word) → (ns : Nat) → Bool

/-- The spec's decided default of SIRC_LENGTH_MAP (00_scope.md R7, 40_ir_commands.md R121). -/
def Config.sircLengths : SircLengthMap := ⟨some 12, some 15, some 20, none⟩

/-- The parameters of the block that `State.reset` is the reset state of: uninterpreted where 00_scope.md R7 says
OPEN, the decided default where it gives one (log 1 to log 3). -/
def Config.params : Params where
  physW := Config.physWPred.val + 1
  physH := Config.physHPred.val + 1
  srcSize := Config.srcSize.val
  src := []
  font := []
  tickNs := Config.tickNsPred + 1
  sircLengths := Config.sircLengths
  startMarks := []
  blitZero := .transparent
  xorMult := .set

/-- A length a SIRC_LENGTH_MAP entry may hold: 1 to 32, or INVALID (00_scope.md R7). DEDUCED (log 19): 31 and 32 are kept,
although 40_ir_commands.md R127 says that the selector bits pay1[31:30] are never emitted. -/
def sircEntryOk : Option Nat → Bool
  | none => true
  | some k => decide (1 ≤ k) && decide (k ≤ 32)

/-- The constraints 00_scope.md R7 puts on the parameters. -/
def Params.wf (p : Params) : Bool :=
  decide (1 ≤ p.physW) && decide (p.physW ≤ 32767) &&
  decide (1 ≤ p.physH) && decide (p.physH ≤ 32767) &&
  decide (p.srcSize ≤ 4294967296) && decide (1 ≤ p.tickNs) &&
  sircEntryOk p.sircLengths.sel0 && sircEntryOk p.sircLengths.sel1 &&
  sircEntryOk p.sircLengths.sel2 && sircEntryOk p.sircLengths.sel3

end Sys2Proof
end

