-- ==== Sys2Proof/Machine/State.lean ====
section
/-!
DEFINITION. The state of the block as plain data (10_state.md, 20_memory.md R60), the reasons a step of the model can
stop, and the state right after reset (70_reset_and_hazards.md R340).
-/
namespace Sys2Proof.Machine

/-- The staging registers by name, in index order (10_state.md R24). -/
inductive ParamReg where
  | carrierHz | startHigh | startLow | zeroHigh | zeroLow | oneHigh | oneLow | repeatHigh | repeatLow
  | packetLength | middleStopBit | repeatCount | repeatTime | flags
  deriving DecidableEq, Repr

/-- The fault codes 0x01 to 0x08 of 60_exceptions.md R301; codes 0x09 to 0xFF are never written. -/
inductive FaultCode where
  | illegalOpcode | reservedBits | irBadRegister | irBusy
  | fbBadArgument | fbBufferOverrun | fbSourceRange | fbGlyphMissing
  deriving DecidableEq, Repr

/-- The configuration-error codes 1 to 6 of 60_exceptions.md R305; codes 7 to 255 are never written. -/
inductive CfgErr where
  | zeroCarrier | zeroDuration | badLength | badSelector | badMiddleStop | badStartMark
  deriving DecidableEq, Repr

/-- The nine states of the IRE state machine (10_state.md R29); values 9 to 15 are never held. -/
inductive IrState where
  | initial | start | firstWord | middleStop | secondWord | stop | spaceTrailer | markTrailer | complete
  deriving DecidableEq, Repr

/-- The pixel scale, 1, 2 or 4; no other value is ever held (10_state.md R40). -/
inductive Scale where
  | x1 | x2 | x4
  deriving DecidableEq, Repr

/-- The combine modes; values 5 to 7 are never held (10_state.md R40). -/
inductive WriteMode where
  | write | inverseWrite | or | xor | inverseAnd
  deriving DecidableEq, Repr

/-- The FAULT register (10_state.md R23): `code` is `none` for code 0. Its reserved bits [31:16] read 0. -/
structure FaultReg where
  code   : Option FaultCode
  opcode : BitVec 8
  deriving DecidableEq, Repr

/-- The transmission session (10_state.md R27, R28), under the spec's own names. -/
structure Session where
  /-- the latched copy of the staging bank (R27) -/
  P         : Bank
  state     : IrState
  pay1      : Word
  pay2      : Word
  /-- effective packet length in bits -/
  L         : BitVec 7
  /-- data bits emitted in the current packet -/
  n         : BitVec 7
  /-- effective number of transmissions -/
  R         : Word
  /-- transmissions not yet completed -/
  rem       : Word
  elapsed   : BitVec 64
  startMark : Word
  postDelay : Word
  busy      : Bool
  /-- `none` for code 0 (R31) -/
  cfgErr    : Option CfgErr
  deriving DecidableEq, Repr

/-- The mark/space generator (10_state.md R32). -/
structure Gen where
  active : Bool
  /-- true for a mark, false for a space -/
  phase  : Bool
  left   : Word
  m      : Word
  s      : Word
  deriving DecidableEq, Repr

/-- The post-delay timer (10_state.md R33). -/
structure PostTimer where
  active : Bool
  left   : Word
  deriving DecidableEq, Repr

/-- The state of unit IRE (10_state.md R24 to R33). -/
structure Ire where
  staging : Bank
  ses     : Session
  gen     : Gen
  post    : PostTimer
  deriving DecidableEq, Repr

/-- A memory as cells (address, byte). Canonical form: addresses strictly rising (`Memory.wf`, Machine/Ops.lean). An
address with no cell holds no written byte; what it reads as is said by the operation that reads it (log 4). -/
abbrev Memory := List Host.Cell

/-- The state of unit FBR (10_state.md R40, R41). -/
structure Fbr where
  scale     : Scale
  rotation  : Rotation
  mirror    : Mirror
  writeMode : WriteMode
  colour    : Colour
  fontRef   : BitVec 16
  cursorX   : BitVec 16
  cursorY   : BitVec 16
  /-- the frame buffer's written bytes -/
  buf       : Memory
  deriving DecidableEq, Repr

/-- What the host does at one boundary: it may reset the block, and it delivers command words (20_memory.md R74,
70_reset_and_hazards.md R343; log 5, log 6). -/
structure Delivery where
  reset : Bool
  words : List Word
  deriving DecidableEq, Repr

/-- The state of the block (INVENTORY.md lists every piece with its rule). -/
structure State where
  /-- FAULT (10_state.md R23) -/
  fault    : FaultReg
  /-- unit IRE -/
  ire      : Ire
  /-- unit FBR -/
  fbr      : Fbr
  /-- the parameters of 00_scope.md R7; no step writes them (log 1) -/
  params   : Params
  /-- the number of the present boundary (41_ir_sequencer.md R140) -/
  boundary : Nat
  /-- the words of the present boundary not yet taken from the port (log 5) -/
  port     : List Word
  /-- what the host does at the next boundary, the one after it, and so on (log 5) -/
  inbox    : List Delivery
  /-- the response words returned so far, oldest first (30_encoding.md R92) -/
  outbox   : List Word
  /-- the next unused stamp of a free value (log 13) -/
  freeCtr  : Nat
  /-- the stamp of the free bytes the unwritten frame buffer holds since reset (log 4, log 13) -/
  bufStamp : Nat
  deriving DecidableEq, Repr

/-- Why the model stops with a fault. The BLOCK's own faults are not here: they are next states with FAULT written
(60_exceptions.md R302). -/
inductive Fault where
  /-- Raised by a tick when the generator expires while the state is `Initial`. 41_ir_sequencer.md R159: it never
  occurs; a model that reaches it "has broken an invariant", to be recorded "as a model defect, not as a chip
  behaviour" (log 8). Safe: the model stops. -/
  | expiryInInitial
  /-- Raised by a tick when the generator expires while the state is `Complete`, as above (log 8). Safe. -/
  | expiryInComplete
  deriving DecidableEq, Repr

/-- Why the model refuses a step. -/
inductive Refusal where
  /-- Raised by an arm of `exec` for an instruction without a meaning. Safe. No arm does. -/
  | notModelled (mnemonic : String)
  /-- Raised by `step` when the port holds a defined header with fewer argument words than its opcode takes, which
  70_reset_and_hazards.md R352 leaves undefined (93 U11; log 7). Safe: the model stops. -/
  | truncatedCommand (opcode : BitVec 8)
  deriving DecidableEq, Repr

/-- A parameter set of zeros: the staging bank and P after reset (10_state.md R24, R27). -/
def Bank.zero : Bank := ⟨0, 0, 0, 0, 0, 0, 0, 0, 0, 0, 0, 0, 0, 0⟩

/-- FAULT after reset: not halted (70_reset_and_hazards.md R340). -/
def FaultReg.reset : FaultReg := ⟨none, 0#8⟩

/-- The session after reset: every field 0 but `state`, which is 8 (70_reset_and_hazards.md R340). -/
def Session.reset : Session where
  P := Bank.zero
  state := .complete
  pay1 := 0
  pay2 := 0
  L := 0
  n := 0
  R := 0
  rem := 0
  elapsed := 0
  startMark := 0
  postDelay := 0
  busy := false
  cfgErr := none

/-- The generator after reset (70_reset_and_hazards.md R340). -/
def Gen.reset : Gen := ⟨false, false, 0, 0, 0⟩

/-- The post-delay timer after reset (70_reset_and_hazards.md R340). -/
def PostTimer.reset : PostTimer := ⟨false, 0⟩

/-- Unit IRE after reset (70_reset_and_hazards.md R340). -/
def Ire.reset : Ire := ⟨Bank.zero, Session.reset, Gen.reset, PostTimer.reset⟩

/-- Unit FBR after reset: scale 1, Rotate_0, mirror None, Write, WHITE, font 0, cursor (0, 0), and no byte of the
buffer written (70_reset_and_hazards.md R340, R341). -/
def Fbr.reset : Fbr where
  scale := .x1
  rotation := .rotate0
  mirror := .none
  writeMode := .write
  colour := .white
  fontRef := 0
  cursorX := 0
  cursorY := 0
  buf := []

/-- The machine right after reset, at boundary 0, before the host has delivered any word (70_reset_and_hazards.md
R340, R342). The parameters are those of Config; the stamps of the free values are the model's own (log 13). -/
def State.reset : State where
  fault := FaultReg.reset
  ire := Ire.reset
  fbr := Fbr.reset
  params := Config.params
  boundary := 0
  port := []
  inbox := []
  outbox := []
  freeCtr := 1
  bufStamp := 0

end Sys2Proof.Machine
end

