-- ==== Sys2Proof/Machine/Operands.lean ====
section
/-!
DEFINITION. The operand values that a command's own rule judges: staging register indices (10_state.md R24), scale and
write-mode codes (10_state.md R40), and the session and generator registers IR_GETP reads (R36). The argument and
immediate forms themselves are in Decode.lean.
-/
namespace Sys2Proof.Machine

/-- The staging register at an index, `none` outside 0x00 to 0x0D (10_state.md R24). -/
def ParamReg.ofIndex? (idx : BitVec 8) : Option ParamReg :=
  match idx.toNat with
  | 0x00 => some .carrierHz
  | 0x01 => some .startHigh
  | 0x02 => some .startLow
  | 0x03 => some .zeroHigh
  | 0x04 => some .zeroLow
  | 0x05 => some .oneHigh
  | 0x06 => some .oneLow
  | 0x07 => some .repeatHigh
  | 0x08 => some .repeatLow
  | 0x09 => some .packetLength
  | 0x0A => some .middleStopBit
  | 0x0B => some .repeatCount
  | 0x0C => some .repeatTime
  | 0x0D => some .flags
  | _ => none

/-- The index of a staging register (10_state.md R24). -/
def ParamReg.index : ParamReg → BitVec 8
  | .carrierHz => 0x00#8
  | .startHigh => 0x01#8
  | .startLow => 0x02#8
  | .zeroHigh => 0x03#8
  | .zeroLow => 0x04#8
  | .oneHigh => 0x05#8
  | .oneLow => 0x06#8
  | .repeatHigh => 0x07#8
  | .repeatLow => 0x08#8
  | .packetLength => 0x09#8
  | .middleStopBit => 0x0A#8
  | .repeatCount => 0x0B#8
  | .repeatTime => 0x0C#8
  | .flags => 0x0D#8

/-- One register of a parameter set. -/
def bankGet (b : Bank) : ParamReg → Word
  | .carrierHz => b.carrierHz
  | .startHigh => b.startHigh
  | .startLow => b.startLow
  | .zeroHigh => b.zeroHigh
  | .zeroLow => b.zeroLow
  | .oneHigh => b.oneHigh
  | .oneLow => b.oneLow
  | .repeatHigh => b.repeatHigh
  | .repeatLow => b.repeatLow
  | .packetLength => b.packetLength
  | .middleStopBit => b.middleStopBit
  | .repeatCount => b.repeatCount
  | .repeatTime => b.repeatTime
  | .flags => b.flags

/-- A parameter set with one register written. -/
def bankSet (b : Bank) (r : ParamReg) (v : Word) : Bank :=
  match r with
  | .carrierHz => { b with carrierHz := v }
  | .startHigh => { b with startHigh := v }
  | .startLow => { b with startLow := v }
  | .zeroHigh => { b with zeroHigh := v }
  | .zeroLow => { b with zeroLow := v }
  | .oneHigh => { b with oneHigh := v }
  | .oneLow => { b with oneLow := v }
  | .repeatHigh => { b with repeatHigh := v }
  | .repeatLow => { b with repeatLow := v }
  | .packetLength => { b with packetLength := v }
  | .middleStopBit => { b with middleStopBit := v }
  | .repeatCount => { b with repeatCount := v }
  | .repeatTime => { b with repeatTime := v }
  | .flags => { b with flags := v }

/-- FLAGS.FAST_REPEATS, bit 0 (10_state.md R25). -/
def fastRepeats (b : Bank) : Bool := b.flags.getLsbD 0

/-- FLAGS.VARIANT_SIRC, bit 1 (10_state.md R25). -/
def variantSirc (b : Bank) : Bool := b.flags.getLsbD 1

/-- FLAGS[31:2], the reserved bits (10_state.md R25). -/
def flagsReserved (v : Word) : BitVec 30 := v.extractLsb' 2 30

/-- The scale of an operand value; `none` for a value outside 1, 2, 4 (42_fb_config.md R180). -/
def Scale.ofValue? (v : BitVec 8) : Option Scale :=
  match v.toNat with
  | 1 => some .x1
  | 2 => some .x2
  | 4 => some .x4
  | _ => none

/-- The value of the scale register (10_state.md R40). -/
def Scale.factor : Scale → Nat
  | .x1 => 1
  | .x2 => 2
  | .x4 => 4

/-- The write mode of a code; `none` for codes 5 to 7 (42_fb_config.md R183). -/
def WriteMode.ofCode? (v : BitVec 3) : Option WriteMode :=
  match v.toNat with
  | 0 => some .write
  | 1 => some .inverseWrite
  | 2 => some .or
  | 3 => some .xor
  | 4 => some .inverseAnd
  | _ => none

/-- The 3-bit code of a write mode (10_state.md R40). -/
def WriteMode.code : WriteMode → BitVec 3
  | .write => 0#3
  | .inverseWrite => 1#3
  | .or => 2#3
  | .xor => 3#3
  | .inverseAnd => 4#3

/-- The 4-bit code of a state of the state machine (10_state.md R29). -/
def IrState.code : IrState → BitVec 4
  | .initial => 0#4
  | .start => 1#4
  | .firstWord => 2#4
  | .middleStop => 3#4
  | .secondWord => 4#4
  | .stop => 5#4
  | .spaceTrailer => 6#4
  | .markTrailer => 7#4
  | .complete => 8#4

/-- The code of a fault (60_exceptions.md R301). -/
def FaultCode.byte : FaultCode → BitVec 8
  | .illegalOpcode => 0x01#8
  | .reservedBits => 0x02#8
  | .irBadRegister => 0x03#8
  | .irBusy => 0x04#8
  | .fbBadArgument => 0x05#8
  | .fbBufferOverrun => 0x06#8
  | .fbSourceRange => 0x07#8
  | .fbGlyphMissing => 0x08#8

/-- The code of a configuration error (60_exceptions.md R305). -/
def CfgErr.byte : CfgErr → BitVec 8
  | .zeroCarrier => 1#8
  | .zeroDuration => 2#8
  | .badLength => 3#8
  | .badSelector => 4#8
  | .badMiddleStop => 5#8
  | .badStartMark => 6#8

/-- The SIRC_LENGTH_MAP entry of a selector, `none` for INVALID (40_ir_commands.md R121). -/
def sircLength (m : SircLengthMap) (sel : BitVec 2) : Option Nat :=
  match sel.toNat with
  | 0 => m.sel0
  | 1 => m.sel1
  | 2 => m.sel2
  | _ => m.sel3

/-- The selector bits of payload word 1, pay1[31:30] (40_ir_commands.md R121). -/
def sircSelector (p1 : Word) : BitVec 2 := p1.extractLsb' 30 2

/-- One bit as a word field. -/
def bit (b : Bool) : BitVec 1 := if b then 1#1 else 0#1

/-- SessionRead(idx): the read-only session and generator registers, `none` at an index that names none
(10_state.md R36). -/
def sessionRead (r : Ire) (idx : BitVec 8) : Option Word :=
  match idx.toNat with
  | 0x20 => some (r.ses.state.code.setWidth 32)
  | 0x21 => some (r.ses.n.setWidth 32)
  | 0x22 => some (r.ses.L.setWidth 32)
  | 0x23 => some r.ses.R
  | 0x24 => some r.ses.rem
  | 0x25 => some (r.ses.elapsed.extractLsb' 0 32)
  | 0x26 => some (r.ses.elapsed.extractLsb' 32 32)
  | 0x27 => some r.ses.pay1
  | 0x28 => some r.ses.pay2
  | 0x29 => some r.ses.postDelay
  | 0x2A => some r.post.left
  | 0x2B => some r.ses.startMark
  | 0x2C => some r.gen.m
  | 0x2D => some r.gen.s
  | 0x2E => some (0#30 ++ bit r.gen.phase ++ bit r.gen.active)
  | 0x2F => some r.gen.left
  | k =>
    if 0x30 ≤ k ∧ k ≤ 0x3D then
      (ParamReg.ofIndex? (BitVec.ofNat 8 (k - 0x30))).map (bankGet r.ses.P)
    else none

/-- The register IR_GETP reads at an index: the staging bank, then the session registers (40_ir_commands.md R113). -/
def irRead (r : Ire) (idx : BitVec 8) : Option Word :=
  match ParamReg.ofIndex? idx with
  | some p => some (bankGet r.staging p)
  | none => sessionRead r idx

end Sys2Proof.Machine
end

