-- ==== Sys2Proof/Machine/Flags.lean ====
section
/-!
DEFINITION. The status flags and the status words. The block has no condition codes (10_state.md R43); its flags are
`busy`, `cfgErr`, the halted condition and `gen_active`, and IR_ENV is a function of the generator (R34).
-/
namespace Sys2Proof.Machine

/-- FAULT.code as its 8-bit field, 0 for no fault (10_state.md R23). -/
def FaultReg.codeByte (f : FaultReg) : BitVec 8 :=
  match f.code with
  | none => 0#8
  | some c => c.byte

/-- FAULT as a 32-bit register, its bits [31:16] 0 (10_state.md R23). -/
def FaultReg.word (f : FaultReg) : Word := 0#16 ++ f.opcode ++ f.codeByte

/-- cfgErr as its 8-bit field, 0 for none (10_state.md R31). -/
def Session.cfgErrByte (x : Session) : BitVec 8 :=
  match x.cfgErr with
  | none => 0#8
  | some e => e.byte

/-- The block is halted exactly when FAULT.code is not 0 (10_state.md R23). -/
def State.halted (s : State) : Bool := s.fault.code.isSome

/-- IR_ENV is 1 exactly when the generator is active and in its mark (10_state.md R34). In the state at boundary t it
is the envelope during tick t (41_ir_sequencer.md R142). -/
def Gen.env (g : Gen) : Bool := g.active && g.phase

/-- IR_ENV of the block. -/
def State.irEnv (s : State) : Bool := s.ire.gen.env

/-- What the pin IR_OUT does: inactive, or a carrier of a frequency at a level (10_state.md R34). -/
inductive PinLevel where
  | inactive
  | carrier (hz : Word) (level : Bool)
  deriving DecidableEq, Repr

/-- IR_OUT `ns` nanoseconds into the present tick: the carrier of P.CARRIER_HZ while IR_ENV is 1, inactive while it
is 0 (10_state.md R34). The waveform inside a mark is a free function of time (93 U2, log 12). -/
def State.irOut (s : State) (ns : Nat) : PinLevel :=
  if s.irEnv then
    .carrier s.ire.ses.P.carrierHz
      (Config.carrierLevel s.ire.ses.P.carrierHz (s.boundary * s.params.tickNs + ns))
  else .inactive

/-- The time of the present boundary in nanoseconds since boundary 0 (41_ir_sequencer.md R140, 00_scope.md R7). -/
def State.timeNs (s : State) : Nat := s.boundary * s.params.tickNs

/-- The IR_STATUS response word (30_encoding.md R93, 40_ir_commands.md R130). -/
def State.irStatusWord (s : State) : Word :=
  0#8 ++ s.fault.codeByte ++ s.ire.ses.cfgErrByte ++ bit s.ire.post.active ++ bit s.irEnv ++
    bit s.ire.gen.active ++ s.ire.ses.state.code ++ bit s.ire.ses.busy

/-- The 3-bit scale field of FB_STATUS, the value 1, 2 or 4 (30_encoding.md R94). -/
def Scale.bits (k : Scale) : BitVec 3 := BitVec.ofNat 3 k.factor

/-- The FB_STATUS response word (30_encoding.md R94, 42_fb_config.md R190). -/
def State.fbStatusWord (s : State) : Word :=
  0#13 ++ s.fbr.colour.bit ++ s.fbr.writeMode.code ++ s.fbr.mirror.code ++ s.fbr.rotation.code ++
    s.fbr.scale.bits ++ s.fault.codeByte

end Sys2Proof.Machine
end

