-- ==== Sys2Proof/Machine/Ops.lean ====
section
/-!
DEFINITION. The shared operations: memory (20_memory.md), parameters that are functions, responses (30_encoding.md
R92), fault entry and what a halted block does (60_exceptions.md R302, R303), and reset (70_reset_and_hazards.md R340),
the only way out of a fault.
-/
namespace Sys2Proof.Machine

/-! ## Memory -/

/-- The byte written at an address, `none` where nothing has been written. -/
def memLookup (m : Memory) (a : Nat) : Option Byte := m.lookup a

/-- The memory with byte `a` written, kept in canonical form. -/
def memWrite (m : Memory) (a : Nat) (v : Byte) : Memory :=
  match m with
  | [] => [(a, v)]
  | (b, w) :: rest =>
    if a < b then (a, v) :: (b, w) :: rest
    else if a = b then (a, v) :: rest
    else (b, w) :: memWrite rest a v

/-- The memory with every byte 0 to n - 1 written with `v`. -/
def memFill (m : Memory) (n : Nat) (v : Byte) : Memory :=
  (List.range n).map (fun a => (a, v)) ++ m.filter (fun c => decide (n ≤ c.1))

/-- Every address of the memory is above `a`, and they rise strictly. -/
def memRising (a : Nat) : Memory → Bool
  | [] => true
  | (b, _) :: rest => decide (a < b) && memRising b rest

/-- The canonical form: addresses strictly rising. -/
def Memory.wf : Memory → Bool
  | [] => true
  | (a, _) :: rest => memRising a rest

/-- No cell lies at or above address `n`. -/
def memBelow (n : Nat) (m : Memory) : Bool := m.all (fun c => decide (c.1 < n))

/-- A frame-buffer byte: the byte written since reset, and before any write the free byte of the reset's stamp
(20_memory.md R60, 70_reset_and_hazards.md R341; log 4). -/
def bufByte (stamp : Nat) (m : Memory) (a : Nat) : Byte := (memLookup m a).getD (Config.anyByte stamp a)

/-- MemRead(a, 1): byte `a` of the frame buffer (00_scope.md R10). -/
def State.readByte (s : State) (a : Nat) : Byte := bufByte s.bufStamp s.fbr.buf a

/-- STRIDE = ceil(PHYS_W / 8) (20_memory.md R62). -/
def stride (p : Params) : Nat := (p.physW + 7) / 8

/-- BUF_SIZE = PHYS_H * STRIDE (10_state.md R41). -/
def bufSize (p : Params) : Nat := p.physH * stride p

/-- MemWrite(a, 1, v) with the check before every access: `none` at or above BUF_SIZE, and then no access
(20_memory.md R64). -/
def bufWrite? (p : Params) (m : Memory) (a : Nat) (v : Byte) : Option Memory :=
  if a < bufSize p then some (memWrite m a v) else none

/-- PixAddr(px, py), the byte that holds a physical pixel (20_memory.md R61). -/
def pixAddr (p : Params) (px py : Nat) : Nat := py * stride p + px / 8

/-- PixBit(px), the pixel's bit within its byte (20_memory.md R61). -/
def pixBit (px : Nat) : Nat := 7 - px % 8

/-- PixMask(px) (20_memory.md R61). -/
def pixMask (px : Nat) : Byte := 1#8 <<< pixBit px

/-- The physical pixel (px, py) as it stands in the buffer (20_memory.md R61). -/
def State.pixel (s : State) (px py : Nat) : Bool := (s.readByte (pixAddr s.params px py)).getLsbD (pixBit px)

/-! ## Parameters that are functions (log 2) -/

/-- SrcRead(a, 1) of a byte inside the source memory (20_memory.md R66). -/
def srcByte (p : Params) (a : Nat) : Byte := (p.src.lookup a).getD (Config.sourceByte a)

/-- FONT(ref, code) (45_fb_blit.md R277). -/
def fontGlyph (p : Params) (ref : BitVec 16) (code : BitVec 8) : Option Glyph :=
  (p.font.lookup (ref, code)).getD (Config.font ref code)

/-- SIRC_START_MARK(Q, L) (41_ir_sequencer.md R147). -/
def sircStartMark (p : Params) (q : Bank) (len : Nat) : Word :=
  (p.startMarks.lookup (q, len)).getD (Config.sircStartMark q len)

/-! ## Responses -/

/-- respond(v): return one word to the host (00_scope.md R10, 30_encoding.md R92). -/
def respond (v : Word) (s : State) : State := { s with outbox := s.outbox ++ [v] }

/-! ## Faults and reset -/

/-- Fault entry: FAULT records the code and the opcode, the generator stops, and the block is halted from here on;
nothing else changes (60_exceptions.md R302). -/
def enterFault (c : FaultCode) (opcode : BitVec 8) (s : State) : State :=
  { s with
    fault := ⟨some c, opcode⟩
    ire := { s.ire with gen := { s.ire.gen with active := false } } }

/-- Reset, the only return from a fault (60_exceptions.md R313): every field of the block takes its reset value at
boundary 0 (70_reset_and_hazards.md R340, R343). The parameters stay (R341), and the buffer's bytes are any value anew,
under a fresh stamp (R341; log 13). What the host has sent and received is the host's. -/
def resetBlock (s : State) : State :=
  { s with
    fault := FaultReg.reset
    ire := Ire.reset
    fbr := Fbr.reset
    boundary := 0
    bufStamp := s.freeCtr
    freeCtr := s.freeCtr + 1 }

/-- A command that is no query: while the block is halted it is ignored (60_exceptions.md R303). -/
def command (effect : State → State) (s : State) : State := if s.halted then s else effect s

/-- A query that finds a fault: while the block is halted it returns 0 and changes nothing, otherwise it faults
(60_exceptions.md R303). -/
def queryFault (c : FaultCode) (opcode : BitVec 8) (s : State) : State :=
  if s.halted then respond 0#32 s else enterFault c opcode s

/-- A query whose value is `v`, or `none` where its rule raises the fault `c` (60_exceptions.md R303). -/
def query (c : FaultCode) (opcode : BitVec 8) (v : Option Word) (s : State) : State :=
  match v with
  | some w => respond w s
  | none => queryFault c opcode s

/-- A header word with an undefined opcode (30_encoding.md R87); ignored while halted (60_exceptions.md R303). -/
def illegalOpcode (opcode : BitVec 8) (s : State) : State := command (enterFault .illegalOpcode opcode) s

/-- A command with a reserved bit set (30_encoding.md R86); while halted a query answers 0 and any other command is
ignored (60_exceptions.md R303). -/
def reservedBits (op : Op) (s : State) : State :=
  if op.isQuery then queryFault .reservedBits op.byte s
  else command (enterFault .reservedBits op.byte) s

end Sys2Proof.Machine
end

