-- ==== Sys2Proof/Machine/FbConfig.lean ====
section
/-!
DEFINITION. The FBR configuration setters, clear, cursor and readback commands (42_fb_config.md).
-/
namespace Sys2Proof.Machine

/-! ## Configuration setters: each changes only its register (10_state.md R42) -/

/-- The effect of FB_SETSCALE on a running block (42_fb_config.md R180). -/
def setscaleEffect (v : BitVec 8) (s : State) : State :=
  match Scale.ofValue? v with
  | none => enterFault .fbBadArgument Op.fbSetscale.byte s
  | some k => { s with fbr := { s.fbr with scale := k } }

/-- FB_SETSCALE v (42_fb_config.md R180). -/
def execFbSetscale (v : BitVec 8) (s : State) : Host.Outcome State Fault Refusal :=
  .next (command (setscaleEffect v) s)

/-- FB_SETROTATE v (42_fb_config.md R181). -/
def execFbSetrotate (v : Rotation) (s : State) : Host.Outcome State Fault Refusal :=
  .next (command (fun s => { s with fbr := { s.fbr with rotation := v } }) s)

/-- FB_SETMIRROR v (42_fb_config.md R182). -/
def execFbSetmirror (v : Mirror) (s : State) : Host.Outcome State Fault Refusal :=
  .next (command (fun s => { s with fbr := { s.fbr with mirror := v } }) s)

/-- The effect of FB_SETWRITEMODE on a running block (42_fb_config.md R183). -/
def setwritemodeEffect (v : BitVec 3) (s : State) : State :=
  match WriteMode.ofCode? v with
  | none => enterFault .fbBadArgument Op.fbSetwritemode.byte s
  | some m => { s with fbr := { s.fbr with writeMode := m } }

/-- FB_SETWRITEMODE v (42_fb_config.md R183). -/
def execFbSetwritemode (v : BitVec 3) (s : State) : Host.Outcome State Fault Refusal :=
  .next (command (setwritemodeEffect v) s)

/-- FB_SETCOLOUR c (42_fb_config.md R184). -/
def execFbSetcolour (c : Colour) (s : State) : Host.Outcome State Fault Refusal :=
  .next (command (fun s => { s with fbr := { s.fbr with colour := c } }) s)

/-- FB_SETFONT f (42_fb_config.md R185). -/
def execFbSetfont (f : BitVec 16) (s : State) : Host.Outcome State Fault Refusal :=
  .next (command (fun s => { s with fbr := { s.fbr with fontRef := f } }) s)

/-! ## Clear and cursor -/

/-- COLBYTE(c) (42_fb_config.md R186). -/
def colByte : Colour → Byte
  | .black => 0x00#8
  | .white => 0xFF#8

/-- The effect of FB_CLEAR on a running block: every byte, padding included, and the cursor home (42_fb_config.md
R187). -/
def clearEffect (c : Colour) (s : State) : State :=
  { s with
    fbr :=
      { s.fbr with
        buf := memFill s.fbr.buf (bufSize s.params) (colByte c)
        cursorX := 0#16
        cursorY := 0#16 } }

/-- FB_CLEAR c (42_fb_config.md R187). -/
def execFbClear (c : Colour) (s : State) : Host.Outcome State Fault Refusal :=
  .next (command (clearEffect c) s)

/-- FB_MOVETO p (42_fb_config.md R188). -/
def execFbMoveto (p : Point) (s : State) : Host.Outcome State Fault Refusal :=
  .next (command
    (fun s => { s with fbr := { s.fbr with cursorX := BitVec.ofInt 16 p.x, cursorY := BitVec.ofInt 16 p.y } }) s)

/-! ## Readback: no side effects (20_memory.md R72) -/

/-- What FB_READB reads: the stored byte, or `none` at or above BUF_SIZE (42_fb_config.md R189). -/
def readbValue (a : Word) (s : State) : Option Word :=
  if a.toNat < bufSize s.params then some ((s.readByte a.toNat).setWidth 32) else none

/-- FB_READB address (42_fb_config.md R189). -/
def execFbReadb (a : Word) (s : State) : Host.Outcome State Fault Refusal :=
  .next (query .fbBadArgument Op.fbReadb.byte (readbValue a s) s)

/-- FB_STATUS (42_fb_config.md R190). -/
def execFbStatus (s : State) : Host.Outcome State Fault Refusal := .next (respond s.fbStatusWord s)

/-- FB_GETCURSOR (42_fb_config.md R191). -/
def execFbGetcursor (s : State) : Host.Outcome State Fault Refusal :=
  .next (respond (s.fbr.cursorY ++ s.fbr.cursorX) s)

/-- FB_GETFONT (42_fb_config.md R192). -/
def execFbGetfont (s : State) : Host.Outcome State Fault Refusal :=
  .next (respond (s.fbr.fontRef.setWidth 32) s)

/-- FB_GETSIZE (42_fb_config.md R193). -/
def execFbGetsize (s : State) : Host.Outcome State Fault Refusal :=
  .next (respond (BitVec.ofNat 16 s.params.physH ++ BitVec.ofNat 16 s.params.physW) s)

end Sys2Proof.Machine
end

