-- ==== Sys2Proof/Machine/FbPixel.lean ====
section
/-!
DEFINITION. The FBR pixel pipeline (43_fb_pixel.md): the combine modes, MAP, PAINT1 and PAINTSET, the painting of a
shape with the free pixels of XOR_MULTIPLICITY = UNSPECIFIED, and FB_PAINTPIXEL.
-/
namespace Sys2Proof.Machine

/-- COMBINE(mode, old, C, M) (43_fb_pixel.md R211). -/
def combine (mode : WriteMode) (old C M : Byte) : Byte :=
  match mode with
  | .write => (old &&& ~~~M) ||| (C &&& M)
  | .inverseWrite => (old &&& ~~~M) ||| (~~~C &&& M)
  | .or => old ||| (C &&& M)
  | .xor => old ^^^ (C &&& M)
  | .inverseAnd => old &&& (~~~C ||| ~~~M)

/-! ## The coordinate pipeline -/

/-- W = PHYS_W div scale (43_fb_pixel.md R212). -/
def State.logicalW (s : State) : Nat := s.params.physW / s.fbr.scale.factor

/-- H = PHYS_H div scale (43_fb_pixel.md R212). -/
def State.logicalH (s : State) : Nat := s.params.physH / s.fbr.scale.factor

/-- Step (a), rotation, on a canvas W × H (43_fb_pixel.md R213, R214). -/
def rotatePoint (r : Rotation) (W H : Int) (p : Point) : Point :=
  match r with
  | .rotate0 => p
  | .rotate90 => ⟨W - 1 - p.y, p.x⟩
  | .rotate180 => ⟨W - 1 - p.x, H - 1 - p.y⟩
  | .rotate270 => ⟨p.y, H - 1 - p.x⟩

/-- Step (b), mirror, of a rotated coordinate (43_fb_pixel.md R213, R215). -/
def mirrorPoint (m : Mirror) (W H : Int) (p : Point) : Point :=
  match m with
  | .none => p
  | .x => ⟨W - 1 - p.x, p.y⟩
  | .y => ⟨p.x, H - 1 - p.y⟩
  | .origin => ⟨W - 1 - p.x, H - 1 - p.y⟩

/-- MAP(x, y): the canvas coordinate of a logical point, `none` where it is clipped (43_fb_pixel.md R213, R216). -/
def State.mapPoint (s : State) (p : Point) : Option (Nat × Nat) :=
  let W : Int := s.logicalW
  let H : Int := s.logicalH
  let q := mirrorPoint s.fbr.mirror W H (rotatePoint s.fbr.rotation W H p)
  if q.x < 0 ∨ W ≤ q.x ∨ q.y < 0 ∨ H ≤ q.y then none else some (q.x.toNat, q.y.toNat)

/-- BLOCKMASK(u) at scale k: the bits of one block row in its byte (43_fb_pixel.md R218). -/
def blockMask (k u : Nat) : Byte := BitVec.ofNat 8 ((2 ^ k - 1) <<< (8 - k - u * k % 8))

/-- The byte addresses of the block of canvas pixel (u, v), one per block row, top first (43_fb_pixel.md R217,
R220). -/
def State.blockAddrs (s : State) (u v : Nat) : List Nat :=
  (List.range s.fbr.scale.factor).map fun i =>
    (v * s.fbr.scale.factor + i) * stride s.params + u * s.fbr.scale.factor / 8

/-! ## Painting -/

/-- Write each byte of a list with its new value, a function of address and old byte; `none` when the check of
20_memory.md R64 fails. -/
def editBytes (s : State) (f : Nat → Byte → Byte) : List Nat → Memory → Option Memory
  | [], m => some m
  | a :: as, m =>
    match bufWrite? s.params m a (f a (bufByte s.bufStamp m a)) with
    | none => none
    | some m' => editBytes s f as m'

/-- Write the bytes of the block of one logical point; nothing where the point is clipped (43_fb_pixel.md R220). The
new byte is a function of the block's mask, the address and the old byte. -/
def editPoint (s : State) (f : Byte → Nat → Byte → Byte) (p : Point) (m : Memory) : Option Memory :=
  match s.mapPoint p with
  | none => some m
  | some (u, v) => editBytes s (f (blockMask s.fbr.scale.factor u)) (s.blockAddrs u v) m

/-- Write the blocks of a list of logical points, in order. -/
def editPoints (s : State) (f : Byte → Nat → Byte → Byte) : List Point → Memory → Option Memory
  | [], m => some m
  | p :: ps, m =>
    match editPoint s f p m with
    | none => none
    | some m' => editPoints s f ps m'

/-- Step (e), the new byte of a painted block row: COMBINE in the current write mode (43_fb_pixel.md R220). -/
def paintByte (s : State) (c : Colour) (M : Byte) (_a : Nat) (old : Byte) : Byte :=
  combine s.fbr.writeMode old (colByte c) M

/-- The new byte of a block row whose pixels are any value: the free byte of a stamp inside the mask, the old byte
outside it (43_fb_pixel.md R225, 93 U3). -/
def freePixels (stamp : Nat) (M : Byte) (a : Nat) (old : Byte) : Byte :=
  (old &&& ~~~M) ||| (Config.anyByte stamp a &&& M)

/-- PAINT1(x, y, c) (43_fb_pixel.md R220). -/
def paint1 (s : State) (c : Colour) (p : Point) (m : Memory) : Option Memory :=
  editPoint s (paintByte s c) p m

/-- PAINTSET(S, c): each point of the set exactly once, whatever the list repeats (43_fb_pixel.md R225). -/
def paintSet (s : State) (c : Colour) (S : List Point) (m : Memory) : Option Memory :=
  editPoints s (paintByte s c) S.dedup m

/-- The addresses a command that paints the points of `S` could write (60_exceptions.md R302). -/
def State.paintAddrs (s : State) (S : List Point) : List Nat :=
  S.flatMap fun p =>
    match s.mapPoint p with
    | none => []
    | some (u, v) => s.blockAddrs u v

/-- A memory whose bytes at some addresses inside the buffer are any value, under a stamp. -/
def freeBytes (p : Params) (stamp : Nat) (as : List Nat) (m : Memory) : Memory :=
  as.foldl (fun m a => if a < bufSize p then memWrite m a (Config.anyByte stamp a) else m) m

/-- The effect of a painting command: the painted buffer, or, where the check of 20_memory.md R64 failed, fault entry
with FB_BUFFER_OVERRUN, after which the bytes the command could have written are any value (60_exceptions.md R302,
93 U4; log 11). -/
def paintOutcome (op : Op) (S : List Point) (m? : Option Memory) (s : State) : State :=
  match m? with
  | some m => { s with fbr := { s.fbr with buf := m } }
  | none =>
    enterFault .fbBufferOverrun op.byte
      { s with
        fbr := { s.fbr with buf := freeBytes s.params s.freeCtr (s.paintAddrs S) s.fbr.buf }
        freeCtr := s.freeCtr + 1 }

/-- A shape: the points its construction reaches, each as often as it does, and those of them the spec names as
reached more than once (43_fb_pixel.md R225). -/
structure Shape where
  pts      : List Point
  repeated : List Point
  deriving DecidableEq, Repr

/-- The pixels of a shape that are any value: under Xor with XOR_MULTIPLICITY = UNSPECIFIED those reached more than
once, otherwise none (43_fb_pixel.md R225; log 10). -/
def State.freePoints (s : State) (sh : Shape) : List Point :=
  if s.fbr.writeMode = .xor ∧ s.params.xorMult = .unspecified then sh.repeated.dedup else []

/-- PAINTSET of a shape in the current colour, the free pixels of XOR_MULTIPLICITY = UNSPECIFIED apart
(43_fb_pixel.md R225; log 10). -/
def paintShape (op : Op) (sh : Shape) (s : State) : State :=
  let free := s.freePoints sh
  if free = [] then paintOutcome op sh.pts (paintSet s s.fbr.colour sh.pts s.fbr.buf) s
  else
    paintOutcome op sh.pts
      ((paintSet s s.fbr.colour (sh.pts.filter (fun p => !free.contains p)) s.fbr.buf).bind
        (editPoints s (freePixels s.freeCtr) free))
      { s with freeCtr := s.freeCtr + 1 }

/-! ## FB_PAINTPIXEL -/

/-- The effect of FB_PAINTPIXEL on a running block: PAINTSET of the one point in the operand's colour
(43_fb_pixel.md R230). -/
def paintpixelEffect (c : Colour) (p : Point) (s : State) : State :=
  paintOutcome .fbPaintpixel [p] (paintSet s c [p] s.fbr.buf) s

/-- FB_PAINTPIXEL p, c (43_fb_pixel.md R230). -/
def execFbPaintpixel (c : Colour) (p : Point) (s : State) : Host.Outcome State Fault Refusal :=
  .next (command (paintpixelEffect c p) s)

end Sys2Proof.Machine
end

