-- ==== Sys2Proof/Machine/FbShapes.lean ====
section
/-!
DEFINITION. The line, rectangle and circle rasterizers (44_fb_shapes.md). Each command builds the points its
construction reaches, as a list that keeps how often it reaches them, and paints them as a set (43_fb_pixel.md R225).
-/
namespace Sys2Proof.Machine

/-! ## Lines -/

/-- The integers lo, lo + 1, …, hi in order; none when hi is below lo. -/
def intRange (lo hi : Int) : List Int := (List.range (hi + 1 - lo).toNat).map fun i => lo + (i : Int)

/-- The points of row y from x = lo to x = hi. -/
def hspan (lo hi y : Int) : List Point := (intRange lo hi).map fun x => ⟨x, y⟩

/-- The points of column x from y = lo to y = hi. -/
def vspan (lo hi x : Int) : List Point := (intRange lo hi).map fun y => ⟨x, y⟩

/-- The loop of BRESENHAM: `k` steps of the major axis from (x, y) with error `err` (44_fb_shapes.md R243). -/
def bresenhamSteps (steep : Bool) (dx dy ystep : Int) : Nat → Int → Int → Int → List Point
  | 0, _, _, _ => []
  | k + 1, x, y, err =>
    (if steep then ⟨y, x⟩ else ⟨x, y⟩) ::
      (if err - dy < 0 then bresenhamSteps steep dx dy ystep k (x + 1) (y + ystep) (err - dy + dx)
       else bresenhamSteps steep dx dy ystep k (x + 1) y (err - dy))

/-- The line of BRESENHAM after the swaps: from (x0, y0) to (x1, y1) with x0 ≤ x1 on the major axis
(44_fb_shapes.md R243). -/
def bresenhamMajor (steep : Bool) (x0 y0 x1 y1 : Int) : List Point :=
  bresenhamSteps steep (x1 - x0) |y1 - y0| (if y0 < y1 then 1 else -1) (x1 - x0 + 1).toNat x0 y0 ((x1 - x0) / 2)

/-- The swap of whole endpoints that makes the major coordinate rise (44_fb_shapes.md R241, R243). -/
def bresenhamOrdered (steep : Bool) (x0 y0 x1 y1 : Int) : List Point :=
  if x1 < x0 then bresenhamMajor steep x1 y1 x0 y0 else bresenhamMajor steep x0 y0 x1 y1

/-- BRESENHAM(x0, y0, x1, y1) (44_fb_shapes.md R243). -/
def bresenham (p0 p1 : Point) : List Point :=
  if |p1.x - p0.x| < |p1.y - p0.y| then bresenhamOrdered true p0.y p0.x p1.y p1.x
  else bresenhamOrdered false p0.x p0.y p1.x p1.y

/-- LINESET(x0, y0, x1, y1) (44_fb_shapes.md R240). -/
def lineSet (p0 p1 : Point) : List Point :=
  if p0.y = p1.y then hspan (min p0.x p1.x) (max p0.x p1.x) p0.y
  else if p0.x = p1.x then vspan (min p0.y p1.y) (max p0.y p1.y) p0.x
  else bresenham p0 p1

/-- The shape of FB_DRAWLINE: no point is reached twice (44_fb_shapes.md R244). -/
def lineShape (p0 p1 : Point) : Shape := ⟨lineSet p0 p1, []⟩

/-- FB_DRAWLINE p0, p1 (44_fb_shapes.md R244). -/
def execFbDrawline (p0 p1 : Point) (s : State) : Host.Outcome State Fault Refusal :=
  .next (command (paintShape .fbDrawline (lineShape p0 p1)) s)

/-! ## Rectangles -/

/-- The shape of FB_DRAWRECT: one horizontal line per row, so no point is reached twice (44_fb_shapes.md R250). -/
def rectShape (p0 p1 : Point) : Shape :=
  let xl := min p0.x p1.x
  let xr := max p0.x p1.x
  ⟨(intRange (min p0.y p1.y) (max p0.y p1.y)).flatMap fun y => lineSet ⟨xl, y⟩ ⟨xr, y⟩, []⟩

/-- FB_DRAWRECT p0, p1 (44_fb_shapes.md R250). -/
def execFbDrawrect (p0 p1 : Point) (s : State) : Host.Outcome State Fault Refusal :=
  .next (command (paintShape .fbDrawrect (rectShape p0 p1)) s)

/-- The points a list holds more than once (43_fb_pixel.md R225). -/
def moreThanOnce (S : List Point) : List Point := S.filter fun p => decide (1 < S.count p)

/-- The edges of FB_DRAWOPENRECT: two horizontal, then two vertical (44_fb_shapes.md R251). -/
def openrectPoints (p0 p1 : Point) : List Point :=
  let xl := min p0.x p1.x
  let xr := max p0.x p1.x
  let yt := min p0.y p1.y
  let yb := max p0.y p1.y
  lineSet ⟨xl, yt⟩ ⟨xr, yt⟩ ++ lineSet ⟨xl, yb⟩ ⟨xr, yb⟩ ++
    (lineSet ⟨xl, yt⟩ ⟨xl, yb⟩ ++ lineSet ⟨xr, yt⟩ ⟨xr, yb⟩)

/-- The shape of FB_DRAWOPENRECT (44_fb_shapes.md R251). -/
def openrectShape (p0 p1 : Point) : Shape := ⟨openrectPoints p0 p1, moreThanOnce (openrectPoints p0 p1)⟩

/-- FB_DRAWOPENRECT p0, p1 (44_fb_shapes.md R251). -/
def execFbDrawopenrect (p0 p1 : Point) (s : State) : Host.Outcome State Fault Refusal :=
  .next (command (paintShape .fbDrawopenrect (openrectShape p0 p1)) s)

/-! ## Circles -/

/-- The loop of MIDPOINT, at most `fuel` steps (44_fb_shapes.md R260). -/
def midpointSteps : Nat → Int → Int → Int → List Point
  | 0, _, _, _ => []
  | fuel + 1, x, y, d =>
    if x < y then []
    else
      ⟨x, y⟩ ::
        (if d < 0 then midpointSteps fuel x (y + 1) (d + 2 * (y + 1) + 1)
         else midpointSteps fuel (x - 1) (y + 1) (d + 2 * (y + 1 - (x - 1)) + 1))

/-- MIDPOINT(r), the octant steps of radius r: y rises by one a step and x never rises, so r + 1 steps are enough
(44_fb_shapes.md R260). -/
def midpoint (r : Int) : List Point := midpointSteps (r.toNat + 1) r 0 (1 - r)

/-- The eight symmetric points of one octant step (44_fb_shapes.md R261). -/
def octantPoints (c : Point) (q : Point) : List Point :=
  [⟨c.x + q.x, c.y + q.y⟩, ⟨c.x - q.x, c.y + q.y⟩, ⟨c.x + q.x, c.y - q.y⟩, ⟨c.x - q.x, c.y - q.y⟩,
   ⟨c.x + q.y, c.y + q.x⟩, ⟨c.x - q.y, c.y + q.x⟩, ⟨c.x + q.y, c.y - q.x⟩, ⟨c.x - q.y, c.y - q.x⟩]

/-- The points FB_DRAWOPENCIRCLE's construction reaches (44_fb_shapes.md R261). -/
def opencirclePoints (c : Point) (r : Int) : List Point := (midpoint r).flatMap (octantPoints c)

/-- The shape of FB_DRAWOPENCIRCLE (44_fb_shapes.md R261). -/
def opencircleShape (c : Point) (r : Int) : Shape := ⟨opencirclePoints c r, moreThanOnce (opencirclePoints c r)⟩

/-- FB_DRAWOPENCIRCLE centre, r (44_fb_shapes.md R261). -/
def execFbDrawopencircle (c : Point) (r : Int) (s : State) : Host.Outcome State Fault Refusal :=
  .next (command (paintShape .fbDrawopencircle (opencircleShape c r)) s)

/-- One of the four fill lines of an octant step: row `y` from c.x - half to c.x + half (44_fb_shapes.md R262). -/
structure FillRow where
  y    : Int
  half : Int
  deriving DecidableEq, Repr

/-- The four fill lines of one octant step, in the spec's order (44_fb_shapes.md R262). -/
def octantRows (c : Point) (q : Point) : List FillRow :=
  [⟨c.y + q.y, q.x⟩, ⟨c.y - q.y, q.x⟩, ⟨c.y + q.x, q.y⟩, ⟨c.y - q.x, q.y⟩]

/-- The fill lines of FB_DRAWCIRCLE (44_fb_shapes.md R262). -/
def circleRows (c : Point) (r : Int) : List FillRow := (midpoint r).flatMap (octantRows c)

/-- The points of one fill line (44_fb_shapes.md R262). -/
def fillRowPoints (c : Point) (w : FillRow) : List Point := lineSet ⟨c.x - w.half, w.y⟩ ⟨c.x + w.half, w.y⟩

/-- The points FB_DRAWCIRCLE's construction reaches (44_fb_shapes.md R262). -/
def circlePoints (c : Point) (r : Int) : List Point := (circleRows c r).flatMap (fillRowPoints c)

/-- The shape of FB_DRAWCIRCLE. The spec names as reached more than once "every point in a row reached more than
once" (44_fb_shapes.md R262; log 10). -/
def circleShape (c : Point) (r : Int) : Shape :=
  ⟨circlePoints c r,
   (circlePoints c r).filter fun p => decide (1 < (circleRows c r).countP fun w => w.y == p.y)⟩

/-- FB_DRAWCIRCLE centre, r (44_fb_shapes.md R262). -/
def execFbDrawcircle (c : Point) (r : Int) (s : State) : Host.Outcome State Fault Refusal :=
  .next (command (paintShape .fbDrawcircle (circleShape c r)) s)

end Sys2Proof.Machine
end

