-- ==== Sys2Proof/Machine/FbBlit.lean ====
section
/-!
DEFINITION. The image blit and glyph rendering (45_fb_blit.md): BLIT, FB_WRITEIMAGE, FB_DRAWCHAR.
-/
namespace Sys2Proof.Machine

/-! ## Bitmaps -/

/-- A bitmap in source memory: width and height in pixels, address of the first byte (45_fb_blit.md R270). -/
structure Bitmap where
  w    : Nat
  h    : Nat
  base : Nat
  deriving DecidableEq, Repr

/-- The bytes of one row, ceil(w / 8) (20_memory.md R67). -/
def Bitmap.rowBytes (b : Bitmap) : Nat := (b.w + 7) / 8

/-- BMSIZE(w, h) (45_fb_blit.md R270). -/
def Bitmap.size (b : Bitmap) : Nat := b.h * b.rowBytes

/-- CHECKSRC: the bitmap is empty or lies wholly inside the source memory, in exact integers (45_fb_blit.md R271). -/
def Bitmap.inSource (p : Params) (b : Bitmap) : Bool :=
  decide (b.size = 0) || decide (b.base + b.size ≤ p.srcSize)

/-- The source address of the byte that holds pixel (i, j) (45_fb_blit.md R270). -/
def Bitmap.pixelAddr (b : Bitmap) (i j : Nat) : Nat := b.base + j * b.rowBytes + i / 8

/-- SRCBIT(base, w, i, j) (45_fb_blit.md R270). -/
def Bitmap.srcBit (p : Params) (b : Bitmap) (i j : Nat) : Bool := (srcByte p (b.pixelAddr i j)).getLsbD (7 - i % 8)

/-- The pixels (i, j) of a bitmap, row by row. -/
def Bitmap.pixels (b : Bitmap) : List (Nat × Nat) :=
  (List.range b.h).flatMap fun j => (List.range b.w).map fun i => (i, j)

/-- Where source pixel (i, j) lands when pixel (0, 0) is drawn at `o` (45_fb_blit.md R272). -/
def blitPoint (o : Point) (ij : Nat × Nat) : Point := ⟨o.x + ij.1, o.y + ij.2⟩

/-- ONES or ZEROS of BLITSETS: the destination points of the source pixels of one value (45_fb_blit.md R272). -/
def blitSet (p : Params) (o : Point) (b : Bitmap) (v : Bool) : List Point :=
  (b.pixels.filter fun ij => b.srcBit p ij.1 ij.2 == v).map (blitPoint o)

/-- 1 - colour (45_fb_blit.md R273). -/
def inverseColour : Colour → Colour
  | .black => .white
  | .white => .black

/-- The buffer a BLIT paints: ONES in the colour, and ZEROS in its inverse where BLIT_ZERO_POLICY is OPAQUE
(45_fb_blit.md R273). -/
def blitBuf (o : Point) (b : Bitmap) (s : State) : Option Memory :=
  let m1 := paintSet s s.fbr.colour (blitSet s.params o b true) s.fbr.buf
  match s.params.blitZero with
  | .transparent => m1
  | .opaqueInverse => m1.bind (paintSet s (inverseColour s.fbr.colour) (blitSet s.params o b false))

/-- The points a BLIT paints. -/
def blitPoints (o : Point) (b : Bitmap) (s : State) : List Point :=
  match s.params.blitZero with
  | .transparent => blitSet s.params o b true
  | .opaqueInverse => blitSet s.params o b true ++ blitSet s.params o b false

/-- BLIT(x, y, w, h, base): check the source, then paint (45_fb_blit.md R273). -/
def blit (op : Op) (o : Point) (b : Bitmap) (s : State) : State :=
  if b.inSource s.params then paintOutcome op (blitPoints o b s) (blitBuf o b s) s
  else enterFault .fbSourceRange op.byte s

/-! ## FB_WRITEIMAGE -/

/-- The bitmap of FB_WRITEIMAGE's operands (45_fb_blit.md R274). -/
def imageBitmap (z : Size) (a : Word) : Bitmap := ⟨z.w, z.h, a.toNat⟩

/-- FB_WRITEIMAGE origin, size, source (45_fb_blit.md R274). -/
def execFbWriteimage (o : Point) (z : Size) (a : Word) (s : State) : Host.Outcome State Fault Refusal :=
  .next (command (blit .fbWriteimage o (imageBitmap z a)) s)

/-! ## FB_DRAWCHAR -/

/-- The bitmap of a glyph (45_fb_blit.md R277). -/
def glyphBitmap (g : Glyph) : Bitmap := ⟨g.w.toNat, g.h.toNat, g.addr.toNat⟩

/-- The cursor as a logical point, sign-extended (45_fb_blit.md R275). -/
def State.cursor (s : State) : Point := ⟨s.fbr.cursorX.toInt, s.fbr.cursorY.toInt⟩

/-- The cursor moved right by a glyph's width, modulo 2^16 (45_fb_blit.md R275, R276). -/
def advanceCursor (w : BitVec 16) (s : State) : State :=
  { s with fbr := { s.fbr with cursorX := s.fbr.cursorX + w } }

/-- The effect of FB_DRAWCHAR on a running block: the glyph, then the cursor; after a fault the cursor is unchanged
(45_fb_blit.md R275). -/
def drawcharEffect (code : BitVec 8) (s : State) : State :=
  match fontGlyph s.params s.fbr.fontRef code with
  | none => enterFault .fbGlyphMissing Op.fbDrawchar.byte s
  | some g =>
    let t := blit .fbDrawchar s.cursor (glyphBitmap g) s
    if t.halted then t else advanceCursor g.w t

/-- FB_DRAWCHAR code (45_fb_blit.md R275). -/
def execFbDrawchar (code : BitVec 8) (s : State) : Host.Outcome State Fault Refusal :=
  .next (command (drawcharEffect code) s)

end Sys2Proof.Machine
end

