-- ==== Sys2Proof/Machine/Sequencer.lean ====
section
/-!
DEFINITION. The two agents of unit IRE (41_ir_sequencer.md): the generator with EMIT and its tick step, the expiry
step of each state of the state machine, the post-delay timer, and the tick of the whole block with the order of the
events at a boundary (20_memory.md R74).
-/
namespace Sys2Proof.Machine

/-! ## The generator -/

/-- EMIT(m, s) on the generator's own fields: mark first, or a pure space when m is 0 (41_ir_sequencer.md R141). -/
def genLoad (m sp : Word) : Gen :=
  if m = 0#32 then ⟨true, false, sp, m, sp⟩ else ⟨true, true, m, m, sp⟩

/-- EMIT(m, s): load the generator with one pair and count the pair's ticks in `elapsed` (41_ir_sequencer.md R141). -/
def emit (m sp : Word) (r : Ire) : Ire :=
  { r with
    gen := genLoad m sp
    ses := { r.ses with elapsed := r.ses.elapsed + m.setWidth 64 + sp.setWidth 64 } }

/-- TICK_GEN: the generator after one tick, and whether EXPIRY is due at the boundary that ends it
(41_ir_sequencer.md R142). -/
def tickGen (g : Gen) : Gen × Bool :=
  if g.active then
    if g.left - 1#32 = 0#32 then
      if g.phase then ({ g with phase := false, left := g.s }, false)
      else ({ g with active := false, left := 0#32 }, true)
    else ({ g with left := g.left - 1#32 }, false)
  else (g, false)

/-! ## Bits and pairs -/

/-- The position of the middle stop of the session's parameters. -/
def Session.ms (x : Session) : Nat := x.P.middleStopBit.toNat

/-- BIT(i), data bit i of the packet, least significant bit first within each word (41_ir_sequencer.md R144). DEDUCED
(log 19): a selector bit of pay1 is a data bit like any other where the length reaches it. -/
def dataBit (x : Session) (i : Nat) : Bool :=
  if 0 < x.ms ∧ x.ms ≤ i then x.pay2.getLsbD (i - x.ms) else x.pay1.getLsbD i

/-- EMIT_BIT(i): emit data bit i as its whole pair and count it (41_ir_sequencer.md R145). -/
def emitBit (i : Nat) (r : Ire) : Ire :=
  let r' :=
    if dataBit r.ses i then emit r.ses.P.oneHigh r.ses.P.oneLow r
    else emit r.ses.P.zeroHigh r.ses.P.zeroLow r
  { r' with ses := { r'.ses with n := BitVec.ofNat 7 (i + 1) } }

/-- Emit the stop pair, which is also the middle-stop pair (41_ir_sequencer.md R146). -/
def emitStop (r : Ire) : Ire := emit r.ses.P.zeroHigh r.ses.P.zeroLow r

/-- The unit with the state machine in state `q`. -/
def withState (q : IrState) (r : Ire) : Ire := { r with ses := { r.ses with state := q } }

/-! ## The expiry steps -/

/-- ENTER_COMPLETE(): the end of the transmission phase (41_ir_sequencer.md R153). -/
def enterComplete (r : Ire) : Ire :=
  if r.ses.postDelay = 0#32 then
    { r with ses := { r.ses with state := .complete, busy := false } }
  else
    { r with
      ses := { r.ses with state := .complete }
      post := ⟨true, r.ses.postDelay⟩ }

/-- BEGIN_REPEAT(): start the next transmission, a fast repeat or a full packet (41_ir_sequencer.md R157). -/
def beginRepeat (r : Ire) : Ire :=
  let r' := { r with ses := { r.ses with elapsed := 0#64, n := 0#7 } }
  if fastRepeats r.ses.P then withState .markTrailer (emit r.ses.P.repeatHigh r.ses.P.repeatLow r')
  else withState .start (emit r.ses.startMark r.ses.P.startLow r')

/-- Expiry in Start (41_ir_sequencer.md R151). -/
def expiryStart (r : Ire) : Ire := withState .firstWord (emitBit 0 r)

/-- Expiry in FirstWord (41_ir_sequencer.md R152). DEDUCED (log 19): all `L` bits of a SIRC-length packet are emitted,
the selector bits pay1[31:30] too where SIRC_LENGTH_MAP gives 31 or 32, against the aside of 40_ir_commands.md R127. -/
def expiryFirstWord (r : Ire) : Ire :=
  if 0 < r.ses.ms ∧ r.ses.n.toNat = r.ses.ms then withState .middleStop (emitStop r)
  else if r.ses.n = r.ses.L then withState .stop (emitStop r)
  else emitBit r.ses.n.toNat r

/-- Expiry in MiddleStop (41_ir_sequencer.md R154). -/
def expiryMiddleStop (r : Ire) : Ire := withState .secondWord (emitBit r.ses.n.toNat r)

/-- Expiry in SecondWord (41_ir_sequencer.md R155). -/
def expirySecondWord (r : Ire) : Ire :=
  if r.ses.n = r.ses.L then withState .stop (emitStop r) else emitBit r.ses.n.toNat r

/-- The gap that completes the repeat period, REPEAT_TIME - elapsed (41_ir_sequencer.md R156). -/
def repeatGap (x : Session) : Word := BitVec.ofNat 32 (x.P.repeatTime.toNat - x.elapsed.toNat)

/-- Expiry in Stop: one transmission is complete (41_ir_sequencer.md R156). -/
def expiryStop (r : Ire) : Ire :=
  let r' := { r with ses := { r.ses with rem := r.ses.rem - 1#32 } }
  if r'.ses.rem = 0#32 then enterComplete r'
  else if r'.ses.elapsed.toNat < r'.ses.P.repeatTime.toNat then
    withState .spaceTrailer (emit 0#32 (repeatGap r'.ses) r')
  else beginRepeat r'

/-- Expiry in SpaceTrailer: the gap has ended (41_ir_sequencer.md R157). -/
def expirySpaceTrailer (r : Ire) : Ire := beginRepeat r

/-- Expiry in MarkTrailer: the fast-repeat leader has ended (41_ir_sequencer.md R158). -/
def expiryMarkTrailer (r : Ire) : Ire := withState .stop (emitStop r)

/-- EXPIRY, one step of the state machine (41_ir_sequencer.md R150). In Initial and Complete it never occurs, and a
model that reaches it has broken an invariant (R159; log 8). -/
def expiry (r : Ire) : Except Fault Ire :=
  match r.ses.state with
  | .initial => .error .expiryInInitial
  | .start => .ok (expiryStart r)
  | .firstWord => .ok (expiryFirstWord r)
  | .middleStop => .ok (expiryMiddleStop r)
  | .secondWord => .ok (expirySecondWord r)
  | .stop => .ok (expiryStop r)
  | .spaceTrailer => .ok (expirySpaceTrailer r)
  | .markTrailer => .ok (expiryMarkTrailer r)
  | .complete => .error .expiryInComplete

/-! ## The post-delay timer -/

/-- TICK_POST: the timer after one tick, and whether POST_EXPIRY is due at the boundary that ends it
(41_ir_sequencer.md R160). -/
def tickPost (t : PostTimer) : PostTimer × Bool :=
  if t.active then ({ t with left := t.left - 1#32 }, decide (t.left - 1#32 = 0#32)) else (t, false)

/-- POST_EXPIRY: the quiet delay has ended (41_ir_sequencer.md R160). -/
def postExpiry (r : Ire) : Ire :=
  { r with post := { r.post with active := false }, ses := { r.ses with busy := false } }

/-! ## One tick -/

/-- One tick of unit IRE and the events of the boundary that ends it: the generator expiry first, then the post-delay
expiry (20_memory.md R74, 60_exceptions.md R311). -/
def tickIre (r : Ire) : Except Fault Ire :=
  let g := tickGen r.gen
  let p := tickPost r.post
  let r1 := { r with gen := g.1, post := p.1 }
  match (if g.2 then expiry r1 else .ok r1) with
  | .ok r2 => .ok (if p.2 then postExpiry r2 else r2)
  | .error e => .error e

/-- The host resets the block at the next boundary (70_reset_and_hazards.md R343; log 6). -/
def resetDue (s : State) : Bool :=
  match s.inbox with
  | [] => false
  | d :: _ => d.reset

/-- The next boundary begins: the host's reset, if it asks for one, and then its words on the port (20_memory.md
R74). -/
def nextBoundary (s : State) : State :=
  match s.inbox with
  | [] => { s with boundary := s.boundary + 1 }
  | d :: ds =>
    let s' := { s with boundary := s.boundary + 1, port := s.port ++ d.words, inbox := ds }
    if d.reset then resetBlock s' else s'

/-- One tick of the block, and the boundary that ends it. A reset leaves nothing of the tick (70_reset_and_hazards.md
R343). While the block is halted no tick step and no expiry takes place (60_exceptions.md R302). -/
def tick (s : State) : Host.Outcome State Fault Refusal :=
  if resetDue s || s.halted then .next (nextBoundary s)
  else
    match tickIre s.ire with
    | .ok r => .next (nextBoundary { s with ire := r })
    | .error e => .fault e

end Sys2Proof.Machine
end

