-- ==== Sys2Proof/Machine/IrCommands.lean ====
section
/-!
DEFINITION. The IRE commands (40_ir_commands.md): IR_SETP, IR_GETP, IR_SEND, IR_STATUS.
-/
namespace Sys2Proof.Machine

/-! ## IR_SETP -/

/-- The effect of IR_SETP on a running block (40_ir_commands.md R110, R111). -/
def setpEffect (idx : BitVec 8) (value : Word) (s : State) : State :=
  match ParamReg.ofIndex? idx with
  | none => enterFault .irBadRegister Op.irSetp.byte s
  | some r =>
    if r = .flags ∧ flagsReserved value ≠ 0#30 then enterFault .reservedBits Op.irSetp.byte s
    else { s with ire := { s.ire with staging := bankSet s.ire.staging r value } }

/-- IR_SETP idx, value (40_ir_commands.md R110 to R112). -/
def execIrSetp (idx : BitVec 8) (value : Word) (s : State) : Host.Outcome State Fault Refusal :=
  .next (command (setpEffect idx value) s)

/-! ## IR_GETP -/

/-- IR_GETP idx (40_ir_commands.md R113). -/
def execIrGetp (idx : BitVec 8) (s : State) : Host.Outcome State Fault Refusal :=
  .next (query .irBadRegister Op.irGetp.byte (irRead s.ire idx) s)

/-! ## IR_SEND -/

/-- The eight mark/space durations VALIDATE checks (40_ir_commands.md R120). -/
def durations (q : Bank) : List Word :=
  [q.startHigh, q.startLow, q.zeroHigh, q.zeroLow, q.oneHigh, q.oneLow, q.repeatHigh, q.repeatLow]

/-- The effective length before its check: the SIRC_LENGTH_MAP entry when PACKET_LENGTH is 0 (40_ir_commands.md
R121). -/
def effectiveLength (p : Params) (q : Bank) (p1 : Word) : Option Nat :=
  if q.packetLength = 0#32 then sircLength p.sircLengths (sircSelector p1)
  else some q.packetLength.toNat

/-- The checks of the length and the middle stop (40_ir_commands.md R120, R122). -/
def lengthError (len ms : Nat) : Option CfgErr :=
  if ms = 0 then
    if 32 < len then some .badLength else none
  else if 64 < len then some .badLength
  else if len ≤ ms ∨ 32 < ms ∨ 32 < len - ms then some .badMiddleStop
  else none

/-- VALIDATE(Q, p1): a configuration error, or the effective length and the start mark (40_ir_commands.md R120). -/
def validate (p : Params) (q : Bank) (p1 : Word) : Except CfgErr (Nat × Word) :=
  if q.carrierHz = 0#32 then .error .zeroCarrier
  else if 0#32 ∈ durations q then .error .zeroDuration
  else
    match effectiveLength p q p1 with
    | none => .error .badSelector
    | some len =>
      match lengthError len q.middleStopBit.toNat with
      | some e => .error e
      | none =>
        if variantSirc q then
          if sircStartMark p q len = 0#32 then .error .badStartMark
          else .ok (len, sircStartMark p q len)
        else .ok (len, q.startHigh)

/-- The effective number of transmissions (40_ir_commands.md R123). -/
def transmissions (q : Bank) (ovr : Word) : Word := if ovr = 0#32 then q.repeatCount else ovr

/-- Unit IRE as an accepted IR_SEND latches it, in state Initial (40_ir_commands.md R124). -/
def latchSend (p1 p2 pd ovr : Word) (len : Nat) (mark : Word) (r : Ire) : Ire :=
  { r with
    ses :=
      { P := r.staging
        state := .initial
        pay1 := p1
        pay2 := p2
        L := BitVec.ofNat 7 len
        n := 0#7
        R := transmissions r.staging ovr
        rem := transmissions r.staging ovr
        elapsed := 0#64
        startMark := mark
        postDelay := pd
        busy := true
        cfgErr := none }
    post := ⟨false, 0#32⟩ }

/-- The first transition of a session, inside IR_SEND: straight to Complete when there is nothing to send, else the
start pair (40_ir_commands.md R124, R127). -/
def startSession (r : Ire) : Ire :=
  if r.ses.R = 0#32 then enterComplete r
  else withState .start (emit r.ses.startMark r.ses.P.startLow r)

/-- `reject Cfg(e)`: write cfgErr and nothing else (40_ir_commands.md R125, 60_exceptions.md R306). -/
def rejectSend (e : CfgErr) (r : Ire) : Ire := { r with ses := { r.ses with cfgErr := some e } }

/-- The effect of IR_SEND on a running block (40_ir_commands.md R124 to R126). -/
def sendEffect (p1 p2 pd ovr : Word) (s : State) : State :=
  if s.ire.ses.busy then enterFault .irBusy Op.irSend.byte s
  else
    match validate s.params s.ire.staging p1 with
    | .error e => { s with ire := rejectSend e s.ire }
    | .ok (len, mark) => { s with ire := startSession (latchSend p1 p2 pd ovr len mark s.ire) }

/-- IR_SEND payload1, payload2, postDelay, repeatCountOverride (40_ir_commands.md R124). -/
def execIrSend (p1 p2 pd ovr : Word) (s : State) : Host.Outcome State Fault Refusal :=
  .next (command (sendEffect p1 p2 pd ovr) s)

/-! ## IR_STATUS -/

/-- IR_STATUS (40_ir_commands.md R130); it answers while the block is halted too (60_exceptions.md R303). -/
def execIrStatus (s : State) : Host.Outcome State Fault Refusal := .next (respond s.irStatusWord s)

end Sys2Proof.Machine
end

