-- ==== Sys2Proof/Machine/Dispatch.lean ====
section
/-!
DEFINITION. `exec`: one arm per command, each a call of the command's own meaning.
-/
namespace Sys2Proof.Machine

-- The effect of one command (30_encoding.md R85), taken from the port already.
def exec (i : Instr) (s : State) : Host.Outcome State Fault Refusal :=
  match i with
  | .irSetp idx value => Sys2Proof.Machine.execIrSetp idx value s
  | .irGetp idx => Sys2Proof.Machine.execIrGetp idx s
  | .irSend p1 p2 pd ovr => Sys2Proof.Machine.execIrSend p1 p2 pd ovr s
  | .irStatus => Sys2Proof.Machine.execIrStatus s
  | .fbSetscale v => Sys2Proof.Machine.execFbSetscale v s
  | .fbSetrotate v => Sys2Proof.Machine.execFbSetrotate v s
  | .fbSetmirror v => Sys2Proof.Machine.execFbSetmirror v s
  | .fbSetwritemode v => Sys2Proof.Machine.execFbSetwritemode v s
  | .fbSetcolour c => Sys2Proof.Machine.execFbSetcolour c s
  | .fbSetfont f => Sys2Proof.Machine.execFbSetfont f s
  | .fbClear c => Sys2Proof.Machine.execFbClear c s
  | .fbPaintpixel c p => Sys2Proof.Machine.execFbPaintpixel c p s
  | .fbDrawline a b => Sys2Proof.Machine.execFbDrawline a b s
  | .fbDrawrect a b => Sys2Proof.Machine.execFbDrawrect a b s
  | .fbDrawopenrect a b => Sys2Proof.Machine.execFbDrawopenrect a b s
  | .fbDrawcircle c r => Sys2Proof.Machine.execFbDrawcircle c r s
  | .fbDrawopencircle c r => Sys2Proof.Machine.execFbDrawopencircle c r s
  | .fbWriteimage o z a => Sys2Proof.Machine.execFbWriteimage o z a s
  | .fbMoveto p => Sys2Proof.Machine.execFbMoveto p s
  | .fbDrawchar code => Sys2Proof.Machine.execFbDrawchar code s
  | .fbReadb a => Sys2Proof.Machine.execFbReadb a s
  | .fbStatus => Sys2Proof.Machine.execFbStatus s
  | .fbGetcursor => Sys2Proof.Machine.execFbGetcursor s
  | .fbGetfont => Sys2Proof.Machine.execFbGetfont s
  | .fbGetsize => Sys2Proof.Machine.execFbGetsize s

end Sys2Proof.Machine
end

