-- ==== Sys2Proof/Machine/Step.lean ====
section
/-!
DEFINITION. One step of the block: one command of the present boundary while the port holds words (20_memory.md R73),
otherwise one tick (41_ir_sequencer.md R140).
-/
namespace Sys2Proof.Machine

/-- One step. A command is taken off the port with its argument words and executed; an undefined opcode and a reserved
bit fault (30_encoding.md R86, R87); a command cut off after its header is refused (70_reset_and_hazards.md R352;
log 7). With no word on the port, the next tick passes. -/
def step (s : State) : Host.Outcome State Fault Refusal :=
  match s.port with
  | [] => tick s
  | h :: ws =>
    match decode h ws with
    | .command i rest => exec i { s with port := rest }
    | .illegalOpcode op rest => .next (illegalOpcode op { s with port := rest })
    | .reservedBits op rest => .next (reservedBits op { s with port := rest })
    | .truncated op => .refused (.truncatedCommand op.byte)

/-- The state with one command, given as its bits in spec/opcode_table.json's numbering, in front of the port: the
host has just delivered it (log 17). -/
def State.withFetchWord (s : State) (nbits w : Nat) : State := { s with port := tableCommand nbits w ++ s.port }

end Sys2Proof.Machine
end

