-- ==== Sys2Proof/Safety.lean ====
section
/-!
DEFINITION. The terms in which claims about the block are made: what a painting command may change, bit by bit
(43_fb_pixel.md R211, R217, R225); the invariants of the block (41_ir_sequencer.md R165 and the register rules); and
the timing of a session (41_ir_sequencer.md R162 to R166).
-/
namespace Sys2Proof.Machine

/-! ## Painting -/

/-- What a mode does to one painted bit (43_fb_pixel.md R211): Write stores c, InverseWrite stores NOT c, Or sets the
bit when c is 1, Xor toggles it when c is 1, InverseAnd clears it when c is 1. -/
def combineBit (mode : WriteMode) (c : Colour) (old : Bool) : Bool :=
  match mode, c with
  | .write, .black => false
  | .write, .white => true
  | .inverseWrite, .black => true
  | .inverseWrite, .white => false
  | .or, .black => old
  | .or, .white => true
  | .xor, .black => old
  | .xor, .white => !old
  | .inverseAnd, .black => old
  | .inverseAnd, .white => false

/-- Physical pixel (px, py) lies in the block of canvas pixel (u, v) at scale k (43_fb_pixel.md R217). -/
def inBlock (k u v px py : Nat) : Prop :=
  u * k ≤ px ∧ px < (u + 1) * k ∧ v * k ≤ py ∧ py < (v + 1) * k

/-- A physical pixel of a frame buffer under the parameters of `s` (20_memory.md R61). -/
def State.pixelIn (s : State) (m : Memory) (px py : Nat) : Bool :=
  (bufByte s.bufStamp m (pixAddr s.params px py)).getLsbD (pixBit px)

/-- The buffer `m` is the buffer of `s` with the points of `S` painted, each in its colour, and nothing else changed.
`S p c` says that logical point `p` is painted in colour `c`. -/
structure Paints (s : State) (m : Memory) (S : Point → Colour → Prop) : Prop where
  /-- every physical pixel of a painted point's block is combined with the colour (43_fb_pixel.md R217, R220) -/
  painted : ∀ p c u v px py, S p c → s.mapPoint p = some (u, v) → inBlock s.fbr.scale.factor u v px py →
    s.pixelIn m px py = combineBit s.fbr.writeMode c (s.pixel px py)
  /-- every other bit of every byte, padding bits included, is unchanged (43_fb_pixel.md R210, 20_memory.md R63) -/
  others : ∀ a i, i < 8 →
    (∀ p c u v px py, S p c → s.mapPoint p = some (u, v) → inBlock s.fbr.scale.factor u v px py →
      ¬ (pixAddr s.params px py = a ∧ pixBit px = i)) →
    (bufByte s.bufStamp m a).getLsbD i = (s.readByte a).getLsbD i
  /-- every byte that is no byte of a painted point's block reads as before -/
  frame : ∀ a, (∀ p c u v, S p c → s.mapPoint p = some (u, v) → a ∉ s.blockAddrs u v) →
    bufByte s.bufStamp m a = s.readByte a

/-! ## The invariant -/

/-- The states in which a pair is being emitted (41_ir_sequencer.md R165). -/
def IrState.emitting : IrState → Bool
  | .initial => false
  | .start => true
  | .firstWord => true
  | .middleStop => true
  | .secondWord => true
  | .stop => true
  | .spaceTrailer => true
  | .markTrailer => true
  | .complete => false

/-- Every space duration of a parameter set is at least 1, so that every pair ends (40_ir_commands.md R120,
41_ir_sequencer.md R141). -/
def spacesOk (b : Bank) : Prop :=
  b.startLow ≠ 0 ∧ b.zeroLow ≠ 0 ∧ b.oneLow ≠ 0 ∧ b.repeatLow ≠ 0

/-- What holds of unit IRE at every boundary while the block is not halted: the invariants of 41_ir_sequencer.md R165
and the facts they rest on. -/
structure IreOk (r : Ire) : Prop where
  /-- R165: 0 ≤ n ≤ L ≤ 64 -/
  n_le : r.ses.n.toNat ≤ r.ses.L.toNat
  L_le : r.ses.L.toNat ≤ 64
  /-- 10_state.md R29: Initial is never visible -/
  not_initial : r.ses.state ≠ .initial
  /-- R165: a transmission state exactly when gen_active = 1 -/
  emitting_iff : r.ses.state.emitting = true ↔ r.gen.active = true
  /-- R165: in those states 1 ≤ rem ≤ R -/
  rem_pos : r.ses.state.emitting = true → 1 ≤ r.ses.rem.toNat
  rem_le : r.ses.state.emitting = true → r.ses.rem.toNat ≤ r.ses.R.toNat
  /-- R165: Complete and busy exactly when post_active = 1 -/
  quiet_iff : (r.ses.state = .complete ∧ r.ses.busy = true) ↔ r.post.active = true
  /-- R165: busy = 0 implies Complete -/
  idle : r.ses.busy = false → r.ses.state = .complete
  /-- a phase that is being emitted has ticks left, and so has the space after a mark -/
  left_pos : r.gen.active = true → r.gen.left ≠ 0 ∧ r.gen.s ≠ 0
  /-- a quiet delay that is running has ticks left -/
  post_pos : r.post.active = true → r.post.left ≠ 0
  /-- what VALIDATE made sure of for the session (40_ir_commands.md R120, 60_exceptions.md R307) -/
  spaces : r.ses.state.emitting = true → spacesOk r.ses.P
  L_pos : r.ses.state.emitting = true → 1 ≤ r.ses.L.toNat ∧ r.ses.ms < r.ses.L.toNat
  /-- 41_ir_sequencer.md R152, R154: word 1 ends at the middle stop -/
  first_word : r.ses.state = .firstWord → 0 < r.ses.ms → r.ses.n.toNat ≤ r.ses.ms
  middle_stop : r.ses.state = .middleStop → r.ses.n.toNat = r.ses.ms

/-- The invariant of the block, at every boundary. -/
structure Inv (s : State) : Prop where
  /-- the parameters meet their constraints (00_scope.md R7) -/
  params : s.params.wf = true
  /-- the frame buffer's memory is canonical and lies below BUF_SIZE (20_memory.md R60) -/
  sorted : Memory.wf s.fbr.buf = true
  below : memBelow (bufSize s.params) s.fbr.buf = true
  /-- FLAGS[31:2] is always 0 (40_ir_commands.md R111), in the bank and in its latched copy -/
  flags : flagsReserved s.ire.staging.flags = 0
  latchedFlags : flagsReserved s.ire.ses.P.flags = 0
  /-- a halted block emits nothing (10_state.md R35, 60_exceptions.md R302) -/
  halted_quiet : s.halted = true → s.ire.gen.active = false
  /-- a running block meets R165 -/
  running : s.halted = false → IreOk s.ire
  /-- the stamps of the free values used so far are below the next one (log 13) -/
  stamps : s.bufStamp < s.freeCtr

/-! ## Session timing, in ticks -/

/-- D_bit(i) (41_ir_sequencer.md R162). -/
def bitTicks (x : Session) (i : Nat) : Nat :=
  if dataBit x i then x.P.oneHigh.toNat + x.P.oneLow.toNat else x.P.zeroHigh.toNat + x.P.zeroLow.toNat

/-- The ticks of data bits 0 to k - 1 (41_ir_sequencer.md R162). -/
def bitsTicks (x : Session) (k : Nat) : Nat := ((List.range k).map (bitTicks x)).sum

/-- The ticks of the stop pair, which are those of the middle stop too (41_ir_sequencer.md R146). -/
def stopTicks (x : Session) : Nat := x.P.zeroHigh.toNat + x.P.zeroLow.toNat

/-- The ticks of the middle stop, none without one (41_ir_sequencer.md R162). -/
def middleTicks (x : Session) : Nat := if 0 < x.ms then stopTicks x else 0

/-- D_full (41_ir_sequencer.md R162). -/
def fullTicks (x : Session) : Nat :=
  x.startMark.toNat + x.P.startLow.toNat + bitsTicks x x.L.toNat + middleTicks x + stopTicks x

/-- D_fast (41_ir_sequencer.md R162). -/
def fastTicks (x : Session) : Nat := x.P.repeatHigh.toNat + x.P.repeatLow.toNat + stopTicks x

/-- The duration of every transmission of the session after the first, D_k for k ≥ 2 (41_ir_sequencer.md R163). -/
def laterTicks (x : Session) : Nat := if fastRepeats x.P then fastTicks x else fullTicks x

/-- The duration of the transmission in progress: the first, for which rem = R, is always a full packet
(41_ir_sequencer.md R163). -/
def currentTicks (x : Session) : Nat := if x.rem = x.R then fullTicks x else laterTicks x

/-- What `elapsed` counts in each state: the ticks of the pairs emitted since the transmission began, the current one
included (10_state.md R28). -/
def elapsedTicks (x : Session) : Nat :=
  match x.state with
  | .initial => 0
  | .start => x.startMark.toNat + x.P.startLow.toNat
  | .firstWord => x.startMark.toNat + x.P.startLow.toNat + bitsTicks x x.n.toNat
  | .middleStop => x.startMark.toNat + x.P.startLow.toNat + bitsTicks x x.n.toNat + middleTicks x
  | .secondWord => x.startMark.toNat + x.P.startLow.toNat + bitsTicks x x.n.toNat + middleTicks x
  | .stop => currentTicks x
  | .spaceTrailer => x.P.repeatTime.toNat
  | .markTrailer => x.P.repeatHigh.toNat + x.P.repeatLow.toNat
  | .complete => x.elapsed.toNat

/-- A session on its schedule: `elapsed` counts the pairs of the transmission, a fast repeat is never the first
transmission, and the words of a packet follow each other as 41_ir_sequencer.md R152 to R155 say. -/
structure OnTime (x : Session) : Prop where
  elapsed_eq : x.elapsed.toNat = elapsedTicks x
  full : x.state = .start ∨ x.state = .firstWord ∨ x.state = .middleStop ∨ x.state = .secondWord →
    fastRepeats x.P = true → x.rem = x.R
  fast : x.state = .markTrailer → fastRepeats x.P = true ∧ x.rem ≠ x.R
  gap : x.state = .spaceTrailer → x.rem ≠ x.R
  second : x.state = .secondWord ∨ x.state = .middleStop → 0 < x.ms

/-- The ticks from the end of a transmission of duration `d` to Complete, when `k` transmissions follow it: the gap
that fills the repeat period, and the later transmissions at start-to-start distance max(REPEAT_TIME, D)
(41_ir_sequencer.md R163). -/
def followingTicks (x : Session) (d : Nat) : Nat → Nat
  | 0 => 0
  | k + 1 => (x.P.repeatTime.toNat - d) + k * max x.P.repeatTime.toNat (laterTicks x) + laterTicks x

/-- The ticks of a whole session of `k` transmissions, from its acceptance to Complete: Tc - T0 of 41_ir_sequencer.md
R163. -/
def sessionTicks (x : Session) : Nat → Nat
  | 0 => 0
  | k + 1 => fullTicks x + followingTicks x (fullTicks x) k

/-- The ticks left in the pair that is being emitted. -/
def pairTicksLeft (g : Gen) : Nat :=
  if g.active then (if g.phase then g.left.toNat + g.s.toNat else g.left.toNat) else 0

/-- The ticks until busy clears, if nothing stops the session: the rest of the pair, of the transmission, of the
session, and the quiet delay (41_ir_sequencer.md R160, R163). -/
def busyTicksLeft (r : Ire) : Nat :=
  match r.ses.state with
  | .initial => 0
  | .complete => if r.post.active then r.post.left.toNat else 0
  | .spaceTrailer =>
    pairTicksLeft r.gen + (r.ses.rem.toNat - 1) * max r.ses.P.repeatTime.toNat (laterTicks r.ses) +
      laterTicks r.ses + r.ses.postDelay.toNat
  | .start | .firstWord | .middleStop | .secondWord | .stop | .markTrailer =>
    pairTicksLeft r.gen + (currentTicks r.ses - r.ses.elapsed.toNat) +
      followingTicks r.ses (currentTicks r.ses) (r.ses.rem.toNat - 1) + r.ses.postDelay.toNat

end Sys2Proof.Machine
end

