-- ==== Sys2Proof/Certificates/Slice0/Obligations.lean ====
section
/-!
DEFINITION. What is claimed of the block, as propositions for the provers. `s.halted = false` says that the block of
`s` runs; every claim about a command says what becomes of the whole state.
-/

open Sys2Proof Sys2Proof.Machine

/-! ## Encoding and the port -/

/-- Decoding the words of a well-formed command gives the command back, with whatever follows it on the port: no bit of
an operand is dropped (30_encoding.md R80 to R86). -/
def Obligations.DecodeEncodeRoundTrip : Prop :=
  ∀ (i : Instr) (rest : List Word), i.wellFormed = true → decode i.header (i.args ++ rest) = .command i rest

/-- Words that decode to a command are the words of that command, which is well-formed: no two word sequences stand
for one command (30_encoding.md R80 to R86). -/
def Obligations.DecodedCommandReencodes : Prop :=
  ∀ (h : Word) (ws rest : List Word) (i : Instr), decode h ws = .command i rest →
    encode i ++ rest = h :: ws ∧ i.wellFormed = true

/-- Words the spec writes out decode to the commands it writes beside them (40_ir_commands.md R110, 42_fb_config.md
R180 to R191, 43_fb_pixel.md R230, 45_fb_blit.md R274, R275, 60_exceptions.md R304, 95_test_vectors.md). -/
def Obligations.DecodesWordsOfTheSpec : Prop :=
  decode 0x01000004#32 [1#32] = .command (.irSetp 0x04#8 1#32) [] ∧
  decode 0x02000025#32 [] = .command (.irGetp 0x25#8) [] ∧
  decode 0x03000000#32 [0xA5#32, 0#32, 0x0A#32, 1#32] = .command (.irSend 0xA5#32 0#32 10#32 1#32) [] ∧
  decode 0x10000002#32 [] = .command (.fbSetscale 2#8) [] ∧
  decode 0x11000002#32 [] = .command (.fbSetrotate .rotate180) [] ∧
  decode 0x12000001#32 [] = .command (.fbSetmirror .x) [] ∧
  decode 0x13000003#32 [] = .command (.fbSetwritemode 3#3) [] ∧
  decode 0x16000001#32 [] = .command (.fbClear .white) [] ∧
  decode 0x17000001#32 [0x00030009#32] = .command (.fbPaintpixel .white ⟨9, 3⟩) [] ∧
  decode 0x18000000#32 [0#32, 0x00020005#32] = .command (.fbDrawline ⟨0, 0⟩ ⟨5, 2⟩) [] ∧
  decode 0x1B000000#32 [0x0004000C#32, 2#32] = .command (.fbDrawcircle ⟨12, 4⟩ 2) [] ∧
  decode 0x1D000000#32 [0x00010002#32, 0x00020003#32, 0#32] = .command (.fbWriteimage ⟨2, 1⟩ ⟨3, 2⟩ 0#32) [] ∧
  decode 0x1E000000#32 [0x0002FFFF#32] = .command (.fbMoveto ⟨-1, 2⟩) [] ∧
  decode 0x1F000041#32 [] = .command (.fbDrawchar 0x41#8) [] ∧
  decode 0x10000103#32 [] = .reservedBits .fbSetscale [] ∧
  decode 0x1B000000#32 [0x00030004#32, 0x00010002#32] = .reservedBits .fbDrawcircle [] ∧
  decode 0x05000000#32 [] = .illegalOpcode 0x05#8 []

/-- When the next words of the port decode to a command, one step takes exactly its words off the port and is `exec` of
the command (20_memory.md R73, 30_encoding.md R80). -/
def Obligations.StepRunsDecodedCommand : Prop :=
  ∀ (s : State) (h : Word) (ws rest : List Word) (i : Instr), s.port = h :: ws → decode h ws = .command i rest →
    step s = exec i { s with port := rest }

/-- The model's own device `State.withFetchWord`, which stands for the host's delivery of one command, given as bits in
the numbering of spec/opcode_table.json (log 17, no rule of the spec): a command placed by it in front of the port runs
in the very next step, and leaves the rest of the port as it was. -/
def Obligations.PlacedCommandRunsNext : Prop :=
  ∀ (s : State) (nbits w : Nat) (i : Instr), decodeTableWord nbits w = some i →
    step (s.withFetchWord nbits w) = exec i s

/-- 30_encoding.md R87: an undefined opcode faults with ILLEGAL_OPCODE; which opcodes are undefined; and no argument
word is consumed. -/
def Obligations.UndefinedOpcodeFaults : Prop :=
  (∀ (s : State) (h : Word) (ws : List Word), s.halted = false → s.port = h :: ws →
    ((opcodeField h).toNat = 0 ∨ (0x05 ≤ (opcodeField h).toNat ∧ (opcodeField h).toNat ≤ 0x0F) ∨
      0x25 ≤ (opcodeField h).toNat) →
    step s = .next (enterFault .illegalOpcode (opcodeField h) { s with port := ws })) ∧
  ∀ b : BitVec 8, (1 ≤ b.toNat ∧ b.toNat ≤ 4) ∨ (0x10 ≤ b.toNat ∧ b.toNat ≤ 0x24) →
    ∃ op, Op.ofByte? b = some op ∧ op.byte = b

/-- 30_encoding.md R86: a 1 in a reserved bit of `imm`, or in the high half of a RADIUS word, faults with
RESERVED_BITS before any effect; no other argument word has reserved bits. That the argument words of the command leave
the port with it (log 9), and that a faulting query returns no response word (log 14), are the model's inferences. -/
def Obligations.ReservedBitsFault : Prop :=
  ∀ (s : State) (h : Word) (ws : List Word) (op : Op), s.halted = false → s.port = h :: ws →
    Op.ofByte? (opcodeField h) = some op → op.argc ≤ ws.length →
    ((2 ^ op.immForm.width ≤ (immField h).toNat ∨
        ((op = .fbDrawcircle ∨ op = .fbDrawopencircle) ∧ hiHalf (arg ws 1) ≠ 0#16) →
      step s = .next (enterFault .reservedBits op.byte { s with port := ws.drop op.argc })) ∧
     (¬ (2 ^ op.immForm.width ≤ (immField h).toNat ∨
        ((op = .fbDrawcircle ∨ op = .fbDrawopencircle) ∧ hiHalf (arg ws 1) ≠ 0#16)) →
      ∃ i, decode h ws = .command i (ws.drop op.argc) ∧ i.op = op))

/-! ## The halted block and reset -/

/-- While the block is halted, every command that is no query is ignored, and so are an undefined opcode and a
command that is no query with a reserved bit set: nothing changes but the port (60_exceptions.md R303). -/
def Obligations.HaltedBlockIgnoresCommands : Prop :=
  (∀ (s : State) (i : Instr), s.halted = true → i.op.isQuery = false → exec i s = .next s) ∧
  ∀ (s : State) (h : Word) (ws rest : List Word), s.halted = true → s.port = h :: ws →
    ((∃ o, decode h ws = .illegalOpcode o rest) ∨
      (∃ op, decode h ws = .reservedBits op rest ∧ op.isQuery = false)) →
    step s = .next { s with port := rest }

/-- While the block is halted, every query still responds and changes nothing; a query that would fault returns 0
(60_exceptions.md R303). What the word is where the query has one is said by each query's own statement. -/
def Obligations.HaltedBlockAnswersQueries : Prop :=
  (∀ (s : State) (i : Instr), s.halted = true → i.op.isQuery = true →
    ∃ w, exec i s = .next { s with outbox := s.outbox ++ [w] }) ∧
  (∀ (s : State) (idx : BitVec 8), s.halted = true →
    ((0x0E ≤ idx.toNat ∧ idx.toNat ≤ 0x1F) ∨ 0x3E ≤ idx.toNat) →
    exec (.irGetp idx) s = .next { s with outbox := s.outbox ++ [0#32] }) ∧
  (∀ (s : State) (a : Word), s.halted = true → bufSize s.params ≤ a.toNat →
    exec (.fbReadb a) s = .next { s with outbox := s.outbox ++ [0#32] }) ∧
  ∀ (s : State) (h : Word) (ws rest : List Word) (op : Op), s.halted = true → s.port = h :: ws →
    decode h ws = .reservedBits op rest → op.isQuery = true →
    step s = .next { s with port := rest, outbox := s.outbox ++ [0#32] }

/-- No step leaves the halted condition but the host's reset: FAULT holds the first fault, and unit IRE, unit FBR and
the output pin stand still (60_exceptions.md R302, R303, R313). -/
def Obligations.FaultStaysUntilReset : Prop :=
  ∀ (s t : State), s.halted = true → step s = .next t → (s.port ≠ [] ∨ resetDue s = false) →
    t.fault = s.fault ∧ t.ire = s.ire ∧ t.fbr = s.fbr ∧ t.irEnv = s.irEnv

/-- When the host resets the block at the next boundary, the tick leaves every field of the block at its reset value at
boundary 0, whatever the block was doing and halted or not, and the parameters as they are (70_reset_and_hazards.md
R340, R341, R343). That the reset falls on a boundary, what becomes of the words on the port and of the host's record of
responses, and the stamps, are the model's choices (log 6, log 13). -/
def Obligations.HostResetRestoresResetState : Prop :=
  ∀ (s : State) (d : Delivery) (ds : List Delivery), s.port = [] → s.inbox = d :: ds → d.reset = true →
    step s = .next
      { fault := State.reset.fault, ire := State.reset.ire, fbr := State.reset.fbr, params := s.params,
        boundary := 0, port := d.words, inbox := ds, outbox := s.outbox,
        freeCtr := s.freeCtr + 1, bufStamp := s.freeCtr }

/-- The reset values of 70_reset_and_hazards.md R340, and the two status words it gives for them. -/
def Obligations.ResetValues : Prop :=
  State.reset.fault.word = 0#32 ∧ State.reset.halted = false ∧ State.reset.boundary = 0 ∧
  (∀ r, bankGet State.reset.ire.staging r = 0#32 ∧ bankGet State.reset.ire.ses.P r = 0#32) ∧
  State.reset.ire.ses.state.code = 8#4 ∧
  State.reset.ire.ses.pay1 = 0#32 ∧ State.reset.ire.ses.pay2 = 0#32 ∧ State.reset.ire.ses.L = 0#7 ∧
  State.reset.ire.ses.n = 0#7 ∧ State.reset.ire.ses.R = 0#32 ∧ State.reset.ire.ses.rem = 0#32 ∧
  State.reset.ire.ses.elapsed = 0#64 ∧ State.reset.ire.ses.startMark = 0#32 ∧
  State.reset.ire.ses.postDelay = 0#32 ∧ State.reset.ire.ses.busy = false ∧ State.reset.ire.ses.cfgErrByte = 0#8 ∧
  State.reset.ire.gen = ⟨false, false, 0#32, 0#32, 0#32⟩ ∧ State.reset.ire.post = ⟨false, 0#32⟩ ∧
  State.reset.irEnv = false ∧
  State.reset.fbr.scale.factor = 1 ∧ State.reset.fbr.rotation = .rotate0 ∧ State.reset.fbr.mirror = .none ∧
  State.reset.fbr.writeMode = .write ∧ State.reset.fbr.colour = .white ∧ State.reset.fbr.fontRef = 0#16 ∧
  State.reset.fbr.cursorX = 0#16 ∧ State.reset.fbr.cursorY = 0#16 ∧
  exec .irStatus State.reset = .next { State.reset with outbox := [0x00000010#32] } ∧
  exec .fbStatus State.reset = .next { State.reset with outbox := [0x00040100#32] }

/-! ## Invariants and progress -/

/-- The state after reset meets the invariant, and its session is on its schedule. Some clauses are the model's own: the
canonical memory (log 4), the order of the stamps, which rests on their reset values 0 and 1 (log 13), and the
constraints of the parameters, which rest on the reset values of the parameters (log 1, log 3). -/
def Obligations.ResetMeetsInvariant : Prop := Inv State.reset ∧ OnTime State.reset.ire.ses

/-- Every step keeps the invariant: the parameters' constraints, the frame buffer's memory canonical (the model's form,
log 4) and below BUF_SIZE, FLAGS[31:2] = 0, a halted block that emits nothing, and, while the block runs, the invariants
of 41_ir_sequencer.md R165 with the facts they rest on; and the model's own stamps in order (log 13). -/
def Obligations.StepKeepsInvariant : Prop := ∀ s t : State, Inv s → step s = .next t → Inv t

/-- Every step of a running block keeps the session on its schedule: `elapsed` counts exactly the pairs of the
transmission, so it never overflows; with FAST_REPEATS a full packet is the first transmission and a fast repeat is
not; a gap is never the first transmission; and a middle stop or a second word needs a middle-stop position
(41_ir_sequencer.md R150 to R158, R166). -/
def Obligations.StepKeepsSchedule : Prop :=
  ∀ s t : State, Inv s → (s.halted = false → OnTime s.ire.ses) → step s = .next t →
    t.halted = false → OnTime t.ire.ses

/-- A step from a state that meets the invariant answers a next state, unless the port holds a header without all of
its argument words: the model never stops with a fault (41_ir_sequencer.md R159), and it refuses only what
70_reset_and_hazards.md R352 leaves undefined. -/
def Obligations.InvariantStepAnswersNext : Prop :=
  ∀ s : State, Inv s →
    (∃ t, step s = .next t) ∨
    (∃ h ws op, s.port = h :: ws ∧ Op.ofByte? (opcodeField h) = some op ∧ ws.length < op.argc ∧
      step s = .refused (.truncatedCommand op.byte))

/-- The time to the end of the busy period is exact: it is 0 exactly when `busy` is 0, and every tick takes exactly one
from it, while the host is silent at that boundary's port (41_ir_sequencer.md R160, R163). -/
def Obligations.BusyTicksCountDown : Prop :=
  ∀ s : State, Inv s → s.halted = false → OnTime s.ire.ses →
    (busyTicksLeft s.ire = 0 ↔ s.ire.ses.busy = false) ∧
    (s.port = [] → resetDue s = false → s.ire.ses.busy = true →
      ∃ t, step s = .next t ∧ t.halted = false ∧ busyTicksLeft t.ire + 1 = busyTicksLeft s.ire)

/-- 41_ir_sequencer.md R163: a session accepted by IR_SEND, with a host that then stays silent, is busy for exactly
Tc - T0 + postDelay ticks, where Tc - T0 is the sum of the start-to-start distances max(REPEAT_TIME, D_k) and of the
last transmission's duration; then the state is Complete and the pin is inactive. -/
def Obligations.SilentSessionLastsItsTicks : Prop :=
  ∀ (s t : State) (p1 p2 pd ovr : Word), Inv s → s.halted = false → s.port = [] → s.inbox = [] →
    exec (.irSend p1 p2 pd ovr) s = .next t → t.halted = false → t.ire.ses.cfgErr = none →
    (∀ k, k < sessionTicks t.ire.ses t.ire.ses.R.toNat + pd.toNat →
      ∃ u, core.run k t = .next u ∧ State.boundary u = s.boundary + k ∧ (State.ire u).ses.busy = true) ∧
    ∃ u, core.run (sessionTicks t.ire.ses t.ire.ses.R.toNat + pd.toNat) t = .next u ∧
      State.boundary u = s.boundary + (sessionTicks t.ire.ses t.ire.ses.R.toNat + pd.toNat) ∧
      (State.ire u).ses.busy = false ∧ (State.ire u).ses.state = .complete ∧ State.irEnv u = false

/-- No step writes the parameters (00_scope.md R7, 10_state.md R40, 20_memory.md R65, 45_fb_blit.md R277). And the
outbox, the model's record of the responses (log 5), only grows, through a host reset too (log 6): that clause is the
model's choice. -/
def Obligations.StepKeepsParameters : Prop :=
  ∀ s t : State, step s = .next t → t.params = s.params ∧ ∃ ws, t.outbox = s.outbox ++ ws

/-- The units share no state but the port and FAULT (60_exceptions.md R319): a command of one unit never writes state
of the other, but for the generator a fault stops, and what it does to its own unit and answers does not depend on the
other's state. -/
def Obligations.UnitsShareNoState : Prop :=
  ∀ (i : Instr) (s t : State), exec i s = .next t →
    ((i.op = .irSetp ∨ i.op = .irGetp ∨ i.op = .irSend ∨ i.op = .irStatus) →
      t.fbr = s.fbr ∧ t.freeCtr = s.freeCtr ∧
      ∀ f, exec i { s with fbr := f } = .next { t with fbr := f }) ∧
    (¬ (i.op = .irSetp ∨ i.op = .irGetp ∨ i.op = .irSend ∨ i.op = .irStatus) →
      (t.halted = s.halted → t.ire = s.ire) ∧
      (t.halted ≠ s.halted → t.ire = { s.ire with gen := { s.ire.gen with active := false } }) ∧
      ∀ r, ∃ t', exec i { s with ire := r } = .next t' ∧ t'.fbr = t.fbr ∧ t'.fault = t.fault ∧
        t'.outbox = t.outbox)

/-! ## IRE commands -/

/-- IR_SETP writes exactly the named staging register of a running block, busy or not, and nothing else: the session
above all is untouched (40_ir_commands.md R110, R112, 10_state.md R26). -/
def Obligations.SetpWritesOneRegister : Prop :=
  ∀ (s : State) (r : ParamReg) (v : Word), s.halted = false → (r = .flags → flagsReserved v = 0#30) →
    ∃ b, exec (.irSetp r.index v) s = .next { s with ire := { s.ire with staging := b } } ∧
      ∀ q, bankGet b q = if q = r then v else bankGet s.ire.staging q

/-- IR_SETP faults with IR_BAD_REGISTER at an index outside 0x00 to 0x0D (40_ir_commands.md R110), and with
RESERVED_BITS when FLAGS would get a 1 in bits [31:2] (R111); no register is written. -/
def Obligations.SetpFaults : Prop :=
  ∀ (s : State) (idx : BitVec 8) (v : Word), s.halted = false →
    (0x0D < idx.toNat → exec (.irSetp idx v) s = .next (enterFault .irBadRegister 0x01#8 s)) ∧
    (idx = 0x0D#8 → flagsReserved v ≠ 0#30 → exec (.irSetp idx v) s = .next (enterFault .reservedBits 0x01#8 s))

/-- IR_GETP answers the staging register, the session register or the latched register of its index, halted or not, and
changes nothing else (40_ir_commands.md R113, 10_state.md R24, R36); at any other index a running block faults
(60_exceptions.md R302). That the faulting query returns no response word is the model's inference (log 14). -/
def Obligations.GetpReadsEveryRegister : Prop :=
  ∀ s : State,
    (∀ r : ParamReg, exec (.irGetp r.index) s = .next { s with outbox := s.outbox ++ [bankGet s.ire.staging r] } ∧
      exec (.irGetp (0x30#8 + r.index)) s = .next { s with outbox := s.outbox ++ [bankGet s.ire.ses.P r] }) ∧
    (∀ q ∈
      [(0x20#8, s.ire.ses.state.code.setWidth 32), (0x21#8, s.ire.ses.n.setWidth 32),
       (0x22#8, s.ire.ses.L.setWidth 32), (0x23#8, s.ire.ses.R), (0x24#8, s.ire.ses.rem),
       (0x25#8, s.ire.ses.elapsed.extractLsb' 0 32), (0x26#8, s.ire.ses.elapsed.extractLsb' 32 32),
       (0x27#8, s.ire.ses.pay1), (0x28#8, s.ire.ses.pay2), (0x29#8, s.ire.ses.postDelay),
       (0x2A#8, s.ire.post.left), (0x2B#8, s.ire.ses.startMark), (0x2C#8, s.ire.gen.m), (0x2D#8, s.ire.gen.s),
       (0x2E#8, BitVec.ofNat 32 (2 * s.ire.gen.phase.toNat + s.ire.gen.active.toNat)), (0x2F#8, s.ire.gen.left)],
      exec (.irGetp q.1) s = .next { s with outbox := s.outbox ++ [q.2] }) ∧
    (∀ idx : BitVec 8, s.halted = false → ((0x0E ≤ idx.toNat ∧ idx.toNat ≤ 0x1F) ∨ 0x3E ≤ idx.toNat) →
      exec (.irGetp idx) s = .next (enterFault .irBadRegister 0x02#8 s))

/-- An accepted IR_SEND latches the staging bank and its operands, and starts the session: with R ≥ 1 it emits the
start pair at once, with R = 0 it goes straight to Complete, where `busy` stays set exactly for a quiet delay above 0.
Nothing outside the session, the generator and the post-delay timer changes (40_ir_commands.md R123, R124, R127). -/
def Obligations.SendAcceptedStartsSession : Prop :=
  ∀ (s : State) (p1 p2 pd ovr mark total : Word) (len : Nat), s.halted = false → s.ire.ses.busy = false →
    validate s.params s.ire.staging p1 = .ok (len, mark) →
    (ovr ≠ 0#32 → total = ovr) → (ovr = 0#32 → total = s.ire.staging.repeatCount) →
    (total ≠ 0#32 → exec (.irSend p1 p2 pd ovr) s = .next
      { s with
        ire :=
          { staging := s.ire.staging
            ses :=
              { P := s.ire.staging, state := .start, pay1 := p1, pay2 := p2, L := BitVec.ofNat 7 len, n := 0#7,
                R := total, rem := total,
                elapsed := BitVec.ofNat 64 (mark.toNat + s.ire.staging.startLow.toNat),
                startMark := mark, postDelay := pd, busy := true, cfgErr := none }
            gen := ⟨true, true, mark, mark, s.ire.staging.startLow⟩
            post := ⟨false, 0#32⟩ } }) ∧
    (total = 0#32 → exec (.irSend p1 p2 pd ovr) s = .next
      { s with
        ire :=
          { s.ire with
            ses :=
              { P := s.ire.staging, state := .complete, pay1 := p1, pay2 := p2, L := BitVec.ofNat 7 len, n := 0#7,
                R := 0#32, rem := 0#32, elapsed := 0#64,
                startMark := mark, postDelay := pd, busy := decide (pd ≠ 0#32), cfgErr := none }
            post := ⟨decide (pd ≠ 0#32), pd⟩ } })

/-- VALIDATE accepts exactly the parameter sets 40_ir_commands.md R120 to R122 accept, with their length and start mark:
a carrier, eight durations that are not 0, a length that is consistent with the payload bits, and a start mark that is
not 0. -/
def Obligations.ValidateAcceptsExactly : Prop :=
  ∀ (p : Params) (q : Bank) (p1 mark : Word) (len : Nat),
    validate p q p1 = .ok (len, mark) ↔
      (q.carrierHz ≠ 0 ∧ q.startHigh ≠ 0 ∧ q.startLow ≠ 0 ∧ q.zeroHigh ≠ 0 ∧ q.zeroLow ≠ 0 ∧ q.oneHigh ≠ 0 ∧
        q.oneLow ≠ 0 ∧ q.repeatHigh ≠ 0 ∧ q.repeatLow ≠ 0) ∧
      (q.packetLength ≠ 0 → len = q.packetLength.toNat) ∧
      (q.packetLength = 0 → sircLength p.sircLengths (p1.extractLsb' 30 2) = some len) ∧
      (q.middleStopBit = 0 → len ≤ 32) ∧
      (q.middleStopBit ≠ 0 → q.middleStopBit.toNat < len ∧ q.middleStopBit.toNat ≤ 32 ∧
        len - q.middleStopBit.toNat ≤ 32) ∧
      (q.flags.getLsbD 1 = true → mark = sircStartMark p q len) ∧
      (q.flags.getLsbD 1 = false → mark = q.startHigh) ∧ mark ≠ 0

/-- VALIDATE's error codes in the order of its checks, codes 1, 2, 4, 3, 5, 6 (40_ir_commands.md R120,
60_exceptions.md R305). -/
def Obligations.ValidateErrorsInOrder : Prop :=
  ∀ (p : Params) (q : Bank) (p1 : Word) (e : CfgErr), validate p q p1 = .error e ↔
    (e.byte = 1 ∧ q.carrierHz = 0) ∨
    (q.carrierHz ≠ 0 ∧
      ((e.byte = 2 ∧ 0 ∈ durations q) ∨
       (0 ∉ durations q ∧
        ((e.byte = 4 ∧ effectiveLength p q p1 = none) ∨
         ∃ len, effectiveLength p q p1 = some len ∧
          ((e.byte = 3 ∧ ((q.middleStopBit = 0 ∧ 32 < len) ∨ (q.middleStopBit ≠ 0 ∧ 64 < len))) ∨
           (e.byte = 5 ∧ q.middleStopBit ≠ 0 ∧ len ≤ 64 ∧
             (len ≤ q.middleStopBit.toNat ∨ 32 < q.middleStopBit.toNat ∨ 32 < len - q.middleStopBit.toNat)) ∨
           (e.byte = 6 ∧ lengthError len q.middleStopBit.toNat = none ∧ q.flags.getLsbD 1 = true ∧
             sircStartMark p q len = 0))))))

/-- 40_ir_commands.md R125: a refused IR_SEND writes cfgErr and nothing else. -/
def Obligations.SendRefusedWritesOnlyCfgErr : Prop :=
  ∀ (s : State) (p1 p2 pd ovr : Word) (e : CfgErr), s.halted = false → s.ire.ses.busy = false →
    validate s.params s.ire.staging p1 = .error e →
    exec (.irSend p1 p2 pd ovr) s = .next { s with ire := { s.ire with ses := { s.ire.ses with cfgErr := some e } } }

/-- 40_ir_commands.md R126: an IR_SEND while `busy` is 1, in a transmission or in the quiet delay, faults with IR_BUSY
and does not change the session. -/
def Obligations.SendWhileBusyFaults : Prop :=
  ∀ (s : State) (p1 p2 pd ovr : Word), s.halted = false → s.ire.ses.busy = true →
    exec (.irSend p1 p2 pd ovr) s = .next
      { s with
        fault := ⟨some .irBusy, 0x03#8⟩
        ire := { s.ire with gen := { s.ire.gen with active := false } } }

/-- IR_STATUS answers the word of 30_encoding.md R93, halted or not, and changes nothing else (40_ir_commands.md
R130). -/
def Obligations.IrStatusAnswersWord : Prop :=
  ∀ s : State, ∃ w, exec .irStatus s = .next { s with outbox := s.outbox ++ [w] } ∧
    w.getLsbD 0 = s.ire.ses.busy ∧ w.extractLsb' 1 4 = s.ire.ses.state.code ∧
    w.getLsbD 5 = s.ire.gen.active ∧ w.getLsbD 6 = (s.ire.gen.active && s.ire.gen.phase) ∧
    w.getLsbD 7 = s.ire.post.active ∧ w.extractLsb' 8 8 = s.ire.ses.cfgErrByte ∧
    w.extractLsb' 16 8 = s.fault.codeByte ∧ w.extractLsb' 24 8 = 0#8

/-! ## IRE events -/

/-- A pair (m, s) loaded by EMIT is a mark of m ticks and then a space of s ticks, and its expiry falls due with the
last of them and not before (41_ir_sequencer.md R141 to R143). The pin IR_OUT is inactive exactly while IR_ENV is 0,
which is outside a mark of the active generator, and otherwise carries the carrier of P.CARRIER_HZ (10_state.md R34);
which level the carrier has inside a tick is free (log 12). -/
def Obligations.PairLastsItsTicks : Prop :=
  (∀ (r : Ire) (m sp : Word) (j : Nat), sp ≠ 0#32 → j < m.toNat + sp.toNat →
    (((fun g => (tickGen g).1)^[j] (emit m sp r).gen).env = decide (j < m.toNat)) ∧
    ((tickGen ((fun g => (tickGen g).1)^[j] (emit m sp r).gen)).2 = decide (j + 1 = m.toNat + sp.toNat))) ∧
  ∀ (s : State) (ns : Nat),
    (s.irEnv = true ↔ s.ire.gen.active = true ∧ s.ire.gen.phase = true) ∧
    (s.irOut ns = .inactive ↔ s.irEnv = false) ∧
    (s.irEnv = true → ∃ level, s.irOut ns = .carrier s.ire.ses.P.carrierHz level)

/-- What one tick of the block does, whole. With no word on the port and no reset, a running block's generator stands
still when idle, else counts down, goes from the mark to the space, or at the last tick of the space stops and steps the
state machine; the post-delay timer stands still when idle, else counts down, and at its last tick clears `busy`, after
the generator's expiry; and nothing else changes but the boundary's number and the host's words, which come after the
events. A halted block's tick changes only these (20_memory.md R74, 41_ir_sequencer.md R142, R150, R160, 60_exceptions.md
R302). That a boundary's words stand in `inbox` and then in `port` (log 5), that a reset lands on a boundary (log 6), and
that boundaries go on being counted on a halted block (log 15) are the model's. -/
def Obligations.GeneratorExpiryStepsMachine : Prop :=
  (∀ (s : State) (g : Gen) (p : PostTimer) (genDue postDue : Bool) (r : Ire),
    s.halted = false → s.port = [] → resetDue s = false →
    (s.ire.gen.active = false → g = s.ire.gen ∧ genDue = false) →
    (s.ire.gen.active = true → s.ire.gen.left ≠ 1#32 →
      g = { s.ire.gen with left := s.ire.gen.left - 1#32 } ∧ genDue = false) →
    (s.ire.gen.active = true → s.ire.gen.left = 1#32 → s.ire.gen.phase = true →
      g = { s.ire.gen with phase := false, left := s.ire.gen.s } ∧ genDue = false) →
    (s.ire.gen.active = true → s.ire.gen.left = 1#32 → s.ire.gen.phase = false →
      g = { s.ire.gen with active := false, left := 0#32 } ∧ genDue = true) →
    (s.ire.post.active = false → p = s.ire.post ∧ postDue = false) →
    (s.ire.post.active = true → s.ire.post.left ≠ 1#32 →
      p = { s.ire.post with left := s.ire.post.left - 1#32 } ∧ postDue = false) →
    (s.ire.post.active = true → s.ire.post.left = 1#32 → p = { s.ire.post with left := 0#32 } ∧ postDue = true) →
    (genDue = false → r = { s.ire with gen := g, post := p }) →
    (genDue = true → expiry { s.ire with gen := g, post := p } = .ok r) →
    step s = .next
      { s with
        ire :=
          if postDue then { r with post := { r.post with active := false }, ses := { r.ses with busy := false } } else r
        boundary := s.boundary + 1
        port := (s.inbox.head?.map Delivery.words).getD []
        inbox := s.inbox.tail }) ∧
  ∀ s : State, s.halted = true → s.port = [] → resetDue s = false →
    step s = .next
      { s with
        boundary := s.boundary + 1
        port := (s.inbox.head?.map Delivery.words).getD []
        inbox := s.inbox.tail }

/-- The expiry steps inside a full packet: bit 0 after the start pair; then bit by bit, least significant bit first,
payload word 1 up to the middle stop, the middle stop, payload word 2, and the stop pair after bit L - 1. A bit is its
whole pair; the stop and middle-stop pairs are (ZERO_HIGH, ZERO_LOW) (41_ir_sequencer.md R144 to R146, R151, R152,
R154, R155). -/
def Obligations.ExpiryInsideAPacket : Prop :=
  ∀ (r : Ire) (b : Bool),
    (r.ses.state = .start → b = r.ses.pay1.getLsbD 0 →
      expiry r = .ok (withState .firstWord
        { emit (if b then r.ses.P.oneHigh else r.ses.P.zeroHigh) (if b then r.ses.P.oneLow else r.ses.P.zeroLow) r with
          ses := { (emit (if b then r.ses.P.oneHigh else r.ses.P.zeroHigh)
            (if b then r.ses.P.oneLow else r.ses.P.zeroLow) r).ses with n := 1#7 } })) ∧
    (r.ses.state = .firstWord → 0 < r.ses.P.middleStopBit.toNat → r.ses.n.toNat = r.ses.P.middleStopBit.toNat →
      expiry r = .ok (withState .middleStop (emit r.ses.P.zeroHigh r.ses.P.zeroLow r))) ∧
    (r.ses.state = .firstWord → ¬ (0 < r.ses.P.middleStopBit.toNat ∧ r.ses.n.toNat = r.ses.P.middleStopBit.toNat) →
      r.ses.n = r.ses.L → expiry r = .ok (withState .stop (emit r.ses.P.zeroHigh r.ses.P.zeroLow r))) ∧
    (r.ses.state = .firstWord → (r.ses.P.middleStopBit.toNat = 0 ∨ r.ses.n.toNat < r.ses.P.middleStopBit.toNat) →
      r.ses.n ≠ r.ses.L → b = r.ses.pay1.getLsbD r.ses.n.toNat →
      expiry r = .ok
        { emit (if b then r.ses.P.oneHigh else r.ses.P.zeroHigh) (if b then r.ses.P.oneLow else r.ses.P.zeroLow) r with
          ses := { (emit (if b then r.ses.P.oneHigh else r.ses.P.zeroHigh)
            (if b then r.ses.P.oneLow else r.ses.P.zeroLow) r).ses with n := r.ses.n + 1#7 } }) ∧
    (r.ses.state = .secondWord → r.ses.n = r.ses.L →
      expiry r = .ok (withState .stop (emit r.ses.P.zeroHigh r.ses.P.zeroLow r))) ∧
    (r.ses.state = .middleStop ∨ r.ses.state = .secondWord ∧ r.ses.n ≠ r.ses.L →
      0 < r.ses.P.middleStopBit.toNat → r.ses.P.middleStopBit.toNat ≤ r.ses.n.toNat →
      b = r.ses.pay2.getLsbD (r.ses.n.toNat - r.ses.P.middleStopBit.toNat) →
      expiry r = .ok (withState .secondWord
        { emit (if b then r.ses.P.oneHigh else r.ses.P.zeroHigh) (if b then r.ses.P.oneLow else r.ses.P.zeroLow) r with
          ses := { (emit (if b then r.ses.P.oneHigh else r.ses.P.zeroHigh)
            (if b then r.ses.P.oneLow else r.ses.P.zeroLow) r).ses with n := r.ses.n + 1#7 } }))

/-- The expiry steps between transmissions: after the stop pair the session is complete, or waits out the rest of the
repeat period, or starts the next transmission at once; a repeat is a full packet or, with FAST_REPEATS, the leader pair
and the stop pair (41_ir_sequencer.md R153, R156 to R158). -/
def Obligations.ExpiryBetweenTransmissions : Prop :=
  ∀ r : Ire,
    (r.ses.state = .stop → r.ses.rem = 1#32 → r.ses.postDelay = 0#32 →
      expiry r = .ok { r with ses := { r.ses with rem := 0#32, state := .complete, busy := false } }) ∧
    (r.ses.state = .stop → r.ses.rem = 1#32 → r.ses.postDelay ≠ 0#32 →
      expiry r = .ok
        { r with ses := { r.ses with rem := 0#32, state := .complete }, post := ⟨true, r.ses.postDelay⟩ }) ∧
    (r.ses.state = .stop → 1 < r.ses.rem.toNat → r.ses.elapsed.toNat < r.ses.P.repeatTime.toNat →
      expiry r = .ok
        { r with
          ses := { r.ses with rem := r.ses.rem - 1#32, state := .spaceTrailer,
                              elapsed := BitVec.ofNat 64 r.ses.P.repeatTime.toNat }
          gen := ⟨true, false, BitVec.ofNat 32 (r.ses.P.repeatTime.toNat - r.ses.elapsed.toNat), 0#32,
                  BitVec.ofNat 32 (r.ses.P.repeatTime.toNat - r.ses.elapsed.toNat)⟩ }) ∧
    (r.ses.state = .stop → 1 < r.ses.rem.toNat → r.ses.P.repeatTime.toNat ≤ r.ses.elapsed.toNat →
      expiry r = expiry { r with ses := { r.ses with rem := r.ses.rem - 1#32, state := .spaceTrailer } }) ∧
    (r.ses.state = .spaceTrailer → r.ses.P.flags.getLsbD 0 = true →
      expiry r = .ok
        { r with
          ses := { r.ses with state := .markTrailer, n := 0#7,
                              elapsed := BitVec.ofNat 64 (r.ses.P.repeatHigh.toNat + r.ses.P.repeatLow.toNat) }
          gen := genLoad r.ses.P.repeatHigh r.ses.P.repeatLow }) ∧
    (r.ses.state = .spaceTrailer → r.ses.P.flags.getLsbD 0 = false →
      expiry r = .ok
        { r with
          ses := { r.ses with state := .start, n := 0#7,
                              elapsed := BitVec.ofNat 64 (r.ses.startMark.toNat + r.ses.P.startLow.toNat) }
          gen := genLoad r.ses.startMark r.ses.P.startLow }) ∧
    (r.ses.state = .markTrailer →
      expiry r = .ok (withState .stop (emit r.ses.P.zeroHigh r.ses.P.zeroLow r)))

/-- In a quiet delay with a silent host, `busy` is 1 at the present boundary and at every later one until the ticks left
have passed, and there it clears; the timer counts every tick, and the pin stays inactive throughout
(41_ir_sequencer.md R160, R161). -/
def Obligations.QuietDelayClearsBusy : Prop :=
  ∀ (s : State) (k : Nat), Inv s → s.halted = false → s.port = [] → s.inbox = [] → s.ire.post.active = true →
    k ≤ s.ire.post.left.toNat →
    ∃ u, core.run k s = .next u ∧ State.boundary u = s.boundary + k ∧ State.irEnv u = false ∧
      (State.ire u).ses.busy = decide (k < s.ire.post.left.toNat) ∧
      (State.ire u).post.left.toNat = s.ire.post.left.toNat - k

/-! ## FBR configuration, clear, cursor and readback -/

/-- FB_SETROTATE, FB_SETMIRROR, FB_SETCOLOUR and FB_SETFONT write their register on a running block and nothing else:
no byte of the buffer and not the cursor (42_fb_config.md R181, R182, R184, R185, 10_state.md R42). -/
def Obligations.SettersWriteOnlyTheirRegister : Prop :=
  ∀ s : State, s.halted = false →
    (∀ v, exec (.fbSetrotate v) s = .next { s with fbr := { s.fbr with rotation := v } }) ∧
    (∀ v, exec (.fbSetmirror v) s = .next { s with fbr := { s.fbr with mirror := v } }) ∧
    (∀ c, exec (.fbSetcolour c) s = .next { s with fbr := { s.fbr with colour := c } }) ∧
    (∀ f, exec (.fbSetfont f) s = .next { s with fbr := { s.fbr with fontRef := f } })

/-- FB_SETSCALE sets scale 1, 2 or 4 and nothing else; every other value faults with FB_BAD_ARGUMENT (42_fb_config.md
R180). -/
def Obligations.SetscaleLegalAndIllegal : Prop :=
  ∀ (s : State) (v : BitVec 8), s.halted = false →
    ((v.toNat = 1 ∨ v.toNat = 2 ∨ v.toNat = 4) →
      ∃ k : Scale, k.factor = v.toNat ∧ exec (.fbSetscale v) s = .next { s with fbr := { s.fbr with scale := k } }) ∧
    (¬ (v.toNat = 1 ∨ v.toNat = 2 ∨ v.toNat = 4) →
      exec (.fbSetscale v) s = .next (enterFault .fbBadArgument 0x10#8 s))

/-- FB_SETWRITEMODE sets the mode of codes 0 to 4 and nothing else; codes 5 to 7 fault with FB_BAD_ARGUMENT
(42_fb_config.md R183). -/
def Obligations.SetwritemodeLegalAndIllegal : Prop :=
  ∀ (s : State) (v : BitVec 3), s.halted = false →
    (v.toNat ≤ 4 →
      ∃ m : WriteMode, m.code = v ∧ exec (.fbSetwritemode v) s = .next { s with fbr := { s.fbr with writeMode := m } }) ∧
    (4 < v.toNat → exec (.fbSetwritemode v) s = .next (enterFault .fbBadArgument 0x13#8 s))

/-- FB_CLEAR writes every byte of the buffer, padding included, with the colour byte, and homes the cursor; nothing else
changes (42_fb_config.md R186, R187). -/
def Obligations.ClearFillsWholeBuffer : Prop :=
  ∀ (s : State) (c : Colour), s.halted = false →
    ∃ m, exec (.fbClear c) s = .next
        { s with fbr := { s.fbr with buf := m, cursorX := 0#16, cursorY := 0#16 } } ∧
      (∀ a, a < bufSize s.params → bufByte s.bufStamp m a = if c = .white then 0xFF#8 else 0x00#8) ∧
      ∀ a, bufSize s.params ≤ a → bufByte s.bufStamp m a = s.readByte a

/-- FB_MOVETO sets the cursor to the 16-bit coordinates of its POINT operand and changes nothing else (42_fb_config.md
R188). -/
def Obligations.MovetoSetsCursor : Prop :=
  ∀ (s : State) (w : Word), s.halted = false →
    exec (.fbMoveto (pointOfWord w)) s = .next
      { s with fbr := { s.fbr with cursorX := w.extractLsb' 0 16, cursorY := w.extractLsb' 16 16 } }

/-- FB_READB answers the stored byte, padding bits as stored, halted or not, and changes nothing else; an address at or
above BUF_SIZE faults with FB_BAD_ARGUMENT on a running block (42_fb_config.md R189, 60_exceptions.md R302). That the
faulting query returns no response word is the model's inference (log 14). -/
def Obligations.ReadbAnswersStoredByte : Prop :=
  ∀ (s : State) (a : Word),
    (a.toNat < bufSize s.params →
      exec (.fbReadb a) s = .next { s with outbox := s.outbox ++ [BitVec.ofNat 32 (s.readByte a.toNat).toNat] }) ∧
    (bufSize s.params ≤ a.toNat → s.halted = false →
      exec (.fbReadb a) s = .next (enterFault .fbBadArgument 0x20#8 s))

/-- FB_STATUS answers the word of 30_encoding.md R94, halted or not, and changes nothing else (42_fb_config.md
R190). -/
def Obligations.FbStatusAnswersWord : Prop :=
  ∀ s : State, ∃ w, exec .fbStatus s = .next { s with outbox := s.outbox ++ [w] } ∧
    w.extractLsb' 0 8 = s.fault.codeByte ∧ (w.extractLsb' 8 3).toNat = s.fbr.scale.factor ∧
    w.extractLsb' 11 2 = s.fbr.rotation.code ∧ w.extractLsb' 13 2 = s.fbr.mirror.code ∧
    w.extractLsb' 15 3 = s.fbr.writeMode.code ∧ w.extractLsb' 18 1 = s.fbr.colour.bit ∧
    w.extractLsb' 19 13 = 0#13

/-- FB_GETCURSOR, FB_GETFONT and FB_GETSIZE answer their words, halted or not, and change nothing else; for the
parameters the spec allows, the two halves of FB_GETSIZE's word are PHYS_W and PHYS_H (42_fb_config.md R191 to
R193). -/
def Obligations.CursorFontSizeAnswers : Prop :=
  ∀ s : State,
    (∃ w, exec .fbGetcursor s = .next { s with outbox := s.outbox ++ [w] } ∧
      w.extractLsb' 0 16 = s.fbr.cursorX ∧ w.extractLsb' 16 16 = s.fbr.cursorY) ∧
    (∃ w, exec .fbGetfont s = .next { s with outbox := s.outbox ++ [w] } ∧
      w.extractLsb' 0 16 = s.fbr.fontRef ∧ w.extractLsb' 16 16 = 0#16) ∧
    (∃ w, exec .fbGetsize s = .next { s with outbox := s.outbox ++ [w] } ∧
      (s.params.wf = true → (w.extractLsb' 0 16).toNat = s.params.physW ∧
        (w.extractLsb' 16 16).toNat = s.params.physH))

/-! ## The pixel pipeline -/

/-- 43_fb_pixel.md R211: the five formulas of COMBINE, and what each does to a painted bit; a bit outside the mask never
changes. -/
def Obligations.CombineFormulas : Prop :=
  ∀ (old M : Byte) (c : Colour),
    (combine .write old (colByte c) M = (old &&& ~~~M) ||| (colByte c &&& M)) ∧
    (combine .inverseWrite old (colByte c) M = (old &&& ~~~M) ||| (~~~(colByte c) &&& M)) ∧
    (combine .or old (colByte c) M = old ||| (colByte c &&& M)) ∧
    (combine .xor old (colByte c) M = old ^^^ (colByte c &&& M)) ∧
    (combine .inverseAnd old (colByte c) M = old &&& (~~~(colByte c) ||| ~~~M)) ∧
    ∀ i : Fin 8,
      (M.getLsbD i = false → ∀ mode, (combine mode old (colByte c) M).getLsbD i = old.getLsbD i) ∧
      (M.getLsbD i = true →
        (combine .write old (colByte c) M).getLsbD i = decide (c = .white) ∧
        (combine .inverseWrite old (colByte c) M).getLsbD i = decide (c = .black) ∧
        (combine .or old (colByte c) M).getLsbD i = (old.getLsbD i || decide (c = .white)) ∧
        (combine .xor old (colByte c) M).getLsbD i = (old.getLsbD i ^^ decide (c = .white)) ∧
        (combine .inverseAnd old (colByte c) M).getLsbD i = (old.getLsbD i && decide (c = .black)))

/-- No command raises FB_BUFFER_OVERRUN, in any state (43_fb_pixel.md R219, 60_exceptions.md R301). -/
def Obligations.NoCommandOverrunsBuffer : Prop :=
  ∀ (i : Instr) (s t : State), exec i s = .next t → s.fault.code ≠ some .fbBufferOverrun →
    t.fault.code ≠ some .fbBufferOverrun

/-- MAP is injective on the points it admits, whatever the configuration, and admits only points whose block lies on
the physical canvas (43_fb_pixel.md R219). -/
def Obligations.MapInjectiveOnCanvas : Prop :=
  ∀ (s : State) (p q : Point) (u v : Nat), s.mapPoint p = some (u, v) →
    (s.mapPoint q = some (u, v) → p = q) ∧
    ∀ px py, inBlock s.fbr.scale.factor u v px py →
      px < s.params.physW ∧ py < s.params.physH ∧ pixAddr s.params px py ∈ s.blockAddrs u v ∧
        pixAddr s.params px py < bufSize s.params

/-- The rotations and mirrors as canvas coordinates: with mirror None, where each rotation puts a point; what a mirror
does to the canvas coordinate; and that Rotate_180 with Mirror_Origin is the identity (43_fb_pixel.md R213 to
R216). -/
def Obligations.MapRotationsAndMirrors : Prop :=
  ∀ (s : State) (u v : Nat), u < s.logicalW → v < s.logicalH → s.fbr.mirror = .none →
    (s.fbr.rotation = .rotate0 → s.mapPoint ⟨u, v⟩ = some (u, v)) ∧
    (s.fbr.rotation = .rotate90 → s.mapPoint ⟨v, s.logicalW - 1 - u⟩ = some (u, v)) ∧
    (s.fbr.rotation = .rotate180 → s.mapPoint ⟨s.logicalW - 1 - u, s.logicalH - 1 - v⟩ = some (u, v)) ∧
    (s.fbr.rotation = .rotate270 → s.mapPoint ⟨s.logicalH - 1 - v, u⟩ = some (u, v)) ∧
    (∀ p, s.mapPoint p = some (u, v) →
      ({ s with fbr := { s.fbr with mirror := .x } } : State).mapPoint p = some (s.logicalW - 1 - u, v) ∧
      ({ s with fbr := { s.fbr with mirror := .y } } : State).mapPoint p = some (u, s.logicalH - 1 - v) ∧
      ({ s with fbr := { s.fbr with mirror := .origin } } : State).mapPoint p =
        some (s.logicalW - 1 - u, s.logicalH - 1 - v)) ∧
    ({ s with fbr := { s.fbr with rotation := .rotate180, mirror := .origin } } : State).mapPoint ⟨u, v⟩ = some (u, v)

/-- The result of PAINTSET depends on the set alone, not on the order or on repetitions (43_fb_pixel.md R225, R226). -/
def Obligations.PaintsetIgnoresOrder : Prop :=
  ∀ (s : State) (c : Colour) (S S' : List Point), Memory.wf s.fbr.buf = true → (∀ p, p ∈ S ↔ p ∈ S') →
    paintSet s c S s.fbr.buf = paintSet s c S' s.fbr.buf

/-- 43_fb_pixel.md R231: under Write, at any scale, FB_PAINTPIXEL in WHITE and then in BLACK at one point leaves the
point's block BLACK, and the buffer is exactly that of the one in BLACK; under Xor, the same FB_PAINTPIXEL twice
restores every byte. -/
def Obligations.PaintTwiceAtOnePoint : Prop :=
  ∀ (s t : State) (c : Colour) (p : Point), s.halted = false →
    (s.fbr.writeMode = .write → exec (.fbPaintpixel .white p) s = .next t →
      ∃ u w, exec (.fbPaintpixel .black p) t = .next u ∧ exec (.fbPaintpixel .black p) s = .next w ∧
        (∀ a, u.readByte a = w.readByte a) ∧
        ∀ x y px py, s.mapPoint p = some (x, y) → inBlock s.fbr.scale.factor x y px py → u.pixel px py = false) ∧
    (s.fbr.writeMode = .xor → exec (.fbPaintpixel c p) s = .next t →
      ∃ u, exec (.fbPaintpixel c p) t = .next u ∧ ∀ a, u.readByte a = s.readByte a)

/-- FB_PAINTPIXEL on a running block paints the one point in the operand's colour, whatever the write mode, rotation,
mirror and scale; nothing else changes, and a clipped point writes nothing (43_fb_pixel.md R230). -/
def Obligations.PaintpixelPaintsOneBlock : Prop :=
  ∀ (s : State) (c : Colour) (p : Point), s.halted = false →
    ∃ m, exec (.fbPaintpixel c p) s = .next { s with fbr := { s.fbr with buf := m } } ∧
      Paints s m (fun q d => q = p ∧ d = c) ∧ (s.mapPoint p = none → m = s.fbr.buf)

/-! ## Lines, rectangles, circles -/

/-- FB_DRAWLINE on a running block paints the points of LINESET in the current colour, and nothing else changes
(44_fb_shapes.md R244). -/
def Obligations.DrawlinePaintsLineset : Prop :=
  ∀ (s : State) (p0 p1 : Point), s.halted = false →
    ∃ m, exec (.fbDrawline p0 p1) s = .next { s with fbr := { s.fbr with buf := m } } ∧
      Paints s m fun q d => q ∈ lineSet p0 p1 ∧ d = s.fbr.colour

/-- LINESET on a row and on a column is the inclusive range; it does not depend on the order of the endpoints, and
holds both of them (44_fb_shapes.md R240 to R242). -/
def Obligations.LinesetIsSymmetricWithEndpoints : Prop :=
  ∀ p0 p1 : Point,
    (p0.y = p1.y → ∀ q, q ∈ lineSet p0 p1 ↔ q.y = p0.y ∧ min p0.x p1.x ≤ q.x ∧ q.x ≤ max p0.x p1.x) ∧
    (p0.x = p1.x → ∀ q, q ∈ lineSet p0 p1 ↔ q.x = p0.x ∧ min p0.y p1.y ≤ q.y ∧ q.y ≤ max p0.y p1.y) ∧
    (∀ q, q ∈ lineSet p0 p1 ↔ q ∈ lineSet p1 p0) ∧ p0 ∈ lineSet p0 p1 ∧ p1 ∈ lineSet p0 p1

/-- BRESENHAM has exactly one point per step of the major axis, max(|dx|, |dy|) + 1 of them, stays within half a step of
the exact line, and on endpoints that share a coordinate gives the fast paths' set (44_fb_shapes.md R243). The bound of
half a step is no sentence of the spec: it follows from R243's initial error and its steps. -/
def Obligations.BresenhamFollowsTheLine : Prop :=
  ∀ p0 p1 : Point,
    (bresenham p0 p1).Nodup ∧
    ((bresenham p0 p1).length : Int) = max |p1.x - p0.x| |p1.y - p0.y| + 1 ∧
    (∀ q ∈ bresenham p0 p1,
      2 * |(q.y - p0.y) * (p1.x - p0.x) - (q.x - p0.x) * (p1.y - p0.y)| ≤ max |p1.x - p0.x| |p1.y - p0.y|) ∧
    (p0.x = p1.x ∨ p0.y = p1.y → ∀ q, q ∈ bresenham p0 p1 ↔ q ∈ lineSet p0 p1)

/-- FB_DRAWRECT on a running block paints exactly the box between its two corners, both inclusive and in any order, and
nothing else changes (44_fb_shapes.md R250). -/
def Obligations.DrawrectPaintsBox : Prop :=
  ∀ (s : State) (p0 p1 : Point), s.halted = false →
    ∃ m, exec (.fbDrawrect p0 p1) s = .next { s with fbr := { s.fbr with buf := m } } ∧
      Paints s m fun q d => d = s.fbr.colour ∧ min p0.x p1.x ≤ q.x ∧ q.x ≤ max p0.x p1.x ∧
        min p0.y p1.y ≤ q.y ∧ q.y ≤ max p0.y p1.y

/-- FB_DRAWOPENRECT on a running block paints exactly the points of the box that lie on one of its four edges, and
nothing else changes (44_fb_shapes.md R251); XOR_MULTIPLICITY = UNSPECIFIED under Xor apart. -/
def Obligations.DrawopenrectPaintsOutline : Prop :=
  ∀ (s : State) (p0 p1 : Point), s.halted = false →
    ¬ (s.fbr.writeMode = .xor ∧ s.params.xorMult = .unspecified) →
    ∃ m, exec (.fbDrawopenrect p0 p1) s = .next { s with fbr := { s.fbr with buf := m } } ∧
      Paints s m fun q d => d = s.fbr.colour ∧ min p0.x p1.x ≤ q.x ∧ q.x ≤ max p0.x p1.x ∧
        min p0.y p1.y ≤ q.y ∧ q.y ≤ max p0.y p1.y ∧ (q.x = p0.x ∨ q.x = p1.x ∨ q.y = p0.y ∨ q.y = p1.y)

/-- FB_DRAWOPENCIRCLE on a running block paints exactly the points at an offset (±x, ±y) or (±y, ±x) of the centre for
an octant step (x, y) of MIDPOINT(r), and nothing else changes; a negative radius paints nothing (44_fb_shapes.md R260,
R261); XOR_MULTIPLICITY = UNSPECIFIED under Xor apart. -/
def Obligations.DrawopencirclePaintsOctants : Prop :=
  ∀ (s : State) (c : Point) (r : Int), s.halted = false →
    ¬ (s.fbr.writeMode = .xor ∧ s.params.xorMult = .unspecified) →
    ∃ m, exec (.fbDrawopencircle c r) s = .next { s with fbr := { s.fbr with buf := m } } ∧
      (Paints s m fun q d => d = s.fbr.colour ∧ ∃ st ∈ midpoint r,
        (|q.x - c.x| = st.x ∧ |q.y - c.y| = st.y) ∨ (|q.x - c.x| = st.y ∧ |q.y - c.y| = st.x)) ∧
      (r < 0 → m = s.fbr.buf)

/-- FB_DRAWCIRCLE on a running block paints exactly the points of the horizontal lines between symmetric points of the
octant steps, and nothing else changes; a negative radius paints nothing (44_fb_shapes.md R260, R262);
XOR_MULTIPLICITY = UNSPECIFIED under Xor apart. -/
def Obligations.DrawcirclePaintsRows : Prop :=
  ∀ (s : State) (c : Point) (r : Int), s.halted = false →
    ¬ (s.fbr.writeMode = .xor ∧ s.params.xorMult = .unspecified) →
    ∃ m, exec (.fbDrawcircle c r) s = .next { s with fbr := { s.fbr with buf := m } } ∧
      (Paints s m fun q d => d = s.fbr.colour ∧ ∃ st ∈ midpoint r,
        (|q.x - c.x| ≤ st.x ∧ |q.y - c.y| = st.y) ∨ (|q.x - c.x| ≤ st.y ∧ |q.y - c.y| = st.x)) ∧
      (r < 0 → m = s.fbr.buf)

/-- The circle sets, for every radius: the filled set contains the outline set, strictly for r ≥ 1, where the centre is
in the one and not in the other; both are unchanged by a quarter turn about the centre; and for r = 0 both are the
centre (44_fb_shapes.md R263, 90_conflicts.md C2). The spec reports these properties as checked for the radii -3 to
300; that they hold for every radius is inferred from the constructions of R260 to R262. -/
def Obligations.CircleSetsAreNestedAndSymmetric : Prop :=
  ∀ (c : Point) (r : Int),
    (∀ q ∈ opencirclePoints c r, q ∈ circlePoints c r) ∧
    (1 ≤ r → c ∈ circlePoints c r ∧ c ∉ opencirclePoints c r) ∧
    (r = 0 → ∀ q, (q ∈ circlePoints c r ↔ q = c) ∧ (q ∈ opencirclePoints c r ↔ q = c)) ∧
    (∀ a b : Int, ((⟨c.x + a, c.y + b⟩ : Point) ∈ opencirclePoints c r ↔
      (⟨c.x - b, c.y + a⟩ : Point) ∈ opencirclePoints c r)) ∧
    (∀ a b : Int, ((⟨c.x + a, c.y + b⟩ : Point) ∈ circlePoints c r ↔
      (⟨c.x - b, c.y + a⟩ : Point) ∈ circlePoints c r))

/-! ## Images and glyphs -/

/-- FB_WRITEIMAGE on a running block: a bitmap wholly inside the source memory (an empty one at any address) is painted,
its 1 bits in the colour, its 0 bits not at all or, with BLIT_ZERO_POLICY = OPAQUE, in the inverse colour, and nothing
else changes; any other bitmap faults with FB_SOURCE_RANGE and nothing is painted (45_fb_blit.md R270 to R274). -/
def Obligations.WriteimagePaintsBitmap : Prop :=
  ∀ (s : State) (o : Point) (z : Size) (a : Word), s.halted = false →
    (z.h * ((z.w + 7) / 8) = 0 ∨ a.toNat + z.h * ((z.w + 7) / 8) ≤ s.params.srcSize →
      ∃ m, exec (.fbWriteimage o z a) s = .next { s with fbr := { s.fbr with buf := m } } ∧
        Paints s m fun q d => ∃ i j, i < z.w ∧ j < z.h ∧ q = ⟨o.x + (i : Int), o.y + (j : Int)⟩ ∧
          ((srcByte s.params (a.toNat + j * ((z.w + 7) / 8) + i / 8)).getLsbD (7 - i % 8) = true ∧ d = s.fbr.colour ∨
           (srcByte s.params (a.toNat + j * ((z.w + 7) / 8) + i / 8)).getLsbD (7 - i % 8) = false ∧
             s.params.blitZero = .opaqueInverse ∧ d ≠ s.fbr.colour)) ∧
    (¬ (z.h * ((z.w + 7) / 8) = 0 ∨ a.toNat + z.h * ((z.w + 7) / 8) ≤ s.params.srcSize) →
      exec (.fbWriteimage o z a) s = .next (enterFault .fbSourceRange 0x1D#8 s))

/-- FB_DRAWCHAR on a running block: without a glyph it faults with FB_GLYPH_MISSING; with one whose bitmap is not wholly
inside the source memory it faults with FB_SOURCE_RANGE, cursor unchanged; otherwise it paints the glyph's bitmap at the
cursor and moves the cursor right by the glyph's width modulo 2^16, and nothing else changes (45_fb_blit.md R275,
R276). -/
def Obligations.DrawcharPaintsGlyphAndAdvances : Prop :=
  ∀ (s : State) (code : BitVec 8), s.halted = false →
    (fontGlyph s.params s.fbr.fontRef code = none →
      exec (.fbDrawchar code) s = .next (enterFault .fbGlyphMissing 0x1F#8 s)) ∧
    ∀ g, fontGlyph s.params s.fbr.fontRef code = some g →
      ((glyphBitmap g).inSource s.params = false →
        exec (.fbDrawchar code) s = .next (enterFault .fbSourceRange 0x1F#8 s)) ∧
      ((glyphBitmap g).inSource s.params = true →
        ∃ m, exec (.fbDrawchar code) s = .next
            { s with fbr := { s.fbr with buf := m, cursorX := s.fbr.cursorX + g.w } } ∧
          Paints s m fun q d => ∃ i j, i < g.w.toNat ∧ j < g.h.toNat ∧
            q = ⟨s.fbr.cursorX.toInt + (i : Int), s.fbr.cursorY.toInt + (j : Int)⟩ ∧
            ((glyphBitmap g).srcBit s.params i j = true ∧ d = s.fbr.colour ∨
             (glyphBitmap g).srcBit s.params i j = false ∧ s.params.blitZero = .opaqueInverse ∧ d ≠ s.fbr.colour))

/-- Under Xor with XOR_MULTIPLICITY = UNSPECIFIED, an outline rectangle, an outline circle and a filled circle still
answer a next state and write the buffer only: every pixel reached once is toggled as under SET, and every bit outside
the shape's blocks is unchanged; nothing is said of a pixel the construction reaches more than once, whatever the free
values are (43_fb_pixel.md R225, 93 U3; log 10, log 13). -/
def Obligations.UnspecifiedXorFreesOnlyRepeatedPixels : Prop :=
  ∀ (s : State) (i : Instr) (sh : Shape), s.halted = false → s.fbr.writeMode = .xor →
    s.params.xorMult = .unspecified →
    ((∃ p0 p1, i = .fbDrawopenrect p0 p1 ∧ sh = openrectShape p0 p1) ∨
     (∃ c r, i = .fbDrawopencircle c r ∧ sh = opencircleShape c r) ∨
     (∃ c r, i = .fbDrawcircle c r ∧ sh = circleShape c r)) →
    ∃ m k, exec i s = .next { s with fbr := { s.fbr with buf := m }, freeCtr := k } ∧
      (∀ p u v px py, p ∈ sh.pts → p ∉ sh.repeated → s.mapPoint p = some (u, v) →
        inBlock s.fbr.scale.factor u v px py →
        s.pixelIn m px py = combineBit .xor s.fbr.colour (s.pixel px py)) ∧
      (∀ a b, b < 8 →
        (∀ p u v px py, p ∈ sh.pts → s.mapPoint p = some (u, v) → inBlock s.fbr.scale.factor u v px py →
          ¬ (pixAddr s.params px py = a ∧ pixBit px = b)) →
        (bufByte s.bufStamp m a).getLsbD b = (s.readByte a).getLsbD b) ∧
      (∀ a, a ∉ s.paintAddrs sh.pts → bufByte s.bufStamp m a = s.readByte a)
end

