-- ==== Sys2Proof/Laws/Memory.lean ====
section
/-!
SUPPORT. What the memory operations of Machine/Ops.lean do: reads after writes, the canonical form, and that two
canonical memories that read alike are equal.
-/
namespace Sys2Proof.Machine

@[simp] theorem memLookup_nil (a : Nat) : memLookup [] a = none := rfl

theorem memLookup_cons (b : Nat) (w : Byte) (m : Memory) (a : Nat) :
    memLookup ((b, w) :: m) a = if a = b then some w else memLookup m a := by
  unfold memLookup
  rw [List.lookup_cons]
  by_cases h : a = b
  · simp [h]
  · have hb : (a == b) = false := by simpa using h
    simp [h, hb]

/-- A written byte reads as written, and every other byte as before. -/
theorem memLookup_memWrite (m : Memory) (a : Nat) (v : Byte) (b : Nat) :
    memLookup (memWrite m a v) b = if b = a then some v else memLookup m b := by
  induction m with
  | nil => simp [memWrite, memLookup_cons]
  | cons c rest ih =>
    obtain ⟨c, w⟩ := c
    simp only [memWrite]
    split
    · simp [memLookup_cons]
    · split
      · rename_i h
        subst h
        by_cases hb : b = a <;> simp [memLookup_cons, hb]
      · rename_i h1 h2
        by_cases hb : b = c
        · subst hb
          simp [memLookup_cons, Ne.symm h2]
        · simp [memLookup_cons, hb, ih]

@[simp] theorem memLookup_memWrite_self (m : Memory) (a : Nat) (v : Byte) :
    memLookup (memWrite m a v) a = some v := by simp [memLookup_memWrite]

theorem memLookup_memWrite_of_ne (m : Memory) {a b : Nat} (v : Byte) (h : b ≠ a) :
    memLookup (memWrite m a v) b = memLookup m b := by simp [memLookup_memWrite, h]

/-- The byte read of a frame buffer after one write. -/
theorem bufByte_memWrite (stamp : Nat) (m : Memory) (a : Nat) (v : Byte) (b : Nat) :
    bufByte stamp (memWrite m a v) b = if b = a then v else bufByte stamp m b := by
  unfold bufByte
  rw [memLookup_memWrite]
  split <;> rfl

theorem memRising_mono {m : Memory} {a b : Nat} (hab : a ≤ b) (h : memRising b m = true) : memRising a m = true := by
  cases m with
  | nil => rfl
  | cons c rest =>
    simp only [memRising, Bool.and_eq_true, decide_eq_true_eq] at h ⊢
    exact ⟨by omega, h.2⟩

theorem memory_wf_of_memRising {m : Memory} {a : Nat} (h : memRising a m = true) : Memory.wf m = true := by
  cases m with
  | nil => rfl
  | cons c rest =>
    simp only [memRising, Bool.and_eq_true] at h
    exact h.2

theorem memRising_memWrite (m : Memory) (a : Nat) (v : Byte) (b : Nat) (hb : b < a) (h : memRising b m = true) :
    memRising b (memWrite m a v) = true := by
  induction m generalizing b with
  | nil => simpa [memWrite, memRising] using hb
  | cons c rest ih =>
    obtain ⟨c, w⟩ := c
    simp only [memRising, Bool.and_eq_true, decide_eq_true_eq] at h
    simp only [memWrite]
    split
    · rename_i hac
      simp [memRising, hb, hac, h.2]
    · split
      · rename_i h1 h2
        subst h2
        simp [memRising, h.1, h.2]
      · rename_i h1 h2
        simp [memRising, h.1, ih c (by omega) h.2]

/-- A write keeps the canonical form. -/
theorem memory_wf_memWrite (m : Memory) (a : Nat) (v : Byte) (h : Memory.wf m = true) :
    Memory.wf (memWrite m a v) = true := by
  cases m with
  | nil => rfl
  | cons c rest =>
    obtain ⟨c, w⟩ := c
    simp only [Memory.wf] at h
    simp only [memWrite]
    split
    · rename_i hac
      simp [Memory.wf, memRising, hac, h]
    · split
      · rename_i h1 h2
        subst h2
        simpa [Memory.wf] using h
      · rename_i h1 h2
        simpa [Memory.wf] using memRising_memWrite rest a v c (by omega) h

/-- A write below the bound keeps every cell below it. -/
theorem memBelow_memWrite (n : Nat) (m : Memory) (a : Nat) (v : Byte) (ha : a < n) (h : memBelow n m = true) :
    memBelow n (memWrite m a v) = true := by
  induction m with
  | nil => simpa [memWrite, memBelow] using ha
  | cons c rest ih =>
    obtain ⟨c, w⟩ := c
    simp only [memBelow, List.all_cons, Bool.and_eq_true, decide_eq_true_eq] at h ih
    simp only [memWrite]
    split
    · simp [memBelow, ha, h.1]
      simpa using h.2
    · split
      · simp [memBelow, ha]
        simpa using h.2
      · simp [memBelow, h.1]
        simpa [memBelow] using ih (by simpa [memBelow] using h.2)

theorem memLookup_append (m m' : Memory) (a : Nat) :
    memLookup (m ++ m') a = (memLookup m a).or (memLookup m' a) := by
  induction m with
  | nil => simp
  | cons c rest ih =>
    obtain ⟨c, w⟩ := c
    simp only [List.cons_append, memLookup_cons, ih]
    split <;> simp

theorem memLookup_map_const (v : Byte) (as : List Nat) (a : Nat) :
    memLookup (as.map fun x => (x, v)) a = if a ∈ as then some v else none := by
  induction as with
  | nil => simp
  | cons b bs ih =>
    simp only [List.map_cons, memLookup_cons, ih, List.mem_cons]
    by_cases h : a = b <;> simp [h]

theorem memLookup_filter_ge (m : Memory) (n a : Nat) (h : n ≤ a) :
    memLookup (m.filter fun c => decide (n ≤ c.1)) a = memLookup m a := by
  induction m with
  | nil => rfl
  | cons c rest ih =>
    obtain ⟨c, w⟩ := c
    simp only [List.filter_cons]
    split
    · simp [memLookup_cons, ih]
    · rename_i hc
      have : a ≠ c := by
        rintro rfl
        simp [h] at hc
      simp [memLookup_cons, ih, this]

/-- A fill writes exactly the bytes below its bound. -/
theorem memLookup_memFill (m : Memory) (n : Nat) (v : Byte) (a : Nat) :
    memLookup (memFill m n v) a = if a < n then some v else memLookup m a := by
  unfold memFill
  rw [memLookup_append, memLookup_map_const]
  by_cases h : a < n
  · simp [h]
  · simp [h, memLookup_filter_ge m n a (by omega)]

theorem bufByte_memFill (stamp : Nat) (m : Memory) (n : Nat) (v : Byte) (a : Nat) :
    bufByte stamp (memFill m n v) a = if a < n then v else bufByte stamp m a := by
  unfold bufByte
  rw [memLookup_memFill]
  split <;> rfl

/-- The canonical form as a statement about the list of addresses. -/
theorem memRising_iff (a : Nat) (m : Memory) :
    memRising a m = true ↔ List.Pairwise (· < ·) (a :: m.map Prod.fst) := by
  induction m generalizing a with
  | nil => simp [memRising]
  | cons c rest ih =>
    obtain ⟨c, w⟩ := c
    simp only [memRising, Bool.and_eq_true, decide_eq_true_eq, ih, List.map_cons]
    constructor
    · rintro ⟨hac, h⟩
      refine List.pairwise_cons.2 ⟨?_, h⟩
      intro b hb
      rcases List.mem_cons.1 hb with rfl | hb
      · exact hac
      · exact lt_trans hac ((List.pairwise_cons.1 h).1 b hb)
    · intro h
      obtain ⟨h1, h2⟩ := List.pairwise_cons.1 h
      exact ⟨h1 c (by simp), h2⟩

theorem memory_wf_iff (m : Memory) : Memory.wf m = true ↔ List.Pairwise (· < ·) (m.map Prod.fst) := by
  cases m with
  | nil => simp [Memory.wf]
  | cons c rest =>
    obtain ⟨c, w⟩ := c
    simp [Memory.wf, memRising_iff]

/-- A fill keeps the canonical form. -/
theorem memory_wf_memFill (m : Memory) (n : Nat) (v : Byte) (h : Memory.wf m = true) :
    Memory.wf (memFill m n v) = true := by
  rw [memory_wf_iff] at h ⊢
  have hsub : ((m.filter fun c => decide (n ≤ c.1)).map Prod.fst).Sublist (m.map Prod.fst) :=
    List.Sublist.map _ List.filter_sublist
  unfold memFill
  rw [List.map_append, List.map_map, List.pairwise_append]
  refine ⟨?_, h.sublist hsub, ?_⟩
  · have : (Prod.fst ∘ fun a : Nat => ((a, v) : Host.Cell)) = id := rfl
    rw [this, List.map_id]
    exact List.pairwise_lt_range
  · intro a ha b hb
    simp only [List.mem_map, List.mem_range, List.mem_filter, decide_eq_true_eq, Function.comp] at ha hb
    obtain ⟨x, hx, rfl⟩ := ha
    obtain ⟨c, ⟨-, hc⟩, rfl⟩ := hb
    exact lt_of_lt_of_le hx hc

theorem memBelow_memFill (m : Memory) (n : Nat) (v : Byte) (h : memBelow n m = true) :
    memBelow n (memFill m n v) = true := by
  simp only [memBelow, List.all_eq_true, decide_eq_true_eq] at h ⊢
  intro c hc
  simp only [memFill, List.mem_append, List.mem_map, List.mem_range, List.mem_filter] at hc
  rcases hc with ⟨a, ha, rfl⟩ | ⟨hc, -⟩
  · exact ha
  · exact h c hc

theorem memLookup_eq_none_of_memRising {m : Memory} {a b : Nat} (h : memRising a m = true) (hb : b ≤ a) :
    memLookup m b = none := by
  induction m generalizing a with
  | nil => rfl
  | cons c rest ih =>
    obtain ⟨c, w⟩ := c
    simp only [memRising, Bool.and_eq_true, decide_eq_true_eq] at h
    have hne : b ≠ c := by omega
    simp [memLookup_cons, hne, ih h.2 (by omega)]

/-- Canonical memories that hold the same bytes are equal data. -/
theorem memory_ext {m m' : Memory} (h : Memory.wf m = true) (h' : Memory.wf m' = true)
    (heq : ∀ a, memLookup m a = memLookup m' a) : m = m' := by
  induction m generalizing m' with
  | nil =>
    cases m' with
    | nil => rfl
    | cons c rest =>
      obtain ⟨c, w⟩ := c
      have := heq c
      simp [memLookup_cons] at this
  | cons c rest ih =>
    obtain ⟨c, w⟩ := c
    cases m' with
    | nil =>
      have := heq c
      simp [memLookup_cons] at this
    | cons d rest' =>
      obtain ⟨d, w'⟩ := d
      simp only [Memory.wf] at h h'
      have hcd : c = d := by
        rcases lt_trichotomy c d with hlt | heq' | hgt
        · have h1 := heq c
          rw [memLookup_cons, memLookup_cons] at h1
          have h2 : c ≠ d := by omega
          simp [h2, memLookup_eq_none_of_memRising h' (le_of_lt hlt)] at h1
        · exact heq'
        · have h1 := heq d
          rw [memLookup_cons, memLookup_cons] at h1
          have h2 : d ≠ c := by omega
          simp [h2, memLookup_eq_none_of_memRising h (le_of_lt hgt)] at h1
      subst hcd
      have hw : w = w' := by
        have := heq c
        simpa [memLookup_cons] using this
      subst hw
      have hrest : rest = rest' := by
        refine ih (memory_wf_of_memRising h) (memory_wf_of_memRising h') fun a => ?_
        by_cases ha : a = c
        · subst ha
          rw [memLookup_eq_none_of_memRising h le_rfl, memLookup_eq_none_of_memRising h' le_rfl]
        · have := heq a
          simpa [memLookup_cons, ha] using this
      rw [hrest]

end Sys2Proof.Machine
end

