-- ==== Sys2Proof/Laws/Paint.lean ====
section
/-!
SUPPORT. What painting does, bit by bit: the blocks MAP admits lie inside the buffer and are disjoint for distinct
points (43_fb_pixel.md R219), so `editPoints` never fails and changes exactly the bits of its points' blocks.
-/
namespace Sys2Proof.Machine

/-! ## Geometry -/

theorem Scale.factor_cases (k : Scale) : k.factor = 1 ∨ k.factor = 2 ∨ k.factor = 4 := by
  cases k <;> simp [Scale.factor]

theorem Scale.factor_pos (k : Scale) : 0 < k.factor := by cases k <;> simp [Scale.factor]

/-- MAP's answer in terms of the rotated and mirrored point (43_fb_pixel.md R213). -/
theorem mapPoint_eq_some_iff (s : State) (p : Point) (u v : Nat) :
    s.mapPoint p = some (u, v) ↔
      u < s.logicalW ∧ v < s.logicalH ∧
        mirrorPoint s.fbr.mirror s.logicalW s.logicalH (rotatePoint s.fbr.rotation s.logicalW s.logicalH p) =
          ⟨u, v⟩ := by
  unfold State.mapPoint
  simp only
  generalize mirrorPoint s.fbr.mirror s.logicalW s.logicalH
    (rotatePoint s.fbr.rotation s.logicalW s.logicalH p) = q
  obtain ⟨x, y⟩ := q
  simp only [Point.mk.injEq]
  split
  · constructor
    · intro h
      cases h
    · rintro ⟨h1, h2, rfl, rfl⟩
      omega
  · simp only [Option.some.injEq, Prod.mk.injEq]
    omega

/-- Each rotation is injective (43_fb_pixel.md R219). -/
theorem rotatePoint_injective (r : Rotation) (W H : Int) : Function.Injective (rotatePoint r W H) := by
  rintro ⟨x, y⟩ ⟨x', y'⟩ h
  cases r <;> simp only [rotatePoint, Point.mk.injEq] at h ⊢ <;> omega

/-- Each mirror is injective (43_fb_pixel.md R219). -/
theorem mirrorPoint_injective (m : Mirror) (W H : Int) : Function.Injective (mirrorPoint m W H) := by
  rintro ⟨x, y⟩ ⟨x', y'⟩ h
  cases m <;> simp only [mirrorPoint, Point.mk.injEq] at h ⊢ <;> omega

theorem mapPoint_lt {s : State} {p : Point} {u v : Nat} (h : s.mapPoint p = some (u, v)) :
    u < s.logicalW ∧ v < s.logicalH :=
  let h' := (mapPoint_eq_some_iff s p u v).1 h
  ⟨h'.1, h'.2.1⟩

theorem block_right_le {s : State} {u : Nat} (h : u < s.logicalW) :
    (u + 1) * s.fbr.scale.factor ≤ s.params.physW := by
  unfold State.logicalW at h
  exact (Nat.le_div_iff_mul_le s.fbr.scale.factor_pos).1 h

theorem block_bottom_le {s : State} {v : Nat} (h : v < s.logicalH) :
    (v + 1) * s.fbr.scale.factor ≤ s.params.physH := by
  unfold State.logicalH at h
  exact (Nat.le_div_iff_mul_le s.fbr.scale.factor_pos).1 h

theorem div8_lt_stride {p : Params} {px : Nat} (h : px < p.physW) : px / 8 < stride p := by
  unfold stride
  omega

/-- A pixel inside the canvas lies in a byte below BUF_SIZE (20_memory.md R61). -/
theorem pixAddr_lt_bufSize {p : Params} {px py : Nat} (hx : px < p.physW) (hy : py < p.physH) :
    pixAddr p px py < bufSize p := by
  have h1 := div8_lt_stride hx
  unfold pixAddr bufSize
  calc py * stride p + px / 8 < py * stride p + stride p := by omega
    _ = (py + 1) * stride p := by ring
    _ ≤ p.physH * stride p := Nat.mul_le_mul_right _ hy

/-- Row and column byte of a pixel address are determined by it. -/
theorem pixAddr_inj {p : Params} {px py px' py' : Nat} (hx : px < p.physW) (hx' : px' < p.physW)
    (h : pixAddr p px py = pixAddr p px' py') : py = py' ∧ px / 8 = px' / 8 := by
  have h1 := div8_lt_stride hx
  have h2 := div8_lt_stride hx'
  unfold pixAddr at h
  have hpos : 0 < stride p := by omega
  have e1 : (px / 8 + stride p * py) / stride p = py := by
    rw [Nat.add_mul_div_left _ _ hpos, Nat.div_eq_of_lt h1, Nat.zero_add]
  have e2 : (px' / 8 + stride p * py') / stride p = py' := by
    rw [Nat.add_mul_div_left _ _ hpos, Nat.div_eq_of_lt h2, Nat.zero_add]
  have hy : py = py' := by
    rw [← e1, ← e2]
    congr 1
    rw [Nat.mul_comm (stride p) py, Nat.mul_comm (stride p) py']
    omega
  subst hy
  exact ⟨rfl, by omega⟩

/-- A pixel inside the canvas is one bit of the buffer, and no two pixels share it (20_memory.md R61). -/
theorem pixel_bit_inj {p : Params} {px py px' py' : Nat} (hx : px < p.physW) (hx' : px' < p.physW)
    (h : pixAddr p px py = pixAddr p px' py') (hb : pixBit px = pixBit px') : px = px' ∧ py = py' := by
  obtain ⟨h1, h2⟩ := pixAddr_inj hx hx' h
  unfold pixBit at hb
  exact ⟨by omega, h1⟩

theorem blockMask_getLsbD (k : Scale) (u i : Nat) :
    (blockMask k.factor u).getLsbD i = true ↔
      8 - k.factor - u * k.factor % 8 ≤ i ∧ i < 8 - u * k.factor % 8 := by
  have hk : ∀ j, j < 8 → ∀ i, i < 8 →
      ((blockMask k.factor j).getLsbD i = true ↔
        8 - k.factor - j * k.factor % 8 ≤ i ∧ i < 8 - j * k.factor % 8) := by
    cases k <;> decide
  have hu : blockMask k.factor u = blockMask k.factor (u % 8) := by
    unfold blockMask
    rw [Nat.mod_mul_mod]
  by_cases hi : i < 8
  · rw [hu, hk (u % 8) (Nat.mod_lt _ (by omega)) i hi, Nat.mod_mul_mod]
  · constructor
    · intro h
      rw [BitVec.getLsbD_of_ge _ _ (by omega)] at h
      cases h
    · omega

/-- The bits of a block, as address and bit, are its physical pixels (43_fb_pixel.md R217, R218). -/
theorem mem_block_iff (s : State) (u v a i : Nat) :
    (a ∈ s.blockAddrs u v ∧ (blockMask s.fbr.scale.factor u).getLsbD i = true) ↔
      ∃ px py, u * s.fbr.scale.factor ≤ px ∧ px < (u + 1) * s.fbr.scale.factor ∧
        v * s.fbr.scale.factor ≤ py ∧ py < (v + 1) * s.fbr.scale.factor ∧
        pixAddr s.params px py = a ∧ pixBit px = i := by
  have hmod : u * s.fbr.scale.factor % 8 + s.fbr.scale.factor ≤ 8 := by
    rcases s.fbr.scale.factor_cases with h | h | h <;> rw [h] <;> omega
  rw [blockMask_getLsbD]
  unfold State.blockAddrs pixAddr pixBit
  generalize s.fbr.scale.factor = k at *
  simp only [List.mem_map, List.mem_range, Nat.add_mul, Nat.one_mul]
  generalize u * k = U at *
  generalize v * k = V at *
  constructor
  · rintro ⟨⟨j, hj, rfl⟩, h1, h2⟩
    refine ⟨U + (7 - i - U % 8), V + j, by omega, by omega, by omega, by omega, ?_, by omega⟩
    rw [Nat.add_mul]
    congr 1
    omega
  · rintro ⟨px, py, h1, h2, h3, h4, rfl, rfl⟩
    refine ⟨⟨py - V, by omega, ?_⟩, by omega, by omega⟩
    have : V * stride s.params + (py - V) * stride s.params = py * stride s.params := by
      rw [← Nat.add_mul]
      congr 1
      omega
    rw [this]
    congr 1
    omega

/-- The blocks MAP admits lie inside the buffer (43_fb_pixel.md R219). -/
theorem blockAddrs_lt {s : State} {p : Point} {u v : Nat} (h : s.mapPoint p = some (u, v)) {a : Nat}
    (ha : a ∈ s.blockAddrs u v) : a < bufSize s.params := by
  obtain ⟨hu, hv⟩ := mapPoint_lt h
  have h1 := block_right_le hu
  have h2 := block_bottom_le hv
  have hk := s.fbr.scale.factor_pos
  unfold State.blockAddrs at ha
  simp only [List.mem_map, List.mem_range] at ha
  obtain ⟨i, hi, rfl⟩ := ha
  rw [Nat.add_mul, Nat.one_mul] at h1 h2
  exact pixAddr_lt_bufSize (px := u * s.fbr.scale.factor) (by omega) (by omega)

theorem blockAddrs_nodup {s : State} {p : Point} {u v : Nat} (h : s.mapPoint p = some (u, v)) :
    (s.blockAddrs u v).Nodup := by
  obtain ⟨hu, -⟩ := mapPoint_lt h
  have h1 := block_right_le hu
  have hk := s.fbr.scale.factor_pos
  have hpos : 0 < stride s.params := by
    rw [Nat.add_mul, Nat.one_mul] at h1
    unfold stride
    omega
  unfold State.blockAddrs
  refine (List.nodup_range).map fun i j hij => ?_
  have : (v * s.fbr.scale.factor + i) * stride s.params = (v * s.fbr.scale.factor + j) * stride s.params := by
    omega
  have := Nat.eq_of_mul_eq_mul_right hpos this
  omega

/-! ## The bits a point paints -/

/-- Bit `i` of byte `a` lies in the block of the logical point `p`. -/
def State.covers (s : State) (p : Point) (a i : Nat) : Prop :=
  ∃ u v, s.mapPoint p = some (u, v) ∧ a ∈ s.blockAddrs u v ∧ (blockMask s.fbr.scale.factor u).getLsbD i = true

/-- Two distinct logical points never share a bit (43_fb_pixel.md R219). -/
theorem covers_inj {s : State} {p q : Point} {a i : Nat} (hp : s.covers p a i) (hq : s.covers q a i) : p = q := by
  obtain ⟨u, v, h1, h2, h3⟩ := hp
  obtain ⟨u', v', h1', h2', h3'⟩ := hq
  obtain ⟨px, py, a1, a2, a3, a4, a5, a6⟩ := (mem_block_iff s u v a i).1 ⟨h2, h3⟩
  obtain ⟨px', py', b1, b2, b3, b4, b5, b6⟩ := (mem_block_iff s u' v' a i).1 ⟨h2', h3'⟩
  have hu := block_right_le (mapPoint_lt h1).1
  have hu' := block_right_le (mapPoint_lt h1').1
  obtain ⟨rfl, rfl⟩ := pixel_bit_inj (p := s.params) (by omega) (by omega) (a5.trans b5.symm) (a6.trans b6.symm)
  have key : ∀ {k x y z : Nat}, x * k ≤ z → z < (x + 1) * k → y * k ≤ z → z < (y + 1) * k → x = y := by
    intro k x y z c1 c2 c3 c4
    have d1 : x < y + 1 := Nat.lt_of_mul_lt_mul_right (lt_of_le_of_lt c1 c4)
    have d2 : y < x + 1 := Nat.lt_of_mul_lt_mul_right (lt_of_le_of_lt c3 c2)
    omega
  have e1 := key a1 a2 b1 b2
  have e2 := key a3 a4 b3 b4
  subst e1 e2
  have m1 := ((mapPoint_eq_some_iff s p u v).1 h1).2.2
  have m2 := ((mapPoint_eq_some_iff s q u v).1 h1').2.2
  exact rotatePoint_injective _ _ _ (mirrorPoint_injective _ _ _ (m1.trans m2.symm))

/-! ## The edits -/

/-- A byte function that keeps every bit outside its mask and maps each bit inside by `g`. -/
def Masked (f : Byte → Nat → Byte → Byte) (g : Nat → Nat → Bool → Bool) : Prop :=
  ∀ M a old i, i < 8 →
    (f M a old).getLsbD i = if M.getLsbD i then g a i (old.getLsbD i) else old.getLsbD i

theorem editBytes_spec (s : State) (f : Nat → Byte → Byte) (as : List Nat) (m : Memory) (hn : as.Nodup)
    (hlt : ∀ a ∈ as, a < bufSize s.params) :
    ∃ m', editBytes s f as m = some m' ∧
      (∀ b, bufByte s.bufStamp m' b =
        if b ∈ as then f b (bufByte s.bufStamp m b) else bufByte s.bufStamp m b) ∧
      (Memory.wf m = true → Memory.wf m' = true) ∧
      (memBelow (bufSize s.params) m = true → memBelow (bufSize s.params) m' = true) := by
  induction as generalizing m with
  | nil => exact ⟨m, rfl, by simp, id, id⟩
  | cons a as ih =>
    obtain ⟨hna, hn⟩ := List.nodup_cons.1 hn
    have ha := hlt a (by simp)
    obtain ⟨m', h1, h2, h3, h4⟩ :=
      ih (memWrite m a (f a (bufByte s.bufStamp m a))) hn fun b hb => hlt b (by simp [hb])
    refine ⟨m', by simp [editBytes, bufWrite?, ha, h1], fun b => ?_, fun h => h3 (memory_wf_memWrite _ _ _ h),
      fun h => h4 (memBelow_memWrite _ _ _ _ ha h)⟩
    rw [h2, bufByte_memWrite]
    by_cases hb : b = a
    · subst hb
      simp [hna]
    · simp [hb]

/-- Painting the block of one point never fails, and changes exactly the bits the point covers. -/
theorem editPoint_spec (s : State) {f : Byte → Nat → Byte → Byte} {g : Nat → Nat → Bool → Bool} (hf : Masked f g)
    (p : Point) (m : Memory) :
    ∃ m', editPoint s f p m = some m' ∧
      (∀ b i, i < 8 → ((s.covers p b i →
          (bufByte s.bufStamp m' b).getLsbD i = g b i ((bufByte s.bufStamp m b).getLsbD i)) ∧
        (¬ s.covers p b i → (bufByte s.bufStamp m' b).getLsbD i = (bufByte s.bufStamp m b).getLsbD i))) ∧
      (∀ b, (∀ u v, s.mapPoint p = some (u, v) → b ∉ s.blockAddrs u v) →
        bufByte s.bufStamp m' b = bufByte s.bufStamp m b) ∧
      (Memory.wf m = true → Memory.wf m' = true) ∧
      (memBelow (bufSize s.params) m = true → memBelow (bufSize s.params) m' = true) := by
  unfold editPoint
  cases hm : s.mapPoint p with
  | none =>
    refine ⟨m, rfl, fun b i _ => ⟨?_, fun _ => rfl⟩, fun b _ => rfl, id, id⟩
    rintro ⟨u, v, h, -⟩
    rw [hm] at h
    cases h
  | some uv =>
    obtain ⟨u, v⟩ := uv
    obtain ⟨m', h1, h2, h3, h4⟩ :=
      editBytes_spec s (f (blockMask s.fbr.scale.factor u)) (s.blockAddrs u v) m (blockAddrs_nodup hm)
        fun a ha => blockAddrs_lt hm ha
    refine ⟨m', h1, fun b i hi => ⟨?_, ?_⟩, fun b hb => ?_, h3, h4⟩
    · rintro ⟨u', v', h, hb, hbit⟩
      rw [hm] at h
      obtain ⟨rfl, rfl⟩ : u = u' ∧ v = v' := by simpa using h
      rw [h2, if_pos hb, hf _ _ _ _ hi, if_pos hbit]
    · intro hc
      rw [h2]
      split
      · rename_i hb
        rw [hf _ _ _ _ hi, if_neg]
        intro hbit
        exact hc ⟨u, v, hm, hb, hbit⟩
      · rfl
    · rw [h2, if_neg (hb u v rfl)]

/-- Painting a list of distinct points never fails, and changes exactly the bits its points cover (43_fb_pixel.md
R225, R226). -/
theorem editPoints_spec (s : State) {f : Byte → Nat → Byte → Byte} {g : Nat → Nat → Bool → Bool} (hf : Masked f g)
    (ps : List Point) (hn : ps.Nodup) (m : Memory) :
    ∃ m', editPoints s f ps m = some m' ∧
      (∀ b i, i < 8 → (((∃ p ∈ ps, s.covers p b i) →
          (bufByte s.bufStamp m' b).getLsbD i = g b i ((bufByte s.bufStamp m b).getLsbD i)) ∧
        ((¬ ∃ p ∈ ps, s.covers p b i) →
          (bufByte s.bufStamp m' b).getLsbD i = (bufByte s.bufStamp m b).getLsbD i))) ∧
      (∀ b, (∀ p ∈ ps, ∀ u v, s.mapPoint p = some (u, v) → b ∉ s.blockAddrs u v) →
        bufByte s.bufStamp m' b = bufByte s.bufStamp m b) ∧
      (Memory.wf m = true → Memory.wf m' = true) ∧
      (memBelow (bufSize s.params) m = true → memBelow (bufSize s.params) m' = true) := by
  induction ps generalizing m with
  | nil => exact ⟨m, rfl, by simp, by simp, id, id⟩
  | cons p ps ih =>
    obtain ⟨hnp, hn⟩ := List.nodup_cons.1 hn
    obtain ⟨m1, e1, b1, f1, s1, l1⟩ := editPoint_spec s hf p m
    obtain ⟨m2, e2, b2, f2, s2, l2⟩ := ih hn m1
    refine ⟨m2, by simp [editPoints, e1, e2], fun b i hi => ⟨?_, ?_⟩, fun b hb => ?_, fun h => s2 (s1 h),
      fun h => l2 (l1 h)⟩
    · rintro ⟨q, hq, hc⟩
      rcases List.mem_cons.1 hq with rfl | hq
      · have hno : ¬ ∃ p' ∈ ps, s.covers p' b i := by
          rintro ⟨p', hp', hc'⟩
          exact hnp (covers_inj hc hc' ▸ hp')
        rw [(b2 b i hi).2 hno, (b1 b i hi).1 hc]
      · have hno : ¬ s.covers p b i := fun hc' => hnp (covers_inj hc' hc ▸ hq)
        rw [(b2 b i hi).1 ⟨q, hq, hc⟩, (b1 b i hi).2 hno]
    · intro hno
      rw [(b2 b i hi).2 fun ⟨q, hq, hc⟩ => hno ⟨q, List.mem_cons_of_mem _ hq, hc⟩,
        (b1 b i hi).2 fun hc => hno ⟨p, by simp, hc⟩]
    · rw [f2 b fun q hq => hb q (List.mem_cons_of_mem _ hq), f1 b (hb p (by simp))]

/-- Freeing bytes keeps the canonical form, stays below BUF_SIZE, and leaves every other byte as it reads
(60_exceptions.md R302). -/
theorem freeBytes_spec (p : Params) (stamp : Nat) (as : List Nat) (m : Memory) :
    (Memory.wf m = true → Memory.wf (freeBytes p stamp as m) = true) ∧
    (memBelow (bufSize p) m = true → memBelow (bufSize p) (freeBytes p stamp as m) = true) ∧
    ∀ b, b ∉ as → memLookup (freeBytes p stamp as m) b = memLookup m b := by
  induction as generalizing m with
  | nil => exact ⟨id, id, fun _ _ => rfl⟩
  | cons a as ih =>
    have hcons : freeBytes p stamp (a :: as) m =
        freeBytes p stamp as (if a < bufSize p then memWrite m a (Config.anyByte stamp a) else m) := rfl
    rw [hcons]
    by_cases ha : a < bufSize p
    · rw [if_pos ha]
      obtain ⟨h1, h2, h3⟩ := ih (memWrite m a (Config.anyByte stamp a))
      refine ⟨fun h => h1 (memory_wf_memWrite _ _ _ h), fun h => h2 (memBelow_memWrite _ _ _ _ ha h), fun b hb => ?_⟩
      simp only [List.mem_cons, not_or] at hb
      rw [h3 b hb.2, memLookup_memWrite_of_ne _ _ hb.1]
    · rw [if_neg ha]
      obtain ⟨h1, h2, h3⟩ := ih m
      exact ⟨h1, h2, fun b hb => h3 b fun hin => hb (List.mem_cons_of_mem _ hin)⟩

/-- The frame buffer of the reset state is in canonical form. -/
theorem reset_memory_wf : Memory.wf State.reset.fbr.buf = true := rfl

end Sys2Proof.Machine
end

