-- ==== Sys2Proof/Laws/PerInstr.lean ====
section
/-!
SUPPORT. A law said of every command: its encoding is its row of the opcode map (30_encoding.md R80 to R86).
-/
namespace Sys2Proof.Laws

/-- The fields of a header word are the opcode byte and the immediate it is made of (30_encoding.md R81). -/
theorem opcodeField_headerWord (op : Op) (imm : BitVec 24) : opcodeField (headerWord op imm) = op.byte := by
  refine BitVec.eq_of_getLsbD_eq fun i hi => ?_
  simp only [opcodeField, headerWord, BitVec.getLsbD_extractLsb', BitVec.getLsbD_append, decide_eq_true hi,
    Bool.true_and]
  rw [if_neg (by omega), show 24 + i - 24 = i by omega]

theorem immField_headerWord (op : Op) (imm : BitVec 24) : immField (headerWord op imm) = imm := by
  refine BitVec.eq_of_getLsbD_eq fun i hi => ?_
  simp only [immField, headerWord, BitVec.getLsbD_extractLsb', BitVec.getLsbD_append, decide_eq_true hi,
    Bool.true_and, Nat.zero_add]
  rw [if_pos hi]

/-- A field of `w` bits, zero-extended to `imm`, sets no bit outside the field. -/
theorem immReserved_setWidth (f : ImmForm) (x : BitVec f.width) (h : f.width ≤ 24) :
    immReserved f (x.setWidth 24) = false := by
  simp only [immReserved, decide_eq_false_iff_not, not_le]
  rw [BitVec.toNat_setWidth_of_le h]
  exact x.isLt

/-- The high half of an encoded RADIUS word is 0 (30_encoding.md R83). -/
theorem argReserved_wordOfRadius (r : Int) : argReserved .radius (wordOfRadius r) = false := by
  simp only [argReserved, bne_eq_false_iff_eq]
  refine BitVec.eq_of_getLsbD_eq fun i hi => ?_
  simp only [hiHalf, wordOfRadius, BitVec.getLsbD_extractLsb', BitVec.getLsbD_append, decide_eq_true hi,
    Bool.true_and]
  rw [if_neg (by omega)]
  simp

/-- The words of a command: the opcode of its row, as many argument words as the row has, every reserved bit 0. -/
def EncodesItsRow.Statement (i : Instr) : Prop :=
  opcodeField i.header = i.op.byte ∧ i.args.length = i.op.argc ∧
    immReserved i.op.immForm (immField i.header) = false ∧ argsReserved i.op.argForms i.args = false

/-- The law from what is left of it for each command. -/
theorem encodesItsRow_of_parts (i : Instr) (h1 : i.args.length = i.op.argc)
    (h2 : immReserved i.op.immForm i.imm = false) (h3 : argsReserved i.op.argForms i.args = false) :
    EncodesItsRow.Statement i :=
  ⟨opcodeField_headerWord i.op i.imm, h1, by rw [Instr.header, immField_headerWord]; exact h2, h3⟩

theorem EncodesItsRow.irSetp (idx : BitVec 8) (value : Word) : EncodesItsRow.Statement (.irSetp idx value) :=
  encodesItsRow_of_parts _ rfl (immReserved_setWidth .idx8 idx (by decide)) rfl

theorem EncodesItsRow.irGetp (idx : BitVec 8) : EncodesItsRow.Statement (.irGetp idx) :=
  encodesItsRow_of_parts _ rfl (immReserved_setWidth .idx8 idx (by decide)) rfl

theorem EncodesItsRow.irSend (p1 p2 pd ovr : Word) : EncodesItsRow.Statement (.irSend p1 p2 pd ovr) :=
  encodesItsRow_of_parts _ rfl rfl rfl

theorem EncodesItsRow.irStatus : EncodesItsRow.Statement .irStatus :=
  encodesItsRow_of_parts _ rfl rfl rfl

theorem EncodesItsRow.fbSetscale (v : BitVec 8) : EncodesItsRow.Statement (.fbSetscale v) :=
  encodesItsRow_of_parts _ rfl (immReserved_setWidth .scale8 v (by decide)) rfl

theorem EncodesItsRow.fbSetrotate (v : Rotation) : EncodesItsRow.Statement (.fbSetrotate v) :=
  encodesItsRow_of_parts _ rfl (immReserved_setWidth .rot2 v.code (by decide)) rfl

theorem EncodesItsRow.fbSetmirror (v : Mirror) : EncodesItsRow.Statement (.fbSetmirror v) :=
  encodesItsRow_of_parts _ rfl (immReserved_setWidth .mir2 v.code (by decide)) rfl

theorem EncodesItsRow.fbSetwritemode (v : BitVec 3) : EncodesItsRow.Statement (.fbSetwritemode v) :=
  encodesItsRow_of_parts _ rfl (immReserved_setWidth .wm3 v (by decide)) rfl

theorem EncodesItsRow.fbSetcolour (c : Colour) : EncodesItsRow.Statement (.fbSetcolour c) :=
  encodesItsRow_of_parts _ rfl (immReserved_setWidth .col1 c.bit (by decide)) rfl

theorem EncodesItsRow.fbSetfont (f : BitVec 16) : EncodesItsRow.Statement (.fbSetfont f) :=
  encodesItsRow_of_parts _ rfl (immReserved_setWidth .font16 f (by decide)) rfl

theorem EncodesItsRow.fbClear (c : Colour) : EncodesItsRow.Statement (.fbClear c) :=
  encodesItsRow_of_parts _ rfl (immReserved_setWidth .col1 c.bit (by decide)) rfl

theorem EncodesItsRow.fbPaintpixel (c : Colour) (p : Point) : EncodesItsRow.Statement (.fbPaintpixel c p) :=
  encodesItsRow_of_parts _ rfl (immReserved_setWidth .col1 c.bit (by decide)) rfl

theorem EncodesItsRow.fbDrawline (p0 p1 : Point) : EncodesItsRow.Statement (.fbDrawline p0 p1) :=
  encodesItsRow_of_parts _ rfl rfl rfl

theorem EncodesItsRow.fbDrawrect (p0 p1 : Point) : EncodesItsRow.Statement (.fbDrawrect p0 p1) :=
  encodesItsRow_of_parts _ rfl rfl rfl

theorem EncodesItsRow.fbDrawopenrect (p0 p1 : Point) : EncodesItsRow.Statement (.fbDrawopenrect p0 p1) :=
  encodesItsRow_of_parts _ rfl rfl rfl

theorem EncodesItsRow.fbDrawcircle (centre : Point) (r : Int) : EncodesItsRow.Statement (.fbDrawcircle centre r) :=
  encodesItsRow_of_parts _ rfl rfl (by
    simp only [Instr.op, Op.argForms, Instr.args, argsReserved, argReserved_wordOfRadius, Bool.or_false]; rfl)

theorem EncodesItsRow.fbDrawopencircle (centre : Point) (r : Int) : EncodesItsRow.Statement (.fbDrawopencircle centre r) :=
  encodesItsRow_of_parts _ rfl rfl (by
    simp only [Instr.op, Op.argForms, Instr.args, argsReserved, argReserved_wordOfRadius, Bool.or_false]; rfl)

theorem EncodesItsRow.fbWriteimage (origin : Point) (size : Size) (source : Word) : EncodesItsRow.Statement (.fbWriteimage origin size source) :=
  encodesItsRow_of_parts _ rfl rfl rfl

theorem EncodesItsRow.fbMoveto (p : Point) : EncodesItsRow.Statement (.fbMoveto p) :=
  encodesItsRow_of_parts _ rfl rfl rfl

theorem EncodesItsRow.fbDrawchar (code : BitVec 8) : EncodesItsRow.Statement (.fbDrawchar code) :=
  encodesItsRow_of_parts _ rfl (immReserved_setWidth .char8 code (by decide)) rfl

theorem EncodesItsRow.fbReadb (address : Word) : EncodesItsRow.Statement (.fbReadb address) :=
  encodesItsRow_of_parts _ rfl rfl rfl

theorem EncodesItsRow.fbStatus : EncodesItsRow.Statement .fbStatus :=
  encodesItsRow_of_parts _ rfl rfl rfl

theorem EncodesItsRow.fbGetcursor : EncodesItsRow.Statement .fbGetcursor :=
  encodesItsRow_of_parts _ rfl rfl rfl

theorem EncodesItsRow.fbGetfont : EncodesItsRow.Statement .fbGetfont :=
  encodesItsRow_of_parts _ rfl rfl rfl

theorem EncodesItsRow.fbGetsize : EncodesItsRow.Statement .fbGetsize :=
  encodesItsRow_of_parts _ rfl rfl rfl

end Sys2Proof.Laws
end

