-- ==== Sys2Proof/Laws/State.lean ====
section
/-!
SUPPORT. One lemma per field for each named update of the state: what `respond`, `enterFault`, `resetBlock`,
`advanceCursor`, `withFetchWord`, `emit`, `withState`, `rejectSend` and `postExpiry` write and what they leave alone.
-/
namespace Sys2Proof.Machine

@[simp] theorem respond_fault (v : Word) (s : State) : (respond v s).fault = s.fault := rfl
@[simp] theorem respond_ire (v : Word) (s : State) : (respond v s).ire = s.ire := rfl
@[simp] theorem respond_fbr (v : Word) (s : State) : (respond v s).fbr = s.fbr := rfl
@[simp] theorem respond_params (v : Word) (s : State) : (respond v s).params = s.params := rfl
@[simp] theorem respond_boundary (v : Word) (s : State) : (respond v s).boundary = s.boundary := rfl
@[simp] theorem respond_port (v : Word) (s : State) : (respond v s).port = s.port := rfl
@[simp] theorem respond_inbox (v : Word) (s : State) : (respond v s).inbox = s.inbox := rfl
@[simp] theorem respond_outbox (v : Word) (s : State) : (respond v s).outbox = s.outbox ++ [v] := rfl
@[simp] theorem respond_freeCtr (v : Word) (s : State) : (respond v s).freeCtr = s.freeCtr := rfl
@[simp] theorem respond_bufStamp (v : Word) (s : State) : (respond v s).bufStamp = s.bufStamp := rfl

@[simp] theorem enterFault_fault (c : FaultCode) (o : BitVec 8) (s : State) : (enterFault c o s).fault = ⟨some c, o⟩ := rfl
@[simp] theorem enterFault_ire (c : FaultCode) (o : BitVec 8) (s : State) : (enterFault c o s).ire = { s.ire with gen := { s.ire.gen with active := false } } := rfl
@[simp] theorem enterFault_fbr (c : FaultCode) (o : BitVec 8) (s : State) : (enterFault c o s).fbr = s.fbr := rfl
@[simp] theorem enterFault_params (c : FaultCode) (o : BitVec 8) (s : State) : (enterFault c o s).params = s.params := rfl
@[simp] theorem enterFault_boundary (c : FaultCode) (o : BitVec 8) (s : State) : (enterFault c o s).boundary = s.boundary := rfl
@[simp] theorem enterFault_port (c : FaultCode) (o : BitVec 8) (s : State) : (enterFault c o s).port = s.port := rfl
@[simp] theorem enterFault_inbox (c : FaultCode) (o : BitVec 8) (s : State) : (enterFault c o s).inbox = s.inbox := rfl
@[simp] theorem enterFault_outbox (c : FaultCode) (o : BitVec 8) (s : State) : (enterFault c o s).outbox = s.outbox := rfl
@[simp] theorem enterFault_freeCtr (c : FaultCode) (o : BitVec 8) (s : State) : (enterFault c o s).freeCtr = s.freeCtr := rfl
@[simp] theorem enterFault_bufStamp (c : FaultCode) (o : BitVec 8) (s : State) : (enterFault c o s).bufStamp = s.bufStamp := rfl

@[simp] theorem resetBlock_fault (s : State) : (resetBlock s).fault = FaultReg.reset := rfl
@[simp] theorem resetBlock_ire (s : State) : (resetBlock s).ire = Ire.reset := rfl
@[simp] theorem resetBlock_fbr (s : State) : (resetBlock s).fbr = Fbr.reset := rfl
@[simp] theorem resetBlock_params (s : State) : (resetBlock s).params = s.params := rfl
@[simp] theorem resetBlock_boundary (s : State) : (resetBlock s).boundary = 0 := rfl
@[simp] theorem resetBlock_port (s : State) : (resetBlock s).port = s.port := rfl
@[simp] theorem resetBlock_inbox (s : State) : (resetBlock s).inbox = s.inbox := rfl
@[simp] theorem resetBlock_outbox (s : State) : (resetBlock s).outbox = s.outbox := rfl
@[simp] theorem resetBlock_freeCtr (s : State) : (resetBlock s).freeCtr = s.freeCtr + 1 := rfl
@[simp] theorem resetBlock_bufStamp (s : State) : (resetBlock s).bufStamp = s.freeCtr := rfl

@[simp] theorem advanceCursor_fault (w : BitVec 16) (s : State) : (advanceCursor w s).fault = s.fault := rfl
@[simp] theorem advanceCursor_ire (w : BitVec 16) (s : State) : (advanceCursor w s).ire = s.ire := rfl
@[simp] theorem advanceCursor_fbr (w : BitVec 16) (s : State) : (advanceCursor w s).fbr = { s.fbr with cursorX := s.fbr.cursorX + w } := rfl
@[simp] theorem advanceCursor_params (w : BitVec 16) (s : State) : (advanceCursor w s).params = s.params := rfl
@[simp] theorem advanceCursor_boundary (w : BitVec 16) (s : State) : (advanceCursor w s).boundary = s.boundary := rfl
@[simp] theorem advanceCursor_port (w : BitVec 16) (s : State) : (advanceCursor w s).port = s.port := rfl
@[simp] theorem advanceCursor_inbox (w : BitVec 16) (s : State) : (advanceCursor w s).inbox = s.inbox := rfl
@[simp] theorem advanceCursor_outbox (w : BitVec 16) (s : State) : (advanceCursor w s).outbox = s.outbox := rfl
@[simp] theorem advanceCursor_freeCtr (w : BitVec 16) (s : State) : (advanceCursor w s).freeCtr = s.freeCtr := rfl
@[simp] theorem advanceCursor_bufStamp (w : BitVec 16) (s : State) : (advanceCursor w s).bufStamp = s.bufStamp := rfl

@[simp] theorem withFetchWord_fault (s : State) (nbits w : Nat) : (s.withFetchWord nbits w).fault = s.fault := rfl
@[simp] theorem withFetchWord_ire (s : State) (nbits w : Nat) : (s.withFetchWord nbits w).ire = s.ire := rfl
@[simp] theorem withFetchWord_fbr (s : State) (nbits w : Nat) : (s.withFetchWord nbits w).fbr = s.fbr := rfl
@[simp] theorem withFetchWord_params (s : State) (nbits w : Nat) : (s.withFetchWord nbits w).params = s.params := rfl
@[simp] theorem withFetchWord_boundary (s : State) (nbits w : Nat) : (s.withFetchWord nbits w).boundary = s.boundary := rfl
@[simp] theorem withFetchWord_port (s : State) (nbits w : Nat) : (s.withFetchWord nbits w).port = tableCommand nbits w ++ s.port := rfl
@[simp] theorem withFetchWord_inbox (s : State) (nbits w : Nat) : (s.withFetchWord nbits w).inbox = s.inbox := rfl
@[simp] theorem withFetchWord_outbox (s : State) (nbits w : Nat) : (s.withFetchWord nbits w).outbox = s.outbox := rfl
@[simp] theorem withFetchWord_freeCtr (s : State) (nbits w : Nat) : (s.withFetchWord nbits w).freeCtr = s.freeCtr := rfl
@[simp] theorem withFetchWord_bufStamp (s : State) (nbits w : Nat) : (s.withFetchWord nbits w).bufStamp = s.bufStamp := rfl

@[simp] theorem respond_halted (v : Word) (s : State) : (respond v s).halted = s.halted := rfl
@[simp] theorem enterFault_halted (c : FaultCode) (o : BitVec 8) (s : State) : (enterFault c o s).halted = true := rfl
@[simp] theorem resetBlock_halted (s : State) : (resetBlock s).halted = false := rfl
@[simp] theorem advanceCursor_halted (w : BitVec 16) (s : State) : (advanceCursor w s).halted = s.halted := rfl
@[simp] theorem enterFault_irEnv (c : FaultCode) (o : BitVec 8) (s : State) : (enterFault c o s).irEnv = false := rfl
@[simp] theorem resetBlock_irEnv (s : State) : (resetBlock s).irEnv = false := rfl
@[simp] theorem respond_readByte (v : Word) (s : State) (a : Nat) : (respond v s).readByte a = s.readByte a := rfl
@[simp] theorem enterFault_readByte (c : FaultCode) (o : BitVec 8) (s : State) (a : Nat) :
    (enterFault c o s).readByte a = s.readByte a := rfl
@[simp] theorem advanceCursor_readByte (w : BitVec 16) (s : State) (a : Nat) :
    (advanceCursor w s).readByte a = s.readByte a := rfl

@[simp] theorem emit_staging (m sp : Word) (r : Ire) : (emit m sp r).staging = r.staging := rfl
@[simp] theorem emit_gen (m sp : Word) (r : Ire) : (emit m sp r).gen = genLoad m sp := rfl
@[simp] theorem emit_post (m sp : Word) (r : Ire) : (emit m sp r).post = r.post := rfl
@[simp] theorem emit_P (m sp : Word) (r : Ire) : (emit m sp r).ses.P = r.ses.P := rfl
@[simp] theorem emit_state (m sp : Word) (r : Ire) : (emit m sp r).ses.state = r.ses.state := rfl
@[simp] theorem emit_pay1 (m sp : Word) (r : Ire) : (emit m sp r).ses.pay1 = r.ses.pay1 := rfl
@[simp] theorem emit_pay2 (m sp : Word) (r : Ire) : (emit m sp r).ses.pay2 = r.ses.pay2 := rfl
@[simp] theorem emit_L (m sp : Word) (r : Ire) : (emit m sp r).ses.L = r.ses.L := rfl
@[simp] theorem emit_n (m sp : Word) (r : Ire) : (emit m sp r).ses.n = r.ses.n := rfl
@[simp] theorem emit_R (m sp : Word) (r : Ire) : (emit m sp r).ses.R = r.ses.R := rfl
@[simp] theorem emit_rem (m sp : Word) (r : Ire) : (emit m sp r).ses.rem = r.ses.rem := rfl
@[simp] theorem emit_elapsed (m sp : Word) (r : Ire) : (emit m sp r).ses.elapsed = r.ses.elapsed + m.setWidth 64 + sp.setWidth 64 := rfl
@[simp] theorem emit_startMark (m sp : Word) (r : Ire) : (emit m sp r).ses.startMark = r.ses.startMark := rfl
@[simp] theorem emit_postDelay (m sp : Word) (r : Ire) : (emit m sp r).ses.postDelay = r.ses.postDelay := rfl
@[simp] theorem emit_busy (m sp : Word) (r : Ire) : (emit m sp r).ses.busy = r.ses.busy := rfl
@[simp] theorem emit_cfgErr (m sp : Word) (r : Ire) : (emit m sp r).ses.cfgErr = r.ses.cfgErr := rfl

@[simp] theorem withState_staging (q : IrState) (r : Ire) : (withState q r).staging = r.staging := rfl
@[simp] theorem withState_gen (q : IrState) (r : Ire) : (withState q r).gen = r.gen := rfl
@[simp] theorem withState_post (q : IrState) (r : Ire) : (withState q r).post = r.post := rfl
@[simp] theorem withState_P (q : IrState) (r : Ire) : (withState q r).ses.P = r.ses.P := rfl
@[simp] theorem withState_state (q : IrState) (r : Ire) : (withState q r).ses.state = q := rfl
@[simp] theorem withState_pay1 (q : IrState) (r : Ire) : (withState q r).ses.pay1 = r.ses.pay1 := rfl
@[simp] theorem withState_pay2 (q : IrState) (r : Ire) : (withState q r).ses.pay2 = r.ses.pay2 := rfl
@[simp] theorem withState_L (q : IrState) (r : Ire) : (withState q r).ses.L = r.ses.L := rfl
@[simp] theorem withState_n (q : IrState) (r : Ire) : (withState q r).ses.n = r.ses.n := rfl
@[simp] theorem withState_R (q : IrState) (r : Ire) : (withState q r).ses.R = r.ses.R := rfl
@[simp] theorem withState_rem (q : IrState) (r : Ire) : (withState q r).ses.rem = r.ses.rem := rfl
@[simp] theorem withState_elapsed (q : IrState) (r : Ire) : (withState q r).ses.elapsed = r.ses.elapsed := rfl
@[simp] theorem withState_startMark (q : IrState) (r : Ire) : (withState q r).ses.startMark = r.ses.startMark := rfl
@[simp] theorem withState_postDelay (q : IrState) (r : Ire) : (withState q r).ses.postDelay = r.ses.postDelay := rfl
@[simp] theorem withState_busy (q : IrState) (r : Ire) : (withState q r).ses.busy = r.ses.busy := rfl
@[simp] theorem withState_cfgErr (q : IrState) (r : Ire) : (withState q r).ses.cfgErr = r.ses.cfgErr := rfl

@[simp] theorem rejectSend_staging (e : CfgErr) (r : Ire) : (rejectSend e r).staging = r.staging := rfl
@[simp] theorem rejectSend_gen (e : CfgErr) (r : Ire) : (rejectSend e r).gen = r.gen := rfl
@[simp] theorem rejectSend_post (e : CfgErr) (r : Ire) : (rejectSend e r).post = r.post := rfl
@[simp] theorem rejectSend_P (e : CfgErr) (r : Ire) : (rejectSend e r).ses.P = r.ses.P := rfl
@[simp] theorem rejectSend_state (e : CfgErr) (r : Ire) : (rejectSend e r).ses.state = r.ses.state := rfl
@[simp] theorem rejectSend_pay1 (e : CfgErr) (r : Ire) : (rejectSend e r).ses.pay1 = r.ses.pay1 := rfl
@[simp] theorem rejectSend_pay2 (e : CfgErr) (r : Ire) : (rejectSend e r).ses.pay2 = r.ses.pay2 := rfl
@[simp] theorem rejectSend_L (e : CfgErr) (r : Ire) : (rejectSend e r).ses.L = r.ses.L := rfl
@[simp] theorem rejectSend_n (e : CfgErr) (r : Ire) : (rejectSend e r).ses.n = r.ses.n := rfl
@[simp] theorem rejectSend_R (e : CfgErr) (r : Ire) : (rejectSend e r).ses.R = r.ses.R := rfl
@[simp] theorem rejectSend_rem (e : CfgErr) (r : Ire) : (rejectSend e r).ses.rem = r.ses.rem := rfl
@[simp] theorem rejectSend_elapsed (e : CfgErr) (r : Ire) : (rejectSend e r).ses.elapsed = r.ses.elapsed := rfl
@[simp] theorem rejectSend_startMark (e : CfgErr) (r : Ire) : (rejectSend e r).ses.startMark = r.ses.startMark := rfl
@[simp] theorem rejectSend_postDelay (e : CfgErr) (r : Ire) : (rejectSend e r).ses.postDelay = r.ses.postDelay := rfl
@[simp] theorem rejectSend_busy (e : CfgErr) (r : Ire) : (rejectSend e r).ses.busy = r.ses.busy := rfl
@[simp] theorem rejectSend_cfgErr (e : CfgErr) (r : Ire) : (rejectSend e r).ses.cfgErr = some e := rfl

@[simp] theorem postExpiry_staging (r : Ire) : (postExpiry r).staging = r.staging := rfl
@[simp] theorem postExpiry_gen (r : Ire) : (postExpiry r).gen = r.gen := rfl
@[simp] theorem postExpiry_post (r : Ire) : (postExpiry r).post = { r.post with active := false } := rfl
@[simp] theorem postExpiry_P (r : Ire) : (postExpiry r).ses.P = r.ses.P := rfl
@[simp] theorem postExpiry_state (r : Ire) : (postExpiry r).ses.state = r.ses.state := rfl
@[simp] theorem postExpiry_pay1 (r : Ire) : (postExpiry r).ses.pay1 = r.ses.pay1 := rfl
@[simp] theorem postExpiry_pay2 (r : Ire) : (postExpiry r).ses.pay2 = r.ses.pay2 := rfl
@[simp] theorem postExpiry_L (r : Ire) : (postExpiry r).ses.L = r.ses.L := rfl
@[simp] theorem postExpiry_n (r : Ire) : (postExpiry r).ses.n = r.ses.n := rfl
@[simp] theorem postExpiry_R (r : Ire) : (postExpiry r).ses.R = r.ses.R := rfl
@[simp] theorem postExpiry_rem (r : Ire) : (postExpiry r).ses.rem = r.ses.rem := rfl
@[simp] theorem postExpiry_elapsed (r : Ire) : (postExpiry r).ses.elapsed = r.ses.elapsed := rfl
@[simp] theorem postExpiry_startMark (r : Ire) : (postExpiry r).ses.startMark = r.ses.startMark := rfl
@[simp] theorem postExpiry_postDelay (r : Ire) : (postExpiry r).ses.postDelay = r.ses.postDelay := rfl
@[simp] theorem postExpiry_busy (r : Ire) : (postExpiry r).ses.busy = false := rfl
@[simp] theorem postExpiry_cfgErr (r : Ire) : (postExpiry r).ses.cfgErr = r.ses.cfgErr := rfl

@[simp] theorem emitStop_staging (r : Ire) : (emitStop r).staging = r.staging := rfl
@[simp] theorem emitStop_gen (r : Ire) : (emitStop r).gen = genLoad r.ses.P.zeroHigh r.ses.P.zeroLow := rfl
@[simp] theorem emitStop_post (r : Ire) : (emitStop r).post = r.post := rfl
@[simp] theorem emitStop_P (r : Ire) : (emitStop r).ses.P = r.ses.P := rfl
@[simp] theorem emitStop_state (r : Ire) : (emitStop r).ses.state = r.ses.state := rfl
@[simp] theorem emitStop_pay1 (r : Ire) : (emitStop r).ses.pay1 = r.ses.pay1 := rfl
@[simp] theorem emitStop_pay2 (r : Ire) : (emitStop r).ses.pay2 = r.ses.pay2 := rfl
@[simp] theorem emitStop_L (r : Ire) : (emitStop r).ses.L = r.ses.L := rfl
@[simp] theorem emitStop_n (r : Ire) : (emitStop r).ses.n = r.ses.n := rfl
@[simp] theorem emitStop_R (r : Ire) : (emitStop r).ses.R = r.ses.R := rfl
@[simp] theorem emitStop_rem (r : Ire) : (emitStop r).ses.rem = r.ses.rem := rfl
@[simp] theorem emitStop_elapsed (r : Ire) : (emitStop r).ses.elapsed = r.ses.elapsed + r.ses.P.zeroHigh.setWidth 64 + r.ses.P.zeroLow.setWidth 64 := rfl
@[simp] theorem emitStop_startMark (r : Ire) : (emitStop r).ses.startMark = r.ses.startMark := rfl
@[simp] theorem emitStop_postDelay (r : Ire) : (emitStop r).ses.postDelay = r.ses.postDelay := rfl
@[simp] theorem emitStop_busy (r : Ire) : (emitStop r).ses.busy = r.ses.busy := rfl
@[simp] theorem emitStop_cfgErr (r : Ire) : (emitStop r).ses.cfgErr = r.ses.cfgErr := rfl

@[simp] theorem emitBit_staging (i : Nat) (r : Ire) : (emitBit i r).staging = r.staging := by
  unfold emitBit
  dsimp only
  split <;> rfl
@[simp] theorem emitBit_post (i : Nat) (r : Ire) : (emitBit i r).post = r.post := by
  unfold emitBit
  dsimp only
  split <;> rfl
@[simp] theorem emitBit_P (i : Nat) (r : Ire) : (emitBit i r).ses.P = r.ses.P := by
  unfold emitBit
  dsimp only
  split <;> rfl
@[simp] theorem emitBit_state (i : Nat) (r : Ire) : (emitBit i r).ses.state = r.ses.state := by
  unfold emitBit
  dsimp only
  split <;> rfl
@[simp] theorem emitBit_pay1 (i : Nat) (r : Ire) : (emitBit i r).ses.pay1 = r.ses.pay1 := by
  unfold emitBit
  dsimp only
  split <;> rfl
@[simp] theorem emitBit_pay2 (i : Nat) (r : Ire) : (emitBit i r).ses.pay2 = r.ses.pay2 := by
  unfold emitBit
  dsimp only
  split <;> rfl
@[simp] theorem emitBit_L (i : Nat) (r : Ire) : (emitBit i r).ses.L = r.ses.L := by
  unfold emitBit
  dsimp only
  split <;> rfl
@[simp] theorem emitBit_n (i : Nat) (r : Ire) : (emitBit i r).ses.n = BitVec.ofNat 7 (i + 1) := rfl
@[simp] theorem emitBit_R (i : Nat) (r : Ire) : (emitBit i r).ses.R = r.ses.R := by
  unfold emitBit
  dsimp only
  split <;> rfl
@[simp] theorem emitBit_rem (i : Nat) (r : Ire) : (emitBit i r).ses.rem = r.ses.rem := by
  unfold emitBit
  dsimp only
  split <;> rfl
@[simp] theorem emitBit_startMark (i : Nat) (r : Ire) : (emitBit i r).ses.startMark = r.ses.startMark := by
  unfold emitBit
  dsimp only
  split <;> rfl
@[simp] theorem emitBit_postDelay (i : Nat) (r : Ire) : (emitBit i r).ses.postDelay = r.ses.postDelay := by
  unfold emitBit
  dsimp only
  split <;> rfl
@[simp] theorem emitBit_busy (i : Nat) (r : Ire) : (emitBit i r).ses.busy = r.ses.busy := by
  unfold emitBit
  dsimp only
  split <;> rfl
@[simp] theorem emitBit_cfgErr (i : Nat) (r : Ire) : (emitBit i r).ses.cfgErr = r.ses.cfgErr := by
  unfold emitBit
  dsimp only
  split <;> rfl

/-- The pair EMIT_BIT(i) emits (41_ir_sequencer.md R145). -/
theorem emitBit_gen (i : Nat) (r : Ire) : (emitBit i r).gen =
    if dataBit r.ses i then genLoad r.ses.P.oneHigh r.ses.P.oneLow
    else genLoad r.ses.P.zeroHigh r.ses.P.zeroLow := by
  unfold emitBit
  dsimp only
  split <;> rfl

/-- The ticks EMIT_BIT(i) counts (41_ir_sequencer.md R145). -/
theorem emitBit_elapsed (i : Nat) (r : Ire) : (emitBit i r).ses.elapsed =
    if dataBit r.ses i then r.ses.elapsed + r.ses.P.oneHigh.setWidth 64 + r.ses.P.oneLow.setWidth 64
    else r.ses.elapsed + r.ses.P.zeroHigh.setWidth 64 + r.ses.P.zeroLow.setWidth 64 := by
  unfold emitBit
  dsimp only
  split <;> rfl

@[simp] theorem genLoad_active (m sp : Word) : (genLoad m sp).active = true := by
  unfold genLoad
  split <;> rfl
@[simp] theorem genLoad_m (m sp : Word) : (genLoad m sp).m = m := by
  unfold genLoad
  split <;> rfl
@[simp] theorem genLoad_s (m sp : Word) : (genLoad m sp).s = sp := by
  unfold genLoad
  split <;> rfl

end Sys2Proof.Machine
end

