-- ==== Sys2Proof/Laws/Step.lean ====
section
/-!
SUPPORT. What a step can do: every command answers a next state, and a step is a tick, a command, or a word that is no
well-formed command.
-/
namespace Sys2Proof.Machine

/-- The meaning of every command answers a next state: faults of the block are next states (60_exceptions.md R302). -/
theorem exec_answers_next (i : Instr) (s : State) : ∃ t, exec i s = .next t := by
  cases i <;> exact ⟨_, rfl⟩

/-- What a step can do, when it answers a next state. -/
theorem step_cases {s t : State} (h : step s = .next t) :
    (s.port = [] ∧ tick s = .next t) ∨
    (∃ hd ws i rest, s.port = hd :: ws ∧ decode hd ws = .command i rest ∧
      exec i { s with port := rest } = .next t) ∨
    (∃ hd ws op rest, s.port = hd :: ws ∧ decode hd ws = .illegalOpcode op rest ∧
      t = illegalOpcode op { s with port := rest }) ∨
    (∃ hd ws op rest, s.port = hd :: ws ∧ decode hd ws = .reservedBits op rest ∧
      t = reservedBits op { s with port := rest }) := by
  unfold step at h
  split at h
  · rename_i hp
    exact .inl ⟨hp, h⟩
  · rename_i hd ws hp
    split at h
    · rename_i i rest hdec
      exact .inr (.inl ⟨hd, ws, i, rest, hp, hdec, h⟩)
    · rename_i op rest hdec
      exact .inr (.inr (.inl ⟨hd, ws, op, rest, hp, hdec, by simpa using h.symm⟩))
    · rename_i op rest hdec
      exact .inr (.inr (.inr ⟨hd, ws, op, rest, hp, hdec, by simpa using h.symm⟩))
    · cases h

/-- What a tick can do, when it answers a next state. -/
theorem tick_cases {s t : State} (h : tick s = .next t) :
    ((resetDue s = true ∨ s.halted = true) ∧ t = nextBoundary s) ∨
    (resetDue s = false ∧ s.halted = false ∧ ∃ r, tickIre s.ire = .ok r ∧ t = nextBoundary { s with ire := r }) := by
  unfold tick at h
  split at h
  · rename_i hc
    simp only [Bool.or_eq_true] at hc
    exact .inl ⟨hc, by simpa using h.symm⟩
  · rename_i hc
    simp only [Bool.or_eq_true, not_or, Bool.not_eq_true] at hc
    split at h
    · rename_i r hr
      exact .inr ⟨hc.1, hc.2, r, hr, by simpa using h.symm⟩
    · cases h

/-- What the next boundary brings: nothing from the host, words, or a reset and words (20_memory.md R74). -/
theorem nextBoundary_cases (s : State) :
    (s.inbox = [] ∧ nextBoundary s = { s with boundary := s.boundary + 1 }) ∨
    (∃ d ds, s.inbox = d :: ds ∧ d.reset = false ∧
      nextBoundary s = { s with boundary := s.boundary + 1, port := s.port ++ d.words, inbox := ds }) ∨
    (∃ d ds, s.inbox = d :: ds ∧ d.reset = true ∧
      nextBoundary s =
        resetBlock { s with boundary := s.boundary + 1, port := s.port ++ d.words, inbox := ds }) := by
  unfold nextBoundary
  split
  · rename_i h
    exact .inl ⟨h, rfl⟩
  · rename_i d ds h
    cases hd : d.reset
    · exact .inr (.inl ⟨d, ds, h, hd, by simp⟩)
    · exact .inr (.inr ⟨d, ds, h, hd, by simp⟩)

/-- A command that is no query does nothing to a halted block (60_exceptions.md R303). -/
@[simp] theorem command_of_halted {effect : State → State} {s : State} (h : s.halted = true) :
    command effect s = s := by simp [command, h]

/-- A command has its effect on a running block. -/
@[simp] theorem command_of_running {effect : State → State} {s : State} (h : s.halted = false) :
    command effect s = effect s := by simp [command, h]

/-- What a query can do: answer, answer 0 while halted, or fault (60_exceptions.md R303). -/
theorem query_cases (c : FaultCode) (o : BitVec 8) (v : Option Word) (s : State) :
    (∃ w, v = some w ∧ query c o v s = respond w s) ∨
    (v = none ∧ s.halted = true ∧ query c o v s = respond 0#32 s) ∨
    (v = none ∧ s.halted = false ∧ query c o v s = enterFault c o s) := by
  cases v with
  | some w => exact .inl ⟨w, rfl, rfl⟩
  | none =>
    cases h : s.halted
    · exact .inr (.inr ⟨rfl, rfl, by simp [query, queryFault, h]⟩)
    · exact .inr (.inl ⟨rfl, rfl, by simp [query, queryFault, h]⟩)

/-- A register of a bank reads as written, and every other as before (10_state.md R24). -/
theorem bankGet_bankSet (b : Bank) (r q : ParamReg) (v : Word) :
    bankGet (bankSet b r v) q = if q = r then v else bankGet b q := by
  cases r <;> cases q <;> rfl

/-- The index of a staging register names it (10_state.md R24). -/
@[simp] theorem ofIndex?_index (r : ParamReg) : ParamReg.ofIndex? r.index = some r := by cases r <;> rfl

/-- The opcode byte of an opcode names it (30_encoding.md R85). -/
@[simp] theorem Op.ofByte?_byte (op : Op) : Op.ofByte? op.byte = some op := by cases op <;> rfl

end Sys2Proof.Machine
end

