-- ==== Sys2Proof/Machine/Assembler.lean ====
section
/-!
DEFINITION. The assembler syntax and the pseudo-commands of 30_encoding.md R95 and R96: how a line of text names the
commands of the port, and the host loop IR_WAIT. The block itself takes words only. What R95 leaves open of the text
(white space, letter case, the number form of a radius, the character set, and more) is log 18.
-/
namespace Sys2Proof.Machine

/-! ## Text -/

/-- The single quote of 30_encoding.md R95. -/
def quoteChar : Char := Char.ofNat 39

/-- The comma between operands. -/
def commaChar : Char := Char.ofNat 44

/-- The semicolon that starts a comment. -/
def commentChar : Char := Char.ofNat 59

/-- White space: blank and tab. -/
def isBlank (c : Char) : Bool := c.toNat == 32 || c.toNat == 9

/-- A line without its comment; a semicolon between single quotes is a character (30_encoding.md R95). -/
def stripComment (quoted : Bool) : List Char → List Char
  | [] => []
  | c :: cs =>
    if c = quoteChar then c :: stripComment (!quoted) cs
    else if c = commentChar ∧ quoted = false then []
    else c :: stripComment quoted cs

/-- The pieces of an operand field at its commas outside quotes. -/
def splitOperands (quoted : Bool) (piece : List Char) : List Char → List (List Char)
  | [] => [piece]
  | c :: cs =>
    if c = quoteChar then splitOperands (!quoted) (piece ++ [c]) cs
    else if c = commaChar ∧ quoted = false then piece :: splitOperands false [] cs
    else splitOperands quoted (piece ++ [c]) cs

/-- Text without blanks before and after it. -/
def trimBlanks (cs : List Char) : List Char := ((cs.dropWhile isBlank).reverse.dropWhile isBlank).reverse

/-- The operands of an operand field; none in an empty one. -/
def operandsOf (cs : List Char) : List (List Char) :=
  if trimBlanks cs = [] then [] else (splitOperands false [] cs).map trimBlanks

/-! ## Numbers, names and characters -/

/-- The value of a digit in a base up to 16. -/
def digitValue (base : Nat) (c : Char) : Option Nat :=
  let k := c.toNat
  let d := if 48 ≤ k ∧ k ≤ 57 then k - 48 else if 65 ≤ k ∧ k ≤ 70 then k - 55 else if 97 ≤ k ∧ k ≤ 102 then k - 87
    else 16
  if d < base then some d else none

/-- The value of a run of digits after the value read so far. -/
def digitsValue (base acc : Nat) : List Char → Option Nat
  | [] => some acc
  | c :: cs => (digitValue base c).bind fun d => digitsValue base (acc * base + d) cs

/-- A run of at least one decimal digit. -/
def decimalOf (cs : List Char) : Option Nat := if cs = [] then none else digitsValue 10 0 cs

/-- A number: decimal, or hexadecimal with `0x` (30_encoding.md R95). -/
def numberOf (cs : List Char) : Option Nat :=
  if cs.take 2 = "0x".toList then (if cs.drop 2 = [] then none else digitsValue 16 0 (cs.drop 2)) else decimalOf cs

/-- A number that fits a field of `w` bits. -/
def fieldOf (w : Nat) (cs : List Char) : Option (BitVec w) :=
  (numberOf cs).bind fun n => if n < 2 ^ w then some (BitVec.ofNat w n) else none

/-- A coordinate or a radius: signed decimal, in its 16-bit field (30_encoding.md R83, R95). R95 says `signed decimal`
of coordinates, shows only the sign `-` in its examples, and says nothing of a radius. That a plus sign is refused
(`+3` is no coordinate), and that a radius is read as a coordinate, so that a hexadecimal one is refused, are the model's
DESIGN CHOICE (log 18). -/
def coordOf (cs : List Char) : Option Int :=
  let v := if cs.take 1 = "-".toList then (decimalOf (cs.drop 1)).map fun n => -(n : Int)
    else (decimalOf cs).map fun n => (n : Int)
  v.bind fun x => if coordOk x then some x else none

/-- A POINT operand, from its two coordinates. -/
def pointOf (x y : List Char) : Option Point := (coordOf x).bind fun a => (coordOf y).map fun b => ⟨a, b⟩

/-- A SIZE operand, from its two counts. -/
def sizeOf (w h : List Char) : Option Size :=
  (fieldOf 16 w).bind fun a => (fieldOf 16 h).map fun b => ⟨a.toNat, b.toNat⟩

/-- The entry of a table of names. -/
def nameIn {α : Type} (table : List (String × α)) (cs : List Char) : Option α :=
  (table.find? fun r => r.1.toList == cs).map Prod.snd

/-- The names of the staging registers (10_state.md R24). -/
def stagingNames : List (String × BitVec 8) :=
  [("CARRIER_HZ", 0x00#8), ("START_HIGH", 0x01#8), ("START_LOW", 0x02#8), ("ZERO_HIGH", 0x03#8), ("ZERO_LOW", 0x04#8),
   ("ONE_HIGH", 0x05#8), ("ONE_LOW", 0x06#8), ("REPEAT_HIGH", 0x07#8), ("REPEAT_LOW", 0x08#8),
   ("PACKET_LENGTH", 0x09#8), ("MIDDLE_STOP_BIT", 0x0A#8), ("REPEAT_COUNT", 0x0B#8), ("REPEAT_TIME", 0x0C#8),
   ("FLAGS", 0x0D#8)]

/-- The session and generator registers that 10_state.md R36 gives one name each. -/
def sessionNames : List (String × BitVec 8) :=
  [("state", 0x20#8), ("n", 0x21#8), ("L", 0x22#8), ("R", 0x23#8), ("rem", 0x24#8), ("elapsed[31:0]", 0x25#8),
   ("elapsed[63:32]", 0x26#8), ("pay1", 0x27#8), ("pay2", 0x28#8), ("postDelay", 0x29#8), ("post_left", 0x2A#8),
   ("startMark", 0x2B#8), ("gen_m", 0x2C#8), ("gen_s", 0x2D#8), ("gen_left", 0x2F#8)]

/-- A register of IR_SETP: a name of 10_state.md R24, or an index (30_encoding.md R95). -/
def setpRegOf (cs : List Char) : Option (BitVec 8) := (nameIn stagingNames cs).or (fieldOf 8 cs)

/-- A register of IR_GETP: a name of 10_state.md R24 or R36, or an index (30_encoding.md R95). -/
def getpRegOf (cs : List Char) : Option (BitVec 8) :=
  ((nameIn stagingNames cs).or (nameIn sessionNames cs)).or (fieldOf 8 cs)

/-- A colour by name (30_encoding.md R95). -/
def colourOf (cs : List Char) : Option Colour := nameIn [("BLACK", .black), ("WHITE", .white)] cs

/-- A rotation by its angle (30_encoding.md R95). -/
def rotationOf (cs : List Char) : Option Rotation :=
  nameIn [("0", .rotate0), ("90", .rotate90), ("180", .rotate180), ("270", .rotate270)] cs

/-- A mirror mode by name (30_encoding.md R95). -/
def mirrorOf (cs : List Char) : Option Mirror :=
  nameIn [("NONE", .none), ("X", .x), ("Y", .y), ("ORIGIN", .origin)] cs

/-- A write mode by name, as its code (30_encoding.md R95). -/
def writeModeOf (cs : List Char) : Option (BitVec 3) :=
  (nameIn [("WRITE", WriteMode.write), ("INVERSEWRITE", .inverseWrite), ("OR", .or), ("XOR", .xor),
    ("INVERSEAND", .inverseAnd)] cs).map WriteMode.code

/-- A scale by its value (30_encoding.md R95). -/
def scaleOf (cs : List Char) : Option (BitVec 8) := nameIn [("1", 1#8), ("2", 2#8), ("4", 4#8)] cs

/-- The characters between two single quotes, as 8-bit codes (30_encoding.md R95, R96). The spec names no character set;
that the code is the character's Unicode code point, and a character above code point 255 is refused, is the model's
DESIGN CHOICE (log 18). -/
def quotedCodes (cs : List Char) : Option (List (BitVec 8)) :=
  let inner := (cs.drop 1).dropLast
  if cs = quoteChar :: (inner ++ [quoteChar]) ∧ quoteChar ∉ inner ∧ inner.all (fun c => decide (c.toNat < 256)) then
    some (inner.map fun c => BitVec.ofNat 8 c.toNat)
  else none

/-- A character code: a number, or one character in single quotes (30_encoding.md R95). -/
def charOf (cs : List Char) : Option (BitVec 8) :=
  match quotedCodes cs with
  | some [k] => some k
  | some _ => none
  | none => fieldOf 8 cs

/-! ## Commands -/

/-- The mnemonics of 30_encoding.md R85. -/
def mnemonics : List (String × Op) :=
  [("IR_SETP", .irSetp), ("IR_GETP", .irGetp), ("IR_SEND", .irSend), ("IR_STATUS", .irStatus),
   ("FB_SETSCALE", .fbSetscale), ("FB_SETROTATE", .fbSetrotate), ("FB_SETMIRROR", .fbSetmirror),
   ("FB_SETWRITEMODE", .fbSetwritemode), ("FB_SETCOLOUR", .fbSetcolour), ("FB_SETFONT", .fbSetfont),
   ("FB_CLEAR", .fbClear), ("FB_PAINTPIXEL", .fbPaintpixel), ("FB_DRAWLINE", .fbDrawline),
   ("FB_DRAWRECT", .fbDrawrect), ("FB_DRAWOPENRECT", .fbDrawopenrect), ("FB_DRAWCIRCLE", .fbDrawcircle),
   ("FB_DRAWOPENCIRCLE", .fbDrawopencircle), ("FB_WRITEIMAGE", .fbWriteimage), ("FB_MOVETO", .fbMoveto),
   ("FB_DRAWCHAR", .fbDrawchar), ("FB_READB", .fbReadb), ("FB_STATUS", .fbStatus), ("FB_GETCURSOR", .fbGetcursor),
   ("FB_GETFONT", .fbGetfont), ("FB_GETSIZE", .fbGetsize)]

/-- The command of a mnemonic and its operands in the order of 30_encoding.md R95; `none` for any other text. -/
def commandOf (op : Op) (operands : List (List Char)) : Option Instr :=
  match op, operands with
  | .irSetp, [r, v] => (setpRegOf r).bind fun i => (fieldOf 32 v).map fun w => .irSetp i w
  | .irGetp, [r] => (getpRegOf r).map .irGetp
  | .irSend, [a, b, d, o] =>
    (fieldOf 32 a).bind fun a => (fieldOf 32 b).bind fun b => (fieldOf 32 d).bind fun d =>
      (fieldOf 32 o).map fun o => .irSend a b d o
  | .irStatus, [] => some .irStatus
  | .fbSetscale, [v] => (scaleOf v).map .fbSetscale
  | .fbSetrotate, [v] => (rotationOf v).map .fbSetrotate
  | .fbSetmirror, [v] => (mirrorOf v).map .fbSetmirror
  | .fbSetwritemode, [v] => (writeModeOf v).map .fbSetwritemode
  | .fbSetcolour, [c] => (colourOf c).map .fbSetcolour
  | .fbSetfont, [f] => (fieldOf 16 f).map .fbSetfont
  | .fbClear, [c] => (colourOf c).map .fbClear
  | .fbPaintpixel, [x, y, c] => (pointOf x y).bind fun p => (colourOf c).map fun k => .fbPaintpixel k p
  | .fbDrawline, [a, b, c, d] => (pointOf a b).bind fun p => (pointOf c d).map fun q => .fbDrawline p q
  | .fbDrawrect, [a, b, c, d] => (pointOf a b).bind fun p => (pointOf c d).map fun q => .fbDrawrect p q
  | .fbDrawopenrect, [a, b, c, d] => (pointOf a b).bind fun p => (pointOf c d).map fun q => .fbDrawopenrect p q
  | .fbDrawcircle, [x, y, r] => (pointOf x y).bind fun p => (coordOf r).map fun k => .fbDrawcircle p k
  | .fbDrawopencircle, [x, y, r] => (pointOf x y).bind fun p => (coordOf r).map fun k => .fbDrawopencircle p k
  | .fbWriteimage, [x, y, w, h, a] =>
    (pointOf x y).bind fun p => (sizeOf w h).bind fun z => (fieldOf 32 a).map fun k => .fbWriteimage p z k
  | .fbMoveto, [x, y] => (pointOf x y).map .fbMoveto
  | .fbDrawchar, [c] => (charOf c).map .fbDrawchar
  | .fbReadb, [a] => (fieldOf 32 a).map .fbReadb
  | .fbStatus, [] => some .fbStatus
  | .fbGetcursor, [] => some .fbGetcursor
  | .fbGetfont, [] => some .fbGetfont
  | .fbGetsize, [] => some .fbGetsize
  | _, _ => none

/-! ## Pseudo-commands -/

/-- IR_LOADPARAMS: one IR_SETP for each index, in index order, from the values (30_encoding.md R96). -/
def loadParams (vs : List Word) : List Instr := vs.zipIdx.map fun v => .irSetp (BitVec.ofNat 8 v.2) v.1

/-- The values of IR_LOADPARAMS: fourteen of them. -/
def paramValues (operands : List (List Char)) : Option (List Word) :=
  if operands.length = 14 then operands.mapM (fieldOf 32) else none

/-- FB_HLINE x0, x1, y (30_encoding.md R96). -/
def hlineOf (operands : List (List Char)) : Option Instr :=
  match operands with
  | [x0, x1, y] => commandOf .fbDrawline [x0, y, x1, y]
  | _ => none

/-- FB_VLINE x, y0, y1 (30_encoding.md R96). -/
def vlineOf (operands : List (List Char)) : Option Instr :=
  match operands with
  | [x, y0, y1] => commandOf .fbDrawline [x, y0, x, y1]
  | _ => none

/-- FB_TEXT: one FB_DRAWCHAR for each character, in order (30_encoding.md R96). -/
def textOf (operands : List (List Char)) : Option (List Instr) :=
  match operands with
  | [t] => (quotedCodes t).map fun ks => ks.map .fbDrawchar
  | _ => none

/-- What a line of text stands for: commands, or the host loop IR_WAIT (30_encoding.md R95, R96). -/
inductive AsmLine where
  | commands (is : List Instr)
  | wait
  deriving DecidableEq, Repr

/-- The pseudo-commands that 30_encoding.md R96 adds to the mnemonics. -/
inductive Pseudo where
  | wait | isBusy | loadParams | hline | vline | text
  deriving DecidableEq, Repr

/-- The pseudo-commands by name (30_encoding.md R96). -/
def pseudoNames : List (String × Pseudo) :=
  [("IR_WAIT", .wait), ("IR_ISBUSY", .isBusy), ("IR_LOADPARAMS", .loadParams), ("FB_HLINE", .hline),
   ("FB_VLINE", .vline), ("FB_TEXT", .text)]

/-- The expansion of a pseudo-command (30_encoding.md R96). -/
def expansionOf (k : Pseudo) (operands : List (List Char)) : Option AsmLine :=
  match k with
  | .wait => if operands = [] then some .wait else none
  | .isBusy => if operands = [] then some (.commands [.irStatus]) else none
  | .loadParams => (paramValues operands).map fun vs => .commands (loadParams vs)
  | .hline => (hlineOf operands).map fun i => .commands [i]
  | .vline => (vlineOf operands).map fun i => .commands [i]
  | .text => (textOf operands).map .commands

/-- A line of assembler text: a blank line or a comment is no command, any text outside 30_encoding.md R95 and R96 is
`none`. -/
def assembleLine (line : List Char) : Option AsmLine :=
  let body := trimBlanks (stripComment false line)
  if body = [] then some (.commands [])
  else
    let name := body.takeWhile fun c => !isBlank c
    let operands := operandsOf (body.dropWhile fun c => !isBlank c)
    match nameIn mnemonics name with
    | some op => (commandOf op operands).map fun i => .commands [i]
    | none => (nameIn pseudoNames name).bind fun k => expansionOf k operands

/-- The words of a line on the port; none for IR_WAIT, which is the loop `irWait`. -/
def lineWords : AsmLine → List Word
  | .commands is => is.flatMap encode
  | .wait => []

/-- What the host reads of an IR_STATUS response for IR_ISBUSY and IR_WAIT: bit [0] (30_encoding.md R96). -/
def responseBusy (w : Word) : Bool := w.getLsbD 0

/-- The commands of the port, one step each, until the port is empty; at most `fuel` of them. `none` when a step answers
no next state. A command takes a word off the port and puts none on it, so the port's length is fuel enough. -/
def runPort : Nat → State → Option State
  | 0, s => some s
  | fuel + 1, s =>
    if s.port = [] then some s
    else
      match step s with
      | .next t => runPort fuel t
      | .fault _ => none
      | .refused _ => none

/-- One poll of IR_WAIT: IR_STATUS behind the words already on the port, which execute before it (20_memory.md R73). The
last response is then the poll's. -/
def pollStatus (s : State) : Option State :=
  runPort (s.port ++ encode .irStatus).length { s with port := s.port ++ encode .irStatus }

/-- IR_WAIT with a bound on its polls (30_encoding.md R96, 70_reset_and_hazards.md R350): one poll at the present
boundary, and while the response's bit [0] is 1 one at each boundary after it. `none` when the bound is used up or a step
answers no next state. When the host polls, and that words already on the port go before a poll, is the model's DESIGN
CHOICE (log 18). -/
def irWait : Nat → State → Option State
  | 0, _ => none
  | polls + 1, s =>
    match pollStatus s with
    | none => none
    | some t =>
      if responseBusy (t.outbox.getLastD 0#32) then
        match tick t with
        | .next u => irWait polls u
        | .fault _ => none
        | .refused _ => none
      else some t

end Sys2Proof.Machine
end

