-- ==== Sys2Proof/Laws/Port.lean ====
section
/-!
SUPPORT. The port: a command takes its own words and puts none back, so the words of one boundary run out
(20_memory.md R73), and a poll of IR_WAIT leaves the port empty (30_encoding.md R96).
-/
namespace Sys2Proof.Machine

theorem command_port {effect : State → State} {s : State} (h : (effect s).port = s.port) :
    (command effect s).port = s.port := by
  unfold command
  split
  · rfl
  · exact h

@[simp] theorem queryFault_port (c : FaultCode) (o : BitVec 8) (s : State) : (queryFault c o s).port = s.port := by
  unfold queryFault
  split <;> rfl

@[simp] theorem query_port (c : FaultCode) (o : BitVec 8) (v : Option Word) (s : State) :
    (query c o v s).port = s.port := by
  cases v
  · exact queryFault_port c o s
  · rfl

@[simp] theorem paintOutcome_port (op : Op) (S : List Point) (m : Option Memory) (s : State) :
    (paintOutcome op S m s).port = s.port := by cases m <;> rfl

@[simp] theorem paintShape_port (op : Op) (sh : Shape) (s : State) : (paintShape op sh s).port = s.port := by
  simp only [paintShape]
  split <;> simp

@[simp] theorem blit_port (op : Op) (o : Point) (b : Bitmap) (s : State) : (blit op o b s).port = s.port := by
  unfold blit
  split <;> simp

theorem setpEffect_port (idx : BitVec 8) (v : Word) (s : State) : (setpEffect idx v s).port = s.port := by
  unfold setpEffect
  split
  · rfl
  · split <;> rfl

theorem sendEffect_port (p1 p2 pd ovr : Word) (s : State) : (sendEffect p1 p2 pd ovr s).port = s.port := by
  unfold sendEffect
  split
  · rfl
  · split <;> rfl

theorem setscaleEffect_port (v : BitVec 8) (s : State) : (setscaleEffect v s).port = s.port := by
  unfold setscaleEffect
  split <;> rfl

theorem setwritemodeEffect_port (v : BitVec 3) (s : State) : (setwritemodeEffect v s).port = s.port := by
  unfold setwritemodeEffect
  split <;> rfl

theorem drawcharEffect_port (code : BitVec 8) (s : State) : (drawcharEffect code s).port = s.port := by
  unfold drawcharEffect
  split
  · rfl
  · simp only
    split <;> simp [advanceCursor]

/-- No command writes the port. -/
theorem exec_port {i : Instr} {s t : State} (h : exec i s = .next t) : t.port = s.port := by
  cases i <;> injection h with h <;> subst h
  case irSetp => exact command_port (setpEffect_port _ _ _)
  case irGetp => exact query_port _ _ _ _
  case irSend => exact command_port (sendEffect_port _ _ _ _ _)
  case fbSetscale => exact command_port (setscaleEffect_port _ _)
  case fbSetwritemode => exact command_port (setwritemodeEffect_port _ _)
  case fbPaintpixel => exact command_port (paintOutcome_port _ _ _ _)
  case fbDrawline => exact command_port (paintShape_port _ _ _)
  case fbDrawrect => exact command_port (paintShape_port _ _ _)
  case fbDrawopenrect => exact command_port (paintShape_port _ _ _)
  case fbDrawcircle => exact command_port (paintShape_port _ _ _)
  case fbDrawopencircle => exact command_port (paintShape_port _ _ _)
  case fbWriteimage => exact command_port (blit_port _ _ _ _)
  case fbDrawchar => exact command_port (drawcharEffect_port _ _)
  case fbReadb => exact query_port _ _ _ _
  case irStatus => rfl
  case fbStatus => rfl
  case fbGetcursor => rfl
  case fbGetfont => rfl
  case fbGetsize => rfl
  all_goals exact command_port rfl

/-- The words a decoded header leaves on the port; none for a header without its argument words. -/
def decodedRest : Decoded → List Word
  | .command _ rest => rest
  | .illegalOpcode _ rest => rest
  | .reservedBits _ rest => rest
  | .truncated _ => []

/-- What decoding leaves on the port is no longer than what followed the header. -/
theorem decode_rest_length (h : Word) (ws : List Word) : (decodedRest (decode h ws)).length ≤ ws.length := by
  unfold decode
  cases Op.ofByte? (opcodeField h) with
  | none => exact Nat.le_refl _
  | some op =>
    simp only
    split_ifs <;> simp [decodedRest]

/-- A step with a word on the port leaves fewer words there. -/
theorem step_port_length {s t : State} (hp : s.port ≠ []) (h : step s = .next t) :
    t.port.length < s.port.length := by
  rcases step_cases h with ⟨h0, -⟩ | ⟨hd, ws, i, rest, h1, h2, h3⟩ | ⟨hd, ws, op, rest, h1, h2, rfl⟩ |
    ⟨hd, ws, op, rest, h1, h2, rfl⟩
  · exact absurd h0 hp
  · have hl : rest.length ≤ ws.length := by simpa [h2, decodedRest] using decode_rest_length hd ws
    rw [exec_port h3, h1, List.length_cons]
    exact Nat.lt_succ_of_le hl
  · have hl : rest.length ≤ ws.length := by simpa [h2, decodedRest] using decode_rest_length hd ws
    rw [illegalOpcode, command_port (enterFault_port _ _ _), h1, List.length_cons]
    exact Nat.lt_succ_of_le hl
  · have hl : rest.length ≤ ws.length := by simpa [h2, decodedRest] using decode_rest_length hd ws
    have hr : (reservedBits op { s with port := rest }).port = rest := by
      unfold reservedBits
      split
      · exact queryFault_port _ _ _
      · exact command_port (enterFault_port _ _ _)
    rw [hr, h1, List.length_cons]
    exact Nat.lt_succ_of_le hl

/-- With the port's length as fuel, `runPort` runs the port empty. -/
theorem runPort_port {fuel : Nat} {s t : State} (hf : s.port.length ≤ fuel) (h : runPort fuel s = some t) :
    t.port = [] := by
  induction fuel generalizing s with
  | zero =>
    injection h with h
    subst h
    exact List.eq_nil_of_length_eq_zero (Nat.le_zero.1 hf)
  | succ fuel ih =>
    simp only [runPort] at h
    split at h
    · rename_i hp
      injection h with h
      subst h
      exact hp
    · rename_i hp
      split at h
      · rename_i u hu
        exact ih (Nat.le_of_lt_succ (Nat.lt_of_lt_of_le (step_port_length hp hu) hf)) h
      · cases h
      · cases h

/-- A poll of IR_WAIT leaves no word on the port, so that the step after it is a tick. -/
theorem pollStatus_port {s t : State} (h : pollStatus s = some t) : t.port = [] := by
  unfold pollStatus at h
  exact runPort_port (s := { s with port := s.port ++ encode .irStatus }) (Nat.le_refl _) h

end Sys2Proof.Machine
end

