-- ==== Sys2Proof/Laws/Sequencer.lean ====
section
/-!
SUPPORT. What one tick and one expiry of unit IRE can do, said once: the cases of `tickGen`, `tickPost`, `expiry` and
`tickIre` (41_ir_sequencer.md R142, R150, R160).
-/
namespace Sys2Proof.Machine

/-- A word is not 0 exactly when its value is positive. -/
theorem word_ne_zero_iff {w : Nat} (x : BitVec w) : x ≠ 0#w ↔ 0 < x.toNat := by
  rw [ne_eq, ← BitVec.toNat_inj]
  simp [Nat.pos_iff_ne_zero]

theorem word_pred_toNat {w : Nat} (x : BitVec w) (h : 0 < x.toNat) (hw : 0 < w) : (x - 1#w).toNat = x.toNat - 1 := by
  have h1 : (1#w).toNat = 1 := by
    rw [BitVec.toNat_ofNat]
    exact Nat.mod_eq_of_lt (Nat.one_lt_two_pow (by omega))
  have := x.isLt
  rw [BitVec.toNat_sub_of_le (by rw [BitVec.le_def, h1]; omega), h1]

/-- What a tick of the generator can do (41_ir_sequencer.md R142). -/
theorem tickGen_cases (g : Gen) :
    (g.active = false ∧ tickGen g = (g, false)) ∨
    (g.active = true ∧ g.left - 1#32 ≠ 0#32 ∧ tickGen g = ({ g with left := g.left - 1#32 }, false)) ∨
    (g.active = true ∧ g.left - 1#32 = 0#32 ∧ g.phase = true ∧
      tickGen g = ({ g with phase := false, left := g.s }, false)) ∨
    (g.active = true ∧ g.left - 1#32 = 0#32 ∧ g.phase = false ∧
      tickGen g = ({ g with active := false, left := 0#32 }, true)) := by
  unfold tickGen
  cases ha : g.active
  · simp
  · by_cases hl : g.left - 1#32 = 0#32
    · cases hp : g.phase <;> simp [hl]
    · simp [hl]

/-- What a tick of the post-delay timer can do (41_ir_sequencer.md R160). -/
theorem tickPost_cases (t : PostTimer) :
    (t.active = false ∧ tickPost t = (t, false)) ∨
    (t.active = true ∧ t.left - 1#32 ≠ 0#32 ∧ tickPost t = ({ t with left := t.left - 1#32 }, false)) ∨
    (t.active = true ∧ t.left - 1#32 = 0#32 ∧ tickPost t = ({ t with left := 0#32 }, true)) := by
  unfold tickPost
  cases ha : t.active
  · simp
  · by_cases hl : t.left - 1#32 = 0#32 <;> simp [hl]

/-- What one expiry can do (41_ir_sequencer.md R150). -/
theorem expiry_cases {r r' : Ire} (h : expiry r = .ok r') :
    (r.ses.state = .start ∧ r' = expiryStart r) ∨
    (r.ses.state = .firstWord ∧ r' = expiryFirstWord r) ∨
    (r.ses.state = .middleStop ∧ r' = expiryMiddleStop r) ∨
    (r.ses.state = .secondWord ∧ r' = expirySecondWord r) ∨
    (r.ses.state = .stop ∧ r' = expiryStop r) ∨
    (r.ses.state = .spaceTrailer ∧ r' = expirySpaceTrailer r) ∨
    (r.ses.state = .markTrailer ∧ r' = expiryMarkTrailer r) := by
  unfold expiry at h
  split at h <;> cases h <;> simp_all

/-- In a state in which a pair is being emitted the expiry step is defined (41_ir_sequencer.md R150). -/
theorem expiry_of_emitting {r : Ire} (h : r.ses.state.emitting = true) : ∃ r', expiry r = .ok r' := by
  unfold expiry
  cases hs : r.ses.state <;> simp [hs, IrState.emitting] at h ⊢

/-- A tick of the unit in which no expiry of the generator falls due (20_memory.md R74). -/
theorem tickIre_of_not_due {r : Ire} (h : (tickGen r.gen).2 = false) :
    tickIre r = .ok
      (if (tickPost r.post).2 then postExpiry { r with gen := (tickGen r.gen).1, post := (tickPost r.post).1 }
       else { r with gen := (tickGen r.gen).1, post := (tickPost r.post).1 }) := by
  simp [tickIre, h]

/-- A tick of the unit in which an expiry of the generator falls due (20_memory.md R74). -/
theorem tickIre_of_due {r r' : Ire} (h : (tickGen r.gen).2 = true)
    (he : expiry { r with gen := (tickGen r.gen).1, post := (tickPost r.post).1 } = .ok r') :
    tickIre r = .ok (if (tickPost r.post).2 then postExpiry r' else r') := by
  simp [tickIre, h, he]

end Sys2Proof.Machine
end

