-- ==== Sys2Proof/Laws/Shapes.lean ====
section
/-!
SUPPORT. What painting a set, a shape or a bitmap does: PAINTSET never fails and paints exactly its points
(43_fb_pixel.md R219, R225), so the painting commands write the buffer and nothing else.
-/
namespace Sys2Proof.Machine

/-- COMBINE, bit by bit: the mode's effect inside the mask, the old bit outside it (43_fb_pixel.md R210, R211). -/
theorem combine_getLsbD (mode : WriteMode) (old M : Byte) (c : Colour) (i : Nat) (hi : i < 8) :
    (combine mode old (colByte c) M).getLsbD i =
      if M.getLsbD i then combineBit mode c (old.getLsbD i) else old.getLsbD i := by
  have hW : ∀ i, i < 8 → (0xFF#8).getLsbD i = true := by decide
  have hB : ∀ i, i < 8 → (0x00#8).getLsbD i = false := by decide
  cases mode <;> cases c <;>
    simp only [combine, colByte, combineBit, BitVec.getLsbD_or, BitVec.getLsbD_and, BitVec.getLsbD_not,
      BitVec.getLsbD_xor, decide_eq_true hi, Bool.true_and, hW i hi, hB i hi] <;>
    cases M.getLsbD i <;> cases old.getLsbD i <;> rfl

theorem paintByte_masked (s : State) (c : Colour) :
    Masked (paintByte s c) fun _ _ old => combineBit s.fbr.writeMode c old :=
  fun M _ old i hi => combine_getLsbD s.fbr.writeMode old M c i hi

theorem freePixels_masked (stamp : Nat) : Masked (freePixels stamp) fun a i _ => (Config.anyByte stamp a).getLsbD i := by
  intro M a old i hi
  simp only [freePixels, BitVec.getLsbD_or, BitVec.getLsbD_and, BitVec.getLsbD_not, decide_eq_true hi, Bool.true_and]
  cases M.getLsbD i <;> cases old.getLsbD i <;> simp

/-- PAINTSET never fails, and changes exactly the bits its points cover (43_fb_pixel.md R219, R225). -/
theorem paintSet_spec (s : State) (c : Colour) (S : List Point) (m : Memory) :
    ∃ m', paintSet s c S m = some m' ∧
      (∀ b i, i < 8 → (((∃ p ∈ S, s.covers p b i) →
          (bufByte s.bufStamp m' b).getLsbD i =
            combineBit s.fbr.writeMode c ((bufByte s.bufStamp m b).getLsbD i)) ∧
        ((¬ ∃ p ∈ S, s.covers p b i) →
          (bufByte s.bufStamp m' b).getLsbD i = (bufByte s.bufStamp m b).getLsbD i))) ∧
      (∀ b, (∀ p ∈ S, ∀ u v, s.mapPoint p = some (u, v) → b ∉ s.blockAddrs u v) →
        bufByte s.bufStamp m' b = bufByte s.bufStamp m b) ∧
      (Memory.wf m = true → Memory.wf m' = true) ∧
      (memBelow (bufSize s.params) m = true → memBelow (bufSize s.params) m' = true) := by
  obtain ⟨m', h1, h2, h3, h4, h5⟩ := editPoints_spec s (paintByte_masked s c) S.dedup S.nodup_dedup m
  refine ⟨m', h1, ?_, ?_, h4, h5⟩
  · intro b i hi
    simpa only [List.mem_dedup] using h2 b i hi
  · intro b hb
    exact h3 b fun p hp => hb p (List.mem_dedup.1 hp)

/-- A painted buffer goes into the state, and nothing else changes. -/
@[simp] theorem paintOutcome_some (op : Op) (S : List Point) (m : Memory) (s : State) :
    paintOutcome op S (some m) s = { s with fbr := { s.fbr with buf := m } } := rfl

/-- A bit is covered by a point exactly when it is a physical pixel of the point's block (43_fb_pixel.md R217). -/
theorem covers_iff (s : State) (p : Point) (a i : Nat) :
    s.covers p a i ↔ ∃ u v px py, s.mapPoint p = some (u, v) ∧ inBlock s.fbr.scale.factor u v px py ∧
      pixAddr s.params px py = a ∧ pixBit px = i := by
  unfold State.covers inBlock
  constructor
  · rintro ⟨u, v, hm, h⟩
    obtain ⟨px, py, h1, h2, h3, h4, h5, h6⟩ := (mem_block_iff s u v a i).1 h
    exact ⟨u, v, px, py, hm, ⟨h1, h2, h3, h4⟩, h5, h6⟩
  · rintro ⟨u, v, px, py, hm, ⟨h1, h2, h3, h4⟩, h5, h6⟩
    exact ⟨u, v, hm, (mem_block_iff s u v a i).2 ⟨px, py, h1, h2, h3, h4, h5, h6⟩⟩

theorem pixBit_lt (px : Nat) : pixBit px < 8 := by
  unfold pixBit
  omega

/-- A memory whose bits are those of the old buffer with the points of `S` painted meets `Paints`. -/
theorem paints_of_bits (s : State) (m : Memory) (S : Point → Colour → Prop)
    (h1 : ∀ p c a i, i < 8 → S p c → s.covers p a i →
      (bufByte s.bufStamp m a).getLsbD i = combineBit s.fbr.writeMode c ((s.readByte a).getLsbD i))
    (h2 : ∀ a i, i < 8 → (¬ ∃ p c, S p c ∧ s.covers p a i) →
      (bufByte s.bufStamp m a).getLsbD i = (s.readByte a).getLsbD i)
    (h3 : ∀ a, (∀ p c u v, S p c → s.mapPoint p = some (u, v) → a ∉ s.blockAddrs u v) →
      bufByte s.bufStamp m a = s.readByte a) :
    Paints s m S where
  painted := by
    intro p c u v px py hS hm hb
    exact h1 p c _ _ (pixBit_lt px) hS ((covers_iff s p _ _).2 ⟨u, v, px, py, hm, hb, rfl, rfl⟩)
  others := by
    intro a i hi hno
    refine h2 a i hi ?_
    rintro ⟨p, c, hS, hc⟩
    obtain ⟨u, v, px, py, hm, hb, ha, hbit⟩ := (covers_iff s p a i).1 hc
    exact hno p c u v px py hS hm hb ⟨ha, hbit⟩
  frame := h3

/-- PAINTSET of the current buffer paints exactly its points, in its colour (43_fb_pixel.md R225). -/
theorem paintSet_paints (s : State) (c : Colour) (S : List Point) :
    ∃ m, paintSet s c S s.fbr.buf = some m ∧ Paints s m fun p c' => p ∈ S ∧ c' = c := by
  obtain ⟨m, h1, h2, h3, -, -⟩ := paintSet_spec s c S s.fbr.buf
  refine ⟨m, h1, paints_of_bits s m _ ?_ ?_ ?_⟩
  · rintro p c' a i hi ⟨hp, rfl⟩ hc
    exact (h2 a i hi).1 ⟨p, hp, hc⟩
  · intro a i hi hno
    exact (h2 a i hi).2 fun ⟨p, hp, hc⟩ => hno ⟨p, c, ⟨hp, rfl⟩, hc⟩
  · intro a ha
    exact h3 a fun p hp u v => ha p c u v ⟨hp, rfl⟩

/-- The buffer a shape leaves: painted, and never an overrun (43_fb_pixel.md R219, R225). -/
theorem paintShape_of_no_free (op : Op) (sh : Shape) (s : State) (h : s.freePoints sh = []) :
    ∃ m, paintShape op sh s = { s with fbr := { s.fbr with buf := m } } ∧
      Paints s m fun p c => p ∈ sh.pts ∧ c = s.fbr.colour := by
  obtain ⟨m, h1, h2⟩ := paintSet_paints s s.fbr.colour sh.pts
  exact ⟨m, by simp [paintShape, h, h1], h2⟩

end Sys2Proof.Machine
end

