-- ==== Sys2Proof/Tests/Slice0.lean ====
section
/-!
SUPPORT. Tests: what WellFormed refuses, the decoding of one word of every command written out from 30_encoding.md R81
to R85, one step of each command against 95_test_vectors.md, and for every obligation with hypotheses a state and
operands that meet them.
-/
namespace Sys2Proof.Tests
open Sys2Proof Sys2Proof.Machine

/-! ## WellFormed refuses what does not fit its field (30_encoding.md R83) -/

theorem test_wf_point_x_low : (Instr.fbMoveto ⟨-32769, 0⟩).wellFormed = false := by decide
theorem test_wf_point_x_high : (Instr.fbPaintpixel .white ⟨32768, 0⟩).wellFormed = false := by decide
theorem test_wf_point_y_low : (Instr.fbDrawline ⟨0, -32769⟩ ⟨0, 0⟩).wellFormed = false := by decide
theorem test_wf_point_y_high : (Instr.fbDrawrect ⟨0, 0⟩ ⟨0, 32768⟩).wellFormed = false := by decide
theorem test_wf_openrect_second : (Instr.fbDrawopenrect ⟨0, 0⟩ ⟨40000, 0⟩).wellFormed = false := by decide
theorem test_wf_circle_centre : (Instr.fbDrawcircle ⟨0, 32768⟩ 1).wellFormed = false := by decide
theorem test_wf_radius_high : (Instr.fbDrawcircle ⟨0, 0⟩ 32768).wellFormed = false := by decide
theorem test_wf_radius_low : (Instr.fbDrawopencircle ⟨0, 0⟩ (-32769)).wellFormed = false := by decide
theorem test_wf_size_w : (Instr.fbWriteimage ⟨0, 0⟩ ⟨65536, 0⟩ 0#32).wellFormed = false := by decide
theorem test_wf_size_h : (Instr.fbWriteimage ⟨0, 0⟩ ⟨0, 65536⟩ 0#32).wellFormed = false := by decide
theorem test_wf_limits : (Instr.fbWriteimage ⟨-32768, 32767⟩ ⟨65535, 65535⟩ 0#32).wellFormed = true := by decide

/-! ## Decoding: opcode in [31:24], imm in [23:0], POINT x low and y high (30_encoding.md R81 to R85) -/

theorem test_decode_irSetp : decode 0x0100000D#32 [0x00000001#32] = .command (.irSetp 0x0D#8 1#32) [] := by decide
theorem test_decode_irGetp : decode 0x0200003D#32 [] = .command (.irGetp 0x3D#8) [] := by decide
theorem test_decode_irSend :
    decode 0x03000000#32 [0xA5#32, 0x11#32, 0x22#32, 0x33#32, 7#32] =
      .command (.irSend 0xA5#32 0x11#32 0x22#32 0x33#32) [7#32] := by decide
theorem test_decode_irStatus : decode 0x04000000#32 [] = .command .irStatus [] := by decide
theorem test_decode_fbSetscale : decode 0x100000FF#32 [] = .command (.fbSetscale 0xFF#8) [] := by decide
theorem test_decode_fbSetrotate : decode 0x11000003#32 [] = .command (.fbSetrotate .rotate270) [] := by decide
theorem test_decode_fbSetmirror : decode 0x12000002#32 [] = .command (.fbSetmirror .y) [] := by decide
theorem test_decode_fbSetwritemode : decode 0x13000007#32 [] = .command (.fbSetwritemode 7#3) [] := by decide
theorem test_decode_fbSetcolour : decode 0x14000001#32 [] = .command (.fbSetcolour .white) [] := by decide
theorem test_decode_fbSetfont : decode 0x1500ABCD#32 [] = .command (.fbSetfont 0xABCD#16) [] := by decide
theorem test_decode_fbClear : decode 0x16000000#32 [] = .command (.fbClear .black) [] := by decide
theorem test_decode_fbPaintpixel :
    decode 0x17000000#32 [0xFFFE0009#32] = .command (.fbPaintpixel .black ⟨9, -2⟩) [] := by decide
theorem test_decode_fbDrawline :
    decode 0x18000000#32 [0x00020001#32, 0x00040003#32] = .command (.fbDrawline ⟨1, 2⟩ ⟨3, 4⟩) [] := by decide
theorem test_decode_fbDrawrect :
    decode 0x19000000#32 [0x00020001#32, 0x00040003#32] = .command (.fbDrawrect ⟨1, 2⟩ ⟨3, 4⟩) [] := by decide
theorem test_decode_fbDrawopenrect :
    decode 0x1A000000#32 [0x00020001#32, 0x00040003#32] = .command (.fbDrawopenrect ⟨1, 2⟩ ⟨3, 4⟩) [] := by decide
theorem test_decode_fbDrawcircle :
    decode 0x1B000000#32 [0x00030004#32, 0x0000FFFF#32] = .command (.fbDrawcircle ⟨4, 3⟩ (-1)) [] := by decide
theorem test_decode_fbDrawopencircle :
    decode 0x1C000000#32 [0x00030004#32, 0x00000002#32] = .command (.fbDrawopencircle ⟨4, 3⟩ 2) [] := by decide
theorem test_decode_fbWriteimage :
    decode 0x1D000000#32 [0x00010002#32, 0xFFFF0003#32, 0x12345678#32] =
      .command (.fbWriteimage ⟨2, 1⟩ ⟨3, 65535⟩ 0x12345678#32) [] := by decide
theorem test_decode_fbMoveto : decode 0x1E000000#32 [0x80007FFF#32] = .command (.fbMoveto ⟨32767, -32768⟩) [] := by
  decide
theorem test_decode_fbDrawchar : decode 0x1F000041#32 [] = .command (.fbDrawchar 0x41#8) [] := by decide
theorem test_decode_fbReadb : decode 0x20000000#32 [0x00000010#32] = .command (.fbReadb 16#32) [] := by decide
theorem test_decode_fbStatus : decode 0x21000000#32 [] = .command .fbStatus [] := by decide
theorem test_decode_fbGetcursor : decode 0x22000000#32 [] = .command .fbGetcursor [] := by decide
theorem test_decode_fbGetfont : decode 0x23000000#32 [] = .command .fbGetfont [] := by decide
theorem test_decode_fbGetsize : decode 0x24000000#32 [] = .command .fbGetsize [] := by decide

/-- 30_encoding.md R83, R85: the argument words of IR_SEND and FB_WRITEIMAGE in the opcode table's bit numbering. -/
theorem test_decodeTableWord_operands :
    decodeTableWord 160 0x000000330000002200000011000000A503000000 =
      some (.irSend 0xA5#32 0x11#32 0x22#32 0x33#32) ∧
    decodeTableWord 32 0x1D000000 = some (.fbWriteimage ⟨0, 0⟩ ⟨0, 0⟩ 0#32) := by decide

/-! ## A small block: 95_test_vectors.md's canvas, fonts, source bytes and NEC8 staging set -/

def demoParams : Params where
  physW := 16
  physH := 8
  srcSize := 2
  src := [(0, 0xA0#8), (1, 0x40#8)]
  font := [((1#16, 0x41#8), some ⟨3#16, 2#16, 0#32⟩), ((0#16, 0x41#8), none), ((2#16, 0x41#8), some ⟨3#16, 3#16, 0#32⟩)]
  tickNs := 1
  sircLengths := Config.sircLengths
  startMarks := []
  blitZero := .transparent
  xorMult := .set

def nec8 : Bank := ⟨38000, 16, 8, 1, 1, 1, 3, 16, 4, 8, 0, 1, 0, 0⟩

/-- A running block on a zero buffer. -/
def demo : State :=
  { State.reset with
    params := demoParams
    ire := { Ire.reset with staging := nec8 }
    fbr := { Fbr.reset with buf := memFill [] 16 0x00#8 } }

def demoFbr (f : Fbr → Fbr) : State := { demo with fbr := f demo.fbr }

/-- What a step leaves, seen through a function; `none` where it stops. -/
def after {α : Type} (o : Host.Outcome State Fault Refusal) (f : State → α) : Option α :=
  match o with
  | .next t => some (f t)
  | .fault _ => none
  | .refused _ => none

/-- The bytes of the buffer that are not 0, with their addresses. -/
def marks (t : State) : List (Nat × Nat) :=
  (List.range 16).filterMap fun a => if t.readByte a = 0#8 then none else some (a, (t.readByte a).toNat)

/-- The block with the session of `IR_SEND 0xA5, 0, pd, ovr` accepted at boundary 0. -/
def sent (pd ovr : Word) : State := sendEffect 0xA5#32 0#32 pd ovr demo

/-- The block halted by an undefined opcode. -/
def halted : State := { demo with fault := ⟨some .illegalOpcode, 0x05#8⟩ }

def st (t : State) : Nat := t.irStatusWord.toNat

/-! ## One step of each command (expected values: 95_test_vectors.md, the vector named) -/

-- 40_ir_commands.md R110, R111: V-IR-11 writes ONE_LOW; section 3: FLAGS bit 2
theorem test_setp : after (exec (.irSetp 0x06#8 9#32) (sent 0 1)) (fun t => (t.ire.staging.oneLow, t.ire.ses.P.oneLow)) =
    some (9#32, 3#32) := by decide
theorem test_setp_flags_reserved :
    after (exec (.irSetp 0x0D#8 4#32) demo) (fun t => t.fault.word) = some 0x00000102#32 := by decide
theorem test_getp : after (exec (.irGetp 0x36#8) (sent 0 1)) (fun t => t.outbox) = some [3#32] := by decide
theorem test_getp_bad : after (exec (.irGetp 0x1F#8) demo) (fun t => (t.fault.word, t.outbox)) =
    some (0x00000203#32, []) := by decide
-- V-IR-1: IR_STATUS after the send; V-IR-10: a refused send
theorem test_send : after (exec (.irSend 0xA5#32 0#32 0#32 1#32) demo) st = some 0x63 := by decide
theorem test_send_refused :
    after (exec (.irSend 0xA5#32 0#32 0#32 1#32) { demo with ire := { demo.ire with staging := { nec8 with packetLength := 33 } } })
      st = some 0x310 := by decide
theorem test_irStatus : after (exec .irStatus (sent 5 0)) (fun t => t.outbox) = some [0x63#32] := by decide
-- section 3: FB_SETSCALE 3, FB_SETWRITEMODE 5
theorem test_setscale : after (exec (.fbSetscale 4#8) demo) (fun t => t.fbr.scale) = some .x4 := by decide
theorem test_setscale_bad : after (exec (.fbSetscale 3#8) demo) (fun t => t.fault.word) = some 0x00001005#32 := by decide
theorem test_setrotate : after (exec (.fbSetrotate .rotate90) demo) (fun t => t.fbStatusWord) = some 0x00040900#32 := by
  decide
theorem test_setmirror : after (exec (.fbSetmirror .y) demo) (fun t => t.fbStatusWord) = some 0x00044100#32 := by decide
theorem test_setwritemode : after (exec (.fbSetwritemode 4#3) demo) (fun t => t.fbStatusWord) = some 0x00060100#32 := by
  decide
theorem test_setwritemode_bad : after (exec (.fbSetwritemode 5#3) demo) (fun t => t.fault.word) = some 0x00001305#32 := by
  decide
theorem test_setcolour : after (exec (.fbSetcolour .black) demo) (fun t => t.fbStatusWord) = some 0x00000100#32 := by
  decide
theorem test_setfont : after (exec (.fbSetfont 0xABCD#16) demo) (fun t => t.fbr.fontRef) = some 0xABCD#16 := by decide
-- 42_fb_config.md R187
theorem test_clear : after (exec (.fbClear .white) (demoFbr fun f => { f with cursorX := 5, buf := [] }))
    (fun t => (t.readByte 0, t.readByte 15, t.fbr.cursorX)) = some (0xFF#8, 0xFF#8, 0#16) := by decide
-- V-FB-11, V-FB-14
theorem test_paintpixel_rotated :
    after (exec (.fbPaintpixel .white ⟨1, 2⟩) (demoFbr fun f => { f with rotation := .rotate90 })) marks =
      some [(3, 0x04)] := by decide
theorem test_paintpixel_scaled :
    after (exec (.fbPaintpixel .white ⟨1, 1⟩) (demoFbr fun f => { f with scale := .x2 })) marks =
      some [(4, 0x30), (6, 0x30)] := by decide
-- V-FB-42, V-FB-43
theorem test_drawline : after (exec (.fbDrawline ⟨0, 2⟩ ⟨5, 0⟩) demo) marks =
    some [(0, 0x0C), (2, 0x30), (4, 0xC0)] := by decide
theorem test_drawline_steep : after (exec (.fbDrawline ⟨0, 0⟩ ⟨1, 3⟩) demo) marks =
    some [(0, 0x80), (2, 0x80), (4, 0x40), (6, 0x40)] := by decide
-- V-FB-51, V-FB-52
theorem test_drawrect : after (exec (.fbDrawrect ⟨3, 2⟩ ⟨1, 1⟩) demo) marks = some [(2, 0x70), (4, 0x70)] := by decide
theorem test_drawopenrect : after (exec (.fbDrawopenrect ⟨0, 0⟩ ⟨4, 3⟩) demo) marks =
    some [(0, 0xF8), (2, 0x88), (4, 0x88), (6, 0xF8)] := by decide
-- V-FB-63, V-FB-62
theorem test_drawcircle : after (exec (.fbDrawcircle ⟨1, 1⟩ 1) demo) marks = some [(0, 0x40), (2, 0xE0), (4, 0x40)] := by
  decide
theorem test_drawopencircle : after (exec (.fbDrawopencircle ⟨1, 1⟩ 1) demo) marks =
    some [(0, 0x40), (2, 0xA0), (4, 0x40)] := by decide
-- V-FB-70, section 3: FB_SOURCE_RANGE
theorem test_writeimage : after (exec (.fbWriteimage ⟨2, 1⟩ ⟨3, 2⟩ 0#32) demo) marks = some [(2, 0x28), (4, 0x10)] := by
  decide
theorem test_writeimage_range : after (exec (.fbWriteimage ⟨0, 0⟩ ⟨3, 3⟩ 0#32) demo) (fun t => t.fault.word) =
    some 0x00001D07#32 := by decide
theorem test_moveto : after (exec (.fbMoveto ⟨32766, -1⟩) demo) (fun t => (t.fbr.cursorX, t.fbr.cursorY)) =
    some (0x7FFE#16, 0xFFFF#16) := by decide
-- V-FB-73, V-FB-74
theorem test_drawchar :
    after (exec (.fbDrawchar 0x41#8) (demoFbr fun f => { f with fontRef := 1, cursorX := 2, cursorY := 1 }))
      (fun t => (marks t, t.fbr.cursorX)) = some ([(2, 0x28), (4, 0x10)], 5#16) := by decide
theorem test_drawchar_wraps :
    after (exec (.fbDrawchar 0x41#8) (demoFbr fun f => { f with fontRef := 1, cursorX := 0x7FFE }))
      (fun t => (marks t, t.fbr.cursorX)) = some ([], 0x8001#16) := by decide
theorem test_readb : after (exec (.fbReadb 15#32) (demoFbr fun f => { f with buf := memFill [] 16 0x5A#8 }))
    (fun t => t.outbox) = some [0x5A#32] := by decide
theorem test_readb_bad : after (exec (.fbReadb 16#32) demo) (fun t => t.fault.word) = some 0x00002005#32 := by decide
theorem test_fbStatus : after (exec .fbStatus halted) (fun t => t.outbox) = some [0x00040101#32] := by decide
theorem test_getcursor : after (exec .fbGetcursor (demoFbr fun f => { f with cursorX := 5, cursorY := 1 }))
    (fun t => t.outbox) = some [0x00010005#32] := by decide
theorem test_getfont : after (exec .fbGetfont (demoFbr fun f => { f with fontRef := 0xABCD })) (fun t => t.outbox) =
    some [0x0000ABCD#32] := by decide
theorem test_getsize : after (exec .fbGetsize demo) (fun t => t.outbox) = some [0x00080010#32] := by decide

/-- V-IR-1 at boundary 24: FirstWord, in the mark of bit 0. -/
theorem test_expiry_start :
    after (tick { sent 0 1 with boundary := 23, ire := { (sent 0 1).ire with gen := ⟨true, false, 1, 16, 8⟩ } })
      (fun t => (t.boundary, st t, t.ire.gen.s)) = some (24, 0x65, 3#32) := by decide

/-- V-F-1: a halted block ignores FB_CLEAR and answers IR_GETP 0x1F with 0. -/
theorem test_halted :
    after (exec (.fbClear .white) halted) marks = some [] ∧
    after (exec (.irGetp 0x1F#8) halted) (fun t => (t.outbox, t.fault.word)) = some ([0#32], 0x00000501#32) := by decide

/-- 30_encoding.md R95, R96: a pseudo-command and a comment. -/
theorem test_assemble :
    assembleLine "FB_TEXT 'A;,B' ; text".toList =
      some (.commands [.fbDrawchar 0x41#8, .fbDrawchar 0x3B#8, .fbDrawchar 0x2C#8, .fbDrawchar 0x42#8]) ∧
    assembleLine "IR_SETP ONE_LOW, 0x9".toList = some (.commands [.irSetp 0x06#8 9#32]) ∧
    assembleLine "FB_VLINE 2, -1, 3".toList = some (.commands [.fbDrawline ⟨2, -1⟩ ⟨2, 3⟩]) ∧
    assembleLine "FB_SETSCALE 3".toList = none ∧
    assembleLine "FB_DRAWCIRCLE 4, 3, -1".toList = some (.commands [.fbDrawcircle ⟨4, 3⟩ (-1)]) := by decide

/-! ## Witnesses: the hypotheses of the obligations can be met, clause by clause -/

theorem witness_DecodeEncodeRoundTrip : (Instr.fbDrawcircle ⟨-32768, 32767⟩ (-32768)).wellFormed = true := by decide

theorem witness_DecodedCommandReencodes :
    decode 0x1B000000#32 [0x7FFF8000#32, 0x0000FFFF#32, 7#32] = .command (.fbDrawcircle ⟨-32768, 32767⟩ (-1)) [7#32] := by
  decide

theorem witness_StepRunsDecodedCommand :
    ({ demo with port := [0x1E000000#32, 0x0002FFFF#32, 0x04000000#32] } : State).port =
      0x1E000000#32 :: [0x0002FFFF#32, 0x04000000#32] ∧
    decode 0x1E000000#32 [0x0002FFFF#32, 0x04000000#32] = .command (.fbMoveto ⟨-1, 2⟩) [0x04000000#32] := by decide

theorem witness_PlacedCommandRunsNext : decodeTableWord 64 0x000000010100000D = some (.irSetp 0x0D#8 1#32) := by
  decide

/-- Both clauses at the limits of their ranges. -/
theorem witness_UndefinedOpcodeFaults :
    demo.halted = false ∧ (∀ h : Word, ({ demo with port := [h, 1#32] } : State).port = h :: [1#32]) ∧
    (∀ h ∈ [0x00#8, 0x05#8, 0x0F#8, 0x25#8, 0xFF#8],
      h.toNat = 0 ∨ (0x05 ≤ h.toNat ∧ h.toNat ≤ 0x0F) ∨ 0x25 ≤ h.toNat) ∧
    (opcodeField 0x05123456#32 = 0x05#8 ∧ opcodeField 0xFF000000#32 = 0xFF#8) ∧
    ∀ b ∈ [0x01#8, 0x04#8, 0x10#8, 0x24#8], (1 ≤ b.toNat ∧ b.toNat ≤ 4) ∨ (0x10 ≤ b.toNat ∧ b.toNat ≤ 0x24) :=
  ⟨by decide, fun _ => rfl, by decide, by decide, by decide⟩

/-- The first reserved bit of `imm`, a reserved bit of a RADIUS word, and a command with neither. -/
theorem witness_ReservedBitsFault :
    demo.halted = false ∧
    Op.ofByte? (opcodeField 0x11000004#32) = some .fbSetrotate ∧ Op.fbSetrotate.argc ≤ ([] : List Word).length ∧
    2 ^ Op.fbSetrotate.immForm.width ≤ (immField 0x11000004#32).toNat ∧
    Op.ofByte? (opcodeField 0x1B000000#32) = some .fbDrawcircle ∧
    Op.fbDrawcircle.argc ≤ [0x00030004#32, 0x00010002#32].length ∧
    hiHalf (arg [0x00030004#32, 0x00010002#32] 1) ≠ 0#16 ∧
    Op.ofByte? (opcodeField 0x11000003#32) = some .fbSetrotate ∧
    ¬ (2 ^ Op.fbSetrotate.immForm.width ≤ (immField 0x11000003#32).toNat ∨
      ((Op.fbSetrotate = .fbDrawcircle ∨ Op.fbSetrotate = .fbDrawopencircle) ∧ hiHalf (arg [] 1) ≠ 0#16)) := by decide

theorem witness_HaltedBlockIgnoresCommands :
    halted.halted = true ∧ (Instr.fbClear .white).op.isQuery = false ∧
    decode 0x05000000#32 [1#32] = .illegalOpcode 0x05#8 [1#32] ∧
    decode 0x10000103#32 [1#32] = .reservedBits .fbSetscale [1#32] ∧ Op.fbSetscale.isQuery = false := by decide

theorem witness_HaltedBlockAnswersQueries :
    halted.halted = true ∧ Instr.fbStatus.op.isQuery = true ∧
    (∀ i ∈ [0x0E#8, 0x1F#8, 0x3E#8, 0xFF#8], (0x0E ≤ i.toNat ∧ i.toNat ≤ 0x1F) ∨ 0x3E ≤ i.toNat) ∧
    bufSize halted.params ≤ (16#32).toNat ∧
    decode 0x04000001#32 [1#32] = .reservedBits .irStatus [1#32] ∧ Op.irStatus.isQuery = true := by decide

theorem witness_FaultStaysUntilReset :
    halted.halted = true ∧ (∃ t, step halted = .next t) ∧ resetDue halted = false ∧
    (∃ t, step { halted with port := [0x16000001#32] } = .next t) ∧
    ({ halted with port := [0x16000001#32] } : State).port ≠ [] :=
  ⟨rfl, ⟨_, rfl⟩, rfl, ⟨_, rfl⟩, by decide⟩

theorem witness_HostResetRestoresResetState :
    halted.port = [] ∧ ({ halted with inbox := [⟨true, [0x04000000#32]⟩] } : State).inbox =
      ⟨true, [0x04000000#32]⟩ :: [] ∧ (⟨true, [0x04000000#32]⟩ : Delivery).reset = true := by decide

/-- The idle block meets the invariant. -/
theorem demo_inv : Inv demo where
  params := by decide
  sorted := by decide
  below := by decide
  flags := by decide
  latchedFlags := by decide
  halted_quiet := by decide
  running := fun _ =>
    { n_le := by decide, L_le := by decide, not_initial := by decide, emitting_iff := by decide, rem_pos := by decide,
      rem_le := by decide, quiet_iff := by decide, idle := by decide, left_pos := by decide, post_pos := by decide,
      spaces := fun h => absurd h (by decide), L_pos := by decide, first_word := by decide, middle_stop := by decide }
  stamps := by decide

/-- A block in the middle of a session meets it too. -/
theorem sent_inv : Inv (sent 5 2) where
  params := by decide
  sorted := by decide
  below := by decide
  flags := by decide
  latchedFlags := by decide
  halted_quiet := by decide
  running := fun _ =>
    { n_le := by decide, L_le := by decide, not_initial := by decide, emitting_iff := by decide, rem_pos := by decide,
      rem_le := by decide, quiet_iff := by decide, idle := by decide, left_pos := by decide, post_pos := by decide,
      spaces := by unfold spacesOk; decide, L_pos := by decide, first_word := by decide, middle_stop := by decide }
  stamps := by decide

/-- And one in the quiet delay of a session of no transmissions (V-IR-6). -/
def quiet : State :=
  sendEffect 0xA5#32 0#32 5#32 0#32 { demo with ire := { demo.ire with staging := { nec8 with repeatCount := 0 } } }

theorem quiet_inv : Inv quiet where
  params := by decide
  sorted := by decide
  below := by decide
  flags := by decide
  latchedFlags := by decide
  halted_quiet := by decide
  running := fun _ =>
    { n_le := by decide, L_le := by decide, not_initial := by decide, emitting_iff := by decide, rem_pos := by decide,
      rem_le := by decide, quiet_iff := by decide, idle := by decide, left_pos := by decide, post_pos := by decide,
      spaces := fun h => absurd h (by decide), L_pos := by decide, first_word := by decide, middle_stop := by decide }
  stamps := by decide

theorem sent_onTime : OnTime (sent 5 2).ire.ses where
  elapsed_eq := by decide
  full := by decide
  fast := by decide
  gap := by decide
  second := by decide

theorem quiet_onTime : OnTime quiet.ire.ses where
  elapsed_eq := by decide
  full := by decide
  fast := by decide
  gap := by decide
  second := by decide

theorem witness_StepKeepsInvariant : Inv (sent 5 2) ∧ ∃ t, step (sent 5 2) = .next t := ⟨sent_inv, _, rfl⟩

theorem witness_StepKeepsSchedule :
    Inv (sent 5 2) ∧ OnTime (sent 5 2).ire.ses ∧ ∃ t, step (sent 5 2) = .next t ∧ t.halted = false :=
  ⟨sent_inv, sent_onTime, _, rfl, by decide⟩

theorem witness_InvariantStepAnswersNext : Inv demo ∧ Inv (sent 5 2) ∧ Inv quiet := ⟨demo_inv, sent_inv, quiet_inv⟩

theorem witness_BusyTicksCountDown :
    (Inv (sent 5 2) ∧ (sent 5 2).halted = false ∧ OnTime (sent 5 2).ire.ses ∧ (sent 5 2).port = [] ∧
      resetDue (sent 5 2) = false ∧ (sent 5 2).ire.ses.busy = true) ∧
    (Inv quiet ∧ quiet.halted = false ∧ OnTime quiet.ire.ses ∧ quiet.port = [] ∧ resetDue quiet = false ∧
      quiet.ire.ses.busy = true) :=
  ⟨⟨sent_inv, by decide, sent_onTime, by decide, by decide, by decide⟩,
    quiet_inv, by decide, quiet_onTime, by decide, by decide, by decide⟩

theorem witness_SilentSessionLastsItsTicks :
    Inv demo ∧ demo.halted = false ∧ demo.port = [] ∧ demo.inbox = [] ∧
    ∃ t, exec (.irSend 0xA5#32 0#32 5#32 2#32) demo = .next t ∧ t.halted = false ∧ t.ire.ses.cfgErr = none ∧
      0 < sessionTicks t.ire.ses t.ire.ses.R.toNat + (5#32).toNat :=
  ⟨demo_inv, by decide, by decide, by decide, _, rfl, by decide, by decide, by decide⟩

theorem witness_StepKeepsParameters : ∃ t, step demo = .next t := ⟨_, rfl⟩

theorem witness_UnitsShareNoState :
    (∃ t, exec (.irSend 0xA5#32 0#32 5#32 2#32) demo = .next t) ∧ Instr.op (.irSend 0xA5#32 0#32 5#32 2#32) = .irSend ∧
    (∃ t, exec (.fbMoveto ⟨1, 2⟩) demo = .next t ∧ t.halted = demo.halted) ∧
    (∃ t, exec (.fbSetscale 3#8) demo = .next t ∧ t.halted ≠ demo.halted) ∧
    ¬ (Instr.op (.fbSetscale 3#8) = .irSetp ∨ Instr.op (.fbSetscale 3#8) = .irGetp ∨
      Instr.op (.fbSetscale 3#8) = .irSend ∨ Instr.op (.fbSetscale 3#8) = .irStatus) :=
  ⟨⟨_, rfl⟩, rfl, ⟨_, rfl, rfl⟩, ⟨_, rfl, by decide⟩, by decide⟩

theorem witness_SetpWritesOneRegister :
    demo.halted = false ∧ (ParamReg.flags = .flags → flagsReserved 3#32 = 0#30) := by decide

theorem witness_SetpFaults :
    demo.halted = false ∧ 0x0D < (0x0E#8).toNat ∧ 0x0D < (0xFF#8).toNat ∧ flagsReserved 4#32 ≠ 0#30 := by decide

theorem witness_GetpReadsEveryRegister :
    demo.halted = false ∧
    ∀ i ∈ [0x0E#8, 0x1F#8, 0x3E#8, 0xFF#8], (0x0E ≤ i.toNat ∧ i.toNat ≤ 0x1F) ∨ 0x3E ≤ i.toNat := by decide

/-- A session of two transmissions by the operand, one by the register, and one of none. -/
theorem witness_SendAcceptedStartsSession :
    demo.halted = false ∧ demo.ire.ses.busy = false ∧ validate demo.params demo.ire.staging 0xA5#32 = .ok (8, 16#32) ∧
    (2#32 ≠ 0#32 → 2#32 = 2#32) ∧ (0#32 = 0#32 → 1#32 = demo.ire.staging.repeatCount) ∧ 1#32 ≠ 0#32 ∧
    validate demo.params { nec8 with repeatCount := 0 } 0xA5#32 = .ok (8, 16#32) := by decide

theorem witness_SendRefusedWritesOnlyCfgErr :
    demo.halted = false ∧ demo.ire.ses.busy = false ∧
    validate demo.params { nec8 with packetLength := 33 } 0xA5#32 = .error .badLength := by decide

theorem witness_SendWhileBusyFaults :
    (sent 5 2).halted = false ∧ (sent 5 2).ire.ses.busy = true ∧ quiet.halted = false ∧ quiet.ire.ses.busy = true := by
  decide

/-- The first and the last tick of a pair, a pair of no mark, and the pin in a mark and outside one. -/
theorem witness_PairLastsItsTicks : 8#32 ≠ 0#32 ∧ 0 < (16#32).toNat + (8#32).toNat ∧
    23 < (16#32).toNat + (8#32).toNat ∧ 0 < (0#32).toNat + (1#32).toNat ∧
    (sent 0 1).irEnv = true ∧ demo.irEnv = false := by decide

/-- The unit in one state of the state machine, with `n` bits sent and a middle stop after bit `ms`. -/
def inState (q : IrState) (n L : BitVec 7) (ms rem : Word) : Ire :=
  { (sent 0 1).ire with
    ses := { (sent 0 1).ire.ses with
      state := q, n := n, L := L, rem := rem, R := rem, P := { nec8 with middleStopBit := ms, repeatTime := 24 } } }

/-- A state with the generator and the post-delay timer as given, and what the host delivers at the next boundary. -/
def ticking (g : Gen) (p : PostTimer) : State :=
  { sent 0 1 with ire := { (sent 0 1).ire with gen := g, post := p }, inbox := [⟨false, [0x04000000#32]⟩] }

/-- Each kind of tick: the generator idle, counting, at the end of a mark and at the end of a space; the timer idle,
counting and at its last tick; and a halted block. -/
theorem witness_GeneratorExpiryStepsMachine :
    (∀ s ∈ [ticking ⟨false, false, 0, 16, 8⟩ ⟨false, 0⟩, ticking ⟨true, true, 2, 16, 8⟩ ⟨true, 2⟩,
        ticking ⟨true, true, 1, 16, 8⟩ ⟨true, 1⟩, ticking ⟨true, false, 1, 16, 8⟩ ⟨false, 0⟩],
      s.halted = false ∧ s.port = [] ∧ resetDue s = false) ∧
    (∃ r, expiry (ticking ⟨false, false, 0, 16, 8⟩ ⟨false, 0⟩).ire = .ok r) ∧
    halted.halted = true ∧ halted.port = [] ∧ resetDue halted = false :=
  ⟨by decide, ⟨_, rfl⟩, by decide, by decide, by decide⟩

/-- 41_ir_sequencer.md R142, R160 by hand: a mark's last tick gives the space's 8 ticks; the timer's last tick clears
`busy`; the host's word comes after. -/
theorem test_tick_mark_to_space :
    after (step (ticking ⟨true, true, 1, 16, 8⟩ ⟨true, 1⟩))
      (fun t => (t.ire.gen.phase, t.ire.gen.left, t.ire.post.active, t.ire.ses.busy, t.port.length)) =
      some (false, 8#32, false, false, 1) := by decide

/-- 20_memory.md R73: a word already on the port (FB_GETFONT) executes before IR_WAIT's poll; V-IR-6: busy for five
boundaries, so that the sixth poll ends the wait and five do not. -/
theorem test_irWait :
    (irWait 6 { quiet with port := [0x23000000#32] }).map (fun t => (t.boundary, t.outbox.head?, t.outbox.length)) =
      some (5, some 0#32, 7) ∧
    irWait 5 quiet = none := by decide

/-- Each clause, at the first and the last bit it speaks of. -/
theorem witness_ExpiryInsideAPacket :
    (inState .start 0 8 0 1).ses.state = .start ∧
    ((inState .firstWord 4 6 4 1).ses.state = .firstWord ∧ 0 < (inState .firstWord 4 6 4 1).ses.P.middleStopBit.toNat ∧
      (inState .firstWord 4 6 4 1).ses.n.toNat = (inState .firstWord 4 6 4 1).ses.P.middleStopBit.toNat) ∧
    ((inState .firstWord 8 8 0 1).ses.n = (inState .firstWord 8 8 0 1).ses.L ∧
      ¬ (0 < (inState .firstWord 8 8 0 1).ses.P.middleStopBit.toNat ∧
        (inState .firstWord 8 8 0 1).ses.n.toNat = (inState .firstWord 8 8 0 1).ses.P.middleStopBit.toNat)) ∧
    ((inState .firstWord 7 8 0 1).ses.P.middleStopBit.toNat = 0 ∧
      (inState .firstWord 7 8 0 1).ses.n ≠ (inState .firstWord 7 8 0 1).ses.L) ∧
    ((inState .firstWord 3 6 4 1).ses.n.toNat < (inState .firstWord 3 6 4 1).ses.P.middleStopBit.toNat ∧
      (inState .firstWord 3 6 4 1).ses.n ≠ (inState .firstWord 3 6 4 1).ses.L) ∧
    ((inState .secondWord 6 6 4 1).ses.state = .secondWord ∧
      (inState .secondWord 6 6 4 1).ses.n = (inState .secondWord 6 6 4 1).ses.L) ∧
    ((inState .middleStop 4 6 4 1).ses.state = .middleStop ∧
      0 < (inState .middleStop 4 6 4 1).ses.P.middleStopBit.toNat ∧
      (inState .middleStop 4 6 4 1).ses.P.middleStopBit.toNat ≤ (inState .middleStop 4 6 4 1).ses.n.toNat) ∧
    ((inState .secondWord 5 6 4 1).ses.state = .secondWord ∧
      (inState .secondWord 5 6 4 1).ses.n ≠ (inState .secondWord 5 6 4 1).ses.L) := by decide

/-- Each clause; the period is met exactly (`elapsed = REPEAT_TIME`) in the one, missed by a tick in the other. -/
theorem witness_ExpiryBetweenTransmissions :
    ((inState .stop 8 8 0 1).ses.rem = 1#32 ∧ (inState .stop 8 8 0 1).ses.postDelay = 0#32 ∧
      ({ (inState .stop 8 8 0 1).ses with postDelay := 1 } : Session).postDelay ≠ 0#32) ∧
    (1 < (inState .stop 8 8 0 2).ses.rem.toNat ∧
      (inState .stop 8 8 0 2).ses.P.repeatTime.toNat ≤ (inState .stop 8 8 0 2).ses.elapsed.toNat ∧
      ({ (inState .stop 8 8 0 2).ses with elapsed := 23 } : Session).elapsed.toNat <
        (inState .stop 8 8 0 2).ses.P.repeatTime.toNat) ∧
    ((inState .spaceTrailer 8 8 0 1).ses.state = .spaceTrailer ∧
      (inState .spaceTrailer 8 8 0 1).ses.P.flags.getLsbD 0 = false ∧
      ({ nec8 with flags := 1 } : Bank).flags.getLsbD 0 = true) ∧
    (inState .markTrailer 0 8 0 1).ses.state = .markTrailer := by decide

theorem witness_QuietDelayClearsBusy :
    Inv quiet ∧ quiet.halted = false ∧ quiet.port = [] ∧ quiet.inbox = [] ∧ quiet.ire.post.active = true ∧
    0 ≤ quiet.ire.post.left.toNat ∧ 5 ≤ quiet.ire.post.left.toNat :=
  ⟨quiet_inv, by decide, by decide, by decide, by decide, by decide, by decide⟩

theorem witness_SettersWriteOnlyTheirRegister : demo.halted = false := by decide

theorem witness_MovetoSetsCursor : demo.halted = false := by decide

theorem witness_DrawlinePaintsLineset : demo.halted = false := by decide

theorem witness_DrawrectPaintsBox : demo.halted = false := by decide

theorem witness_SetscaleLegalAndIllegal :
    demo.halted = false ∧ ((1#8).toNat = 1 ∧ (2#8).toNat = 2 ∧ (4#8).toNat = 4) ∧
    ∀ v ∈ [0#8, 3#8, 5#8, 255#8], ¬ (v.toNat = 1 ∨ v.toNat = 2 ∨ v.toNat = 4) := by decide

theorem witness_SetwritemodeLegalAndIllegal :
    demo.halted = false ∧ (0#3).toNat ≤ 4 ∧ (4#3).toNat ≤ 4 ∧ 4 < (5#3).toNat ∧ 4 < (7#3).toNat := by decide

theorem witness_ClearFillsWholeBuffer :
    demo.halted = false ∧ 0 < bufSize demo.params ∧ 15 < bufSize demo.params ∧ bufSize demo.params ≤ 16 := by decide

theorem witness_ReadbAnswersStoredByte :
    (0#32).toNat < bufSize demo.params ∧ (15#32).toNat < bufSize demo.params ∧
    bufSize demo.params ≤ (16#32).toNat ∧ demo.halted = false := by decide

theorem witness_CursorFontSizeAnswers : demo.params.wf = true := by decide

theorem witness_CombineFormulas : (0x80#8).getLsbD 7 = true ∧ (0x80#8).getLsbD 0 = false := by decide

theorem witness_NoCommandOverrunsBuffer :
    ∃ t, exec (.fbPaintpixel .white ⟨15, 7⟩) demo = .next t ∧ demo.fault.code ≠ some .fbBufferOverrun :=
  ⟨_, rfl, by decide⟩

/-- The last pixel of the canvas, and the last block at scale 4. -/
theorem witness_MapInjectiveOnCanvas :
    demo.mapPoint ⟨15, 7⟩ = some (15, 7) ∧ inBlock demo.fbr.scale.factor 15 7 15 7 ∧
    (demoFbr fun f => { f with scale := .x4 }).mapPoint ⟨3, 1⟩ = some (3, 1) ∧ inBlock 4 3 1 15 7 := by
  unfold inBlock
  decide

theorem witness_MapRotationsAndMirrors :
    0 < demo.logicalW ∧ 15 < demo.logicalW ∧ 7 < demo.logicalH ∧ demo.fbr.mirror = .none ∧
    demo.fbr.rotation = .rotate0 ∧ (demoFbr fun f => { f with rotation := .rotate90 }).fbr.rotation = .rotate90 ∧
    (demoFbr fun f => { f with rotation := .rotate180 }).fbr.rotation = .rotate180 ∧
    (demoFbr fun f => { f with rotation := .rotate270 }).fbr.rotation = .rotate270 ∧
    demo.mapPoint ⟨15, 7⟩ = some (15, 7) := by decide

theorem witness_PaintsetIgnoresOrder :
    Memory.wf demo.fbr.buf = true ∧
    ∀ p : Point, p ∈ [⟨9, 3⟩, ⟨8, 3⟩] ↔ p ∈ [⟨8, 3⟩, ⟨9, 3⟩, ⟨8, 3⟩] := by
  refine ⟨by decide, fun p => ?_⟩
  simp only [List.mem_cons, List.not_mem_nil, or_false]
  tauto

theorem witness_PaintTwiceAtOnePoint :
    demo.halted = false ∧ demo.fbr.writeMode = .write ∧ (∃ t, exec (.fbPaintpixel .white ⟨5, 5⟩) demo = .next t) ∧
    (demoFbr fun f => { f with writeMode := .xor }).fbr.writeMode = .xor ∧
    ∃ t, exec (.fbPaintpixel .white ⟨5, 5⟩) (demoFbr fun f => { f with writeMode := .xor }) = .next t :=
  ⟨by decide, by decide, ⟨_, rfl⟩, by decide, ⟨_, rfl⟩⟩

theorem witness_PaintpixelPaintsOneBlock :
    demo.halted = false ∧ demo.mapPoint ⟨16, 0⟩ = none ∧ demo.mapPoint ⟨15, 0⟩ = some (15, 0) := by decide

theorem witness_LinesetIsSymmetricWithEndpoints :
    (⟨3, 5⟩ : Point).y = (⟨12, 5⟩ : Point).y ∧ (⟨4, 0⟩ : Point).x = (⟨4, 3⟩ : Point).x ∧
    (⟨4, 4⟩ : Point) ∈ lineSet ⟨4, 4⟩ ⟨4, 4⟩ := by decide

theorem witness_BresenhamFollowsTheLine :
    (⟨4, 0⟩ : Point).x = (⟨4, 3⟩ : Point).x ∧ (⟨5, 2⟩ : Point) ∈ bresenham ⟨0, 0⟩ ⟨5, 2⟩ := by decide

/-- Under Write, and under Xor with XOR_MULTIPLICITY = SET. -/
theorem witness_DrawopenrectPaintsOutline :
    demo.halted = false ∧ ¬ (demo.fbr.writeMode = .xor ∧ demo.params.xorMult = .unspecified) ∧
    ¬ ((demoFbr fun f => { f with writeMode := .xor }).fbr.writeMode = .xor ∧ demo.params.xorMult = .unspecified) := by
  decide

theorem witness_DrawopencirclePaintsOctants :
    demo.halted = false ∧ ¬ (demo.fbr.writeMode = .xor ∧ demo.params.xorMult = .unspecified) ∧ (-1 : Int) < 0 := by
  decide

theorem witness_DrawcirclePaintsRows :
    demo.halted = false ∧ ¬ (demo.fbr.writeMode = .xor ∧ demo.params.xorMult = .unspecified) ∧ (-1 : Int) < 0 := by
  decide

theorem witness_CircleSetsAreNestedAndSymmetric :
    (⟨4, 3⟩ : Point) ∈ circlePoints ⟨4, 3⟩ 1 ∧ (⟨5, 3⟩ : Point) ∈ opencirclePoints ⟨4, 3⟩ 1 ∧ (1 : Int) ≤ 1 := by decide

/-- The source memory of two bytes: a bitmap that just fits, an empty one anywhere, and one a byte too long. -/
theorem witness_WriteimagePaintsBitmap :
    demo.halted = false ∧ (0#32).toNat + 2 * ((3 + 7) / 8) ≤ demo.params.srcSize ∧ 5 * ((0 + 7) / 8) = 0 ∧
    ¬ (3 * ((3 + 7) / 8) = 0 ∨ (0#32).toNat + 3 * ((3 + 7) / 8) ≤ demo.params.srcSize) := by decide

/-- No glyph, a glyph outside the source memory, and one inside it. -/
theorem witness_DrawcharPaintsGlyphAndAdvances :
    demo.halted = false ∧ fontGlyph demo.params 0#16 0x41#8 = none ∧
    fontGlyph demo.params 2#16 0x41#8 = some ⟨3#16, 3#16, 0#32⟩ ∧
    (glyphBitmap ⟨3#16, 3#16, 0#32⟩).inSource demo.params = false ∧
    fontGlyph demo.params 1#16 0x41#8 = some ⟨3#16, 2#16, 0#32⟩ ∧
    (glyphBitmap ⟨3#16, 2#16, 0#32⟩).inSource demo.params = true := by decide

/-- The block with XOR_MULTIPLICITY = UNSPECIFIED under Xor: an outline rectangle that reaches its corners twice. -/
theorem witness_UnspecifiedXorFreesOnlyRepeatedPixels :
    let s : State := { demoFbr (fun f => { f with writeMode := .xor }) with
      params := { demoParams with xorMult := .unspecified } }
    s.halted = false ∧ s.fbr.writeMode = .xor ∧ s.params.xorMult = .unspecified ∧
      (⟨1, 0⟩ : Point) ∈ (openrectShape ⟨0, 0⟩ ⟨4, 3⟩).pts ∧ (⟨1, 0⟩ : Point) ∉ (openrectShape ⟨0, 0⟩ ⟨4, 3⟩).repeated ∧
      (⟨0, 0⟩ : Point) ∈ (openrectShape ⟨0, 0⟩ ⟨4, 3⟩).repeated := by decide

end Sys2Proof.Tests
end

section
/-!
The family of 30_encoding.md: which opcodes the map of R85 leaves undefined and what a step does with them (R87), and
the fields of the status words (R93, R94).
-/
namespace Sys2Proof.Machine

/-! ## The opcode map (30_encoding.md R85, R87) -/

/-- A byte that names an opcode is the byte of that opcode: the converse of `Op.ofByte?_byte`. -/
theorem Op.byte_of_ofByte? {b : BitVec 8} {op : Op} (h : Op.ofByte? b = some op) : op.byte = b := by
  unfold Op.ofByte? at h
  split at h
  case h_26 => cases h
  all_goals
    rename_i hb
    injection h with h
    subst h
    exact BitVec.eq_of_toNat_eq hb.symm

/-- The bytes of the opcode map lie in 0x01 to 0x04 and in 0x10 to 0x24. -/
theorem Op.byte_range (op : Op) :
    (1 ≤ op.byte.toNat ∧ op.byte.toNat ≤ 4) ∨ (0x10 ≤ op.byte.toNat ∧ op.byte.toNat ≤ 0x24) := by
  cases op <;> decide

/-- The opcode map leaves exactly 0x00, 0x05 to 0x0F and 0x25 to 0xFF undefined. -/
theorem Op.ofByte?_eq_none_iff (b : BitVec 8) :
    Op.ofByte? b = none ↔ b.toNat = 0 ∨ (0x05 ≤ b.toNat ∧ b.toNat ≤ 0x0F) ∨ 0x25 ≤ b.toNat := by
  constructor
  · intro h
    unfold Op.ofByte? at h
    split at h
    case h_26 =>
      simp only [imp_false] at *
      omega
    all_goals cases h
  · intro hb
    cases h : Op.ofByte? b with
    | none => rfl
    | some op =>
      have hr := Op.byte_range op
      rw [Op.byte_of_ofByte? h] at hr
      omega

/-- A header with an undefined opcode decodes to that opcode and takes no argument word with it. -/
theorem decode_of_ofByte?_eq_none {h : Word} (hu : Op.ofByte? (opcodeField h) = none) (ws : List Word) :
    decode h ws = .illegalOpcode (opcodeField h) ws := by simp only [decode, hu]

/-- What a step does when the port's next words decode to an undefined opcode. -/
theorem step_of_illegalOpcode {s : State} {h : Word} {ws rest : List Word} {o : BitVec 8} (hp : s.port = h :: ws)
    (hd : decode h ws = .illegalOpcode o rest) : step s = .next (illegalOpcode o { s with port := rest }) := by
  simp only [step, hp, hd]

/-- Settles O6: the map's gaps are `Op.ofByte?_eq_none_iff`, and a running block faults on them. -/
theorem undefinedOpcodeFaults : Obligations.UndefinedOpcodeFaults := by
  refine ⟨fun s h ws hrun hp hgap => ?_, fun b hb => ?_⟩
  · have hu : Op.ofByte? (opcodeField h) = none := (Op.ofByte?_eq_none_iff _).2 hgap
    rw [step_of_illegalOpcode hp (decode_of_ofByte?_eq_none hu ws)]
    exact congrArg _ (command_of_running (s := { s with port := ws }) hrun)
  · have hdef : Op.ofByte? b ≠ none := by
      rw [Ne, Op.ofByte?_eq_none_iff]
      omega
    obtain ⟨op, hop⟩ := Option.ne_none_iff_exists'.1 hdef
    exact ⟨op, hop, Op.byte_of_ofByte? hop⟩

/-! ## The status words (30_encoding.md R93, R94) -/

@[simp] theorem bit_getLsbD_zero (b : Bool) : (bit b).getLsbD 0 = b := by cases b <;> rfl

/-- The 3-bit scale field holds the scale's value 1, 2 or 4. -/
@[simp] theorem Scale.bits_toNat (k : Scale) : k.bits.toNat = k.factor := by cases k <;> rfl

section StatusWords
variable (s : State)

theorem irStatusWord_busy : s.irStatusWord.getLsbD 0 = s.ire.ses.busy := by
  simp only [State.irStatusWord, BitVec.getLsbD_append, Nat.reduceLT, ↓reduceIte, bit_getLsbD_zero]

theorem irStatusWord_state : s.irStatusWord.extractLsb' 1 4 = s.ire.ses.state.code := by
  simp only [State.irStatusWord, BitVec.extractLsb'_append_eq_of_le, BitVec.extractLsb'_append_eq_right,
    Nat.reduceLeDiff, Nat.reduceSub]

theorem irStatusWord_genActive : s.irStatusWord.getLsbD 5 = s.ire.gen.active := by
  simp only [State.irStatusWord, BitVec.getLsbD_append, Nat.reduceSub, Nat.reduceLT, Nat.lt_irrefl, ↓reduceIte,
    bit_getLsbD_zero]

theorem irStatusWord_irEnv : s.irStatusWord.getLsbD 6 = s.irEnv := by
  simp only [State.irStatusWord, BitVec.getLsbD_append, Nat.reduceSub, Nat.reduceLT, Nat.lt_irrefl, ↓reduceIte,
    bit_getLsbD_zero]

theorem irStatusWord_postActive : s.irStatusWord.getLsbD 7 = s.ire.post.active := by
  simp only [State.irStatusWord, BitVec.getLsbD_append, Nat.reduceSub, Nat.reduceLT, Nat.lt_irrefl, ↓reduceIte,
    bit_getLsbD_zero]

theorem irStatusWord_cfgErr : s.irStatusWord.extractLsb' 8 8 = s.ire.ses.cfgErrByte := by
  simp only [State.irStatusWord, BitVec.extractLsb'_append_eq_of_le, BitVec.extractLsb'_append_eq_right,
    Nat.reduceLeDiff, Nat.reduceSub]

theorem irStatusWord_faultCode : s.irStatusWord.extractLsb' 16 8 = s.fault.codeByte := by
  simp only [State.irStatusWord, BitVec.extractLsb'_append_eq_of_le, BitVec.extractLsb'_append_eq_right,
    Nat.reduceLeDiff, Nat.reduceSub]

theorem irStatusWord_high : s.irStatusWord.extractLsb' 24 8 = 0#8 := by
  simp only [State.irStatusWord, BitVec.extractLsb'_append_eq_of_le, BitVec.extractLsb'_eq_self,
    Nat.reduceLeDiff, Nat.reduceSub]

theorem fbStatusWord_faultCode : s.fbStatusWord.extractLsb' 0 8 = s.fault.codeByte := by
  simp only [State.fbStatusWord, BitVec.extractLsb'_append_eq_right]

theorem fbStatusWord_scale : s.fbStatusWord.extractLsb' 8 3 = s.fbr.scale.bits := by
  simp only [State.fbStatusWord, BitVec.extractLsb'_append_eq_of_le, BitVec.extractLsb'_append_eq_right,
    Nat.reduceLeDiff, Nat.reduceSub]

theorem fbStatusWord_rotation : s.fbStatusWord.extractLsb' 11 2 = s.fbr.rotation.code := by
  simp only [State.fbStatusWord, BitVec.extractLsb'_append_eq_of_le, BitVec.extractLsb'_append_eq_right,
    Nat.reduceLeDiff, Nat.reduceSub]

theorem fbStatusWord_mirror : s.fbStatusWord.extractLsb' 13 2 = s.fbr.mirror.code := by
  simp only [State.fbStatusWord, BitVec.extractLsb'_append_eq_of_le, BitVec.extractLsb'_append_eq_right,
    Nat.reduceLeDiff, Nat.reduceSub]

theorem fbStatusWord_writeMode : s.fbStatusWord.extractLsb' 15 3 = s.fbr.writeMode.code := by
  simp only [State.fbStatusWord, BitVec.extractLsb'_append_eq_of_le, BitVec.extractLsb'_append_eq_right,
    Nat.reduceLeDiff, Nat.reduceSub]

theorem fbStatusWord_colour : s.fbStatusWord.extractLsb' 18 1 = s.fbr.colour.bit := by
  simp only [State.fbStatusWord, BitVec.extractLsb'_append_eq_of_le, BitVec.extractLsb'_append_eq_right,
    Nat.reduceLeDiff, Nat.reduceSub]

theorem fbStatusWord_high : s.fbStatusWord.extractLsb' 19 13 = 0#13 := by
  simp only [State.fbStatusWord, BitVec.extractLsb'_append_eq_of_le, BitVec.extractLsb'_eq_self,
    Nat.reduceLeDiff, Nat.reduceSub]

/-- IR_STATUS only responds, with `State.irStatusWord` (40_ir_commands.md R130). -/
theorem exec_irStatus : exec .irStatus s = .next (respond s.irStatusWord s) := rfl

/-- FB_STATUS only responds, with `State.fbStatusWord` (42_fb_config.md R190). -/
theorem exec_fbStatus : exec .fbStatus s = .next (respond s.fbStatusWord s) := rfl

end StatusWords

/-- Settles O29: the response is `State.irStatusWord`, field by field. -/
theorem irStatusAnswersWord : Obligations.IrStatusAnswersWord := fun s =>
  ⟨s.irStatusWord, exec_irStatus s, irStatusWord_busy s, irStatusWord_state s, irStatusWord_genActive s,
    irStatusWord_irEnv s, irStatusWord_postActive s, irStatusWord_cfgErr s, irStatusWord_faultCode s,
    irStatusWord_high s⟩

/-- Settles O41: the response is `State.fbStatusWord`, field by field; the scale's field holds its value. -/
theorem fbStatusAnswersWord : Obligations.FbStatusAnswersWord := fun s =>
  ⟨s.fbStatusWord, exec_fbStatus s, fbStatusWord_faultCode s, by rw [fbStatusWord_scale, Scale.bits_toNat],
    fbStatusWord_rotation s, fbStatusWord_mirror s, fbStatusWord_writeMode s, fbStatusWord_colour s,
    fbStatusWord_high s⟩

end Sys2Proof.Machine
end

section
/-!
The family of 40_ir_commands.md: IR_SEND on an idle unit IRE when VALIDATE answers a configuration error (R125).
-/
namespace Sys2Proof.Machine

/-- A running block executes IR_SEND by its effect. -/
theorem exec_irSend_of_running (p1 p2 pd ovr : Word) {s : State} (hrun : s.halted = false) :
    exec (.irSend p1 p2 pd ovr) s = .next (sendEffect p1 p2 pd ovr s) :=
  congrArg _ (command_of_running hrun)

/-- The reject case of IR_SEND's effect (40_ir_commands.md R125). -/
theorem sendEffect_of_refused (p2 pd ovr : Word) {p1 : Word} {e : CfgErr} {s : State}
    (hidle : s.ire.ses.busy = false) (hrefused : validate s.params s.ire.staging p1 = .error e) :
    sendEffect p1 p2 pd ovr s = { s with ire := rejectSend e s.ire } := by
  simp only [sendEffect, hidle, hrefused, Bool.false_eq_true, ↓reduceIte]

/-- Settles O27: a running block executes the send by its effect, whose reject case is `rejectSend`. -/
theorem sendRefusedWritesOnlyCfgErr : Obligations.SendRefusedWritesOnlyCfgErr := by
  intro s p1 p2 pd ovr e hrun hidle hrefused
  rw [exec_irSend_of_running p1 p2 pd ovr hrun, sendEffect_of_refused p2 pd ovr hidle hrefused]
  rfl

end Sys2Proof.Machine
end

section
/-!
The family of 43_fb_pixel.md: the formulas of COMBINE on one bit (R211), and FB_PAINTPIXEL twice at one point (R231).
-/
namespace Sys2Proof.Machine

/-! ## COMBINE, bit by bit (43_fb_pixel.md R211) -/

section CombineBit
variable (c : Colour) (old : Bool)

theorem combineBit_write : combineBit .write c old = decide (c = .white) := by cases c <;> rfl

theorem combineBit_inverseWrite : combineBit .inverseWrite c old = decide (c = .black) := by cases c <;> rfl

theorem combineBit_or : combineBit .or c old = (old || decide (c = .white)) := by
  cases c
  · exact (Bool.or_false old).symm
  · exact (Bool.or_true old).symm

theorem combineBit_xor : combineBit .xor c old = (old ^^ decide (c = .white)) := by
  cases c
  · exact (Bool.xor_false old).symm
  · exact (Bool.xor_true old).symm

theorem combineBit_inverseAnd : combineBit .inverseAnd c old = (old && decide (c = .black)) := by
  cases c
  · exact (Bool.and_true old).symm
  · exact (Bool.and_false old).symm

/-- `(old ^ K) ^ K = old` on one bit (43_fb_pixel.md R231). -/
theorem combineBit_xor_twice : combineBit .xor c (combineBit .xor c old) = old := by
  rw [combineBit_xor, combineBit_xor, Bool.xor_assoc, Bool.xor_self, Bool.xor_false]

end CombineBit

theorem combine_getLsbD_of_masked (mode : WriteMode) (old : Byte) {M : Byte} (c : Colour) {i : Fin 8}
    (hM : M.getLsbD i = true) :
    (combine mode old (colByte c) M).getLsbD i = combineBit mode c (old.getLsbD i) := by
  rw [combine_getLsbD mode old M c i i.isLt, if_pos hM]

theorem combine_getLsbD_of_not_masked (mode : WriteMode) (old : Byte) {M : Byte} (c : Colour) {i : Fin 8}
    (hM : M.getLsbD i = false) : (combine mode old (colByte c) M).getLsbD i = old.getLsbD i := by
  rw [combine_getLsbD mode old M c i i.isLt, if_neg (Bool.eq_false_iff.1 hM)]

/-- Settles O43: the formulas are the definition's, and a bit follows `combineBit` inside the mask. -/
theorem combineFormulas : Obligations.CombineFormulas := by
  refine fun old M c => ⟨rfl, rfl, rfl, rfl, rfl, fun i => ⟨fun hM mode => ?_, fun hM => ⟨?_, ?_, ?_, ?_, ?_⟩⟩⟩
  · exact combine_getLsbD_of_not_masked mode old c hM
  · exact (combine_getLsbD_of_masked _ old c hM).trans (combineBit_write _ _)
  · exact (combine_getLsbD_of_masked _ old c hM).trans (combineBit_inverseWrite _ _)
  · exact (combine_getLsbD_of_masked _ old c hM).trans (combineBit_or _ _)
  · exact (combine_getLsbD_of_masked _ old c hM).trans (combineBit_xor _ _)
  · exact (combine_getLsbD_of_masked _ old c hM).trans (combineBit_inverseAnd _ _)

/-! ## FB_PAINTPIXEL (43_fb_pixel.md R230, R231) -/

/-- `t` is `s` with the block of `p` painted in colour `c`: only the buffer differs, and of it only the bits that `p`
covers. -/
structure PaintsPoint (c : Colour) (p : Point) (s t : State) : Prop where
  frame : ∃ m, t = { s with fbr := { s.fbr with buf := m } }
  covered : ∀ a i, i < 8 → s.covers p a i →
    (t.readByte a).getLsbD i = combineBit s.fbr.writeMode c ((s.readByte a).getLsbD i)
  uncovered : ∀ a i, i < 8 → ¬ s.covers p a i → (t.readByte a).getLsbD i = (s.readByte a).getLsbD i

/-- A running block executes FB_PAINTPIXEL by painting its one point. -/
theorem exec_fbPaintpixel_paintsPoint (c : Colour) (p : Point) {s : State} (hrun : s.halted = false) :
    ∃ t, exec (.fbPaintpixel c p) s = .next t ∧ PaintsPoint c p s t := by
  obtain ⟨m, hset, hbits, -⟩ := paintSet_spec s c [p] s.fbr.buf
  have hexec : exec (.fbPaintpixel c p) s = .next { s with fbr := { s.fbr with buf := m } } := by
    refine congrArg _ ((command_of_running hrun).trans ?_)
    rw [paintpixelEffect, hset, paintOutcome_some]
  refine ⟨_, hexec, ⟨m, rfl⟩, fun a i hi hc => ?_, fun a i hi hc => ?_⟩
  · exact (hbits a i hi).1 ⟨p, List.mem_singleton_self p, hc⟩
  · refine (hbits a i hi).2 fun ⟨q, hq, hcq⟩ => hc ?_
    rwa [List.mem_singleton.1 hq] at hcq

/-- A successful FB_PAINTPIXEL of a running block painted its one point. -/
theorem paintsPoint_of_exec {c : Colour} {p : Point} {s t : State} (hrun : s.halted = false)
    (h : exec (.fbPaintpixel c p) s = .next t) : PaintsPoint c p s t := by
  obtain ⟨t', ht', hpaint⟩ := exec_fbPaintpixel_paintsPoint c p hrun
  obtain rfl : t' = t := Host.Outcome.next.inj (ht'.symm.trans h)
  exact hpaint

namespace PaintsPoint
variable {c d : Colour} {p : Point} {s t u w : State}

theorem halted_eq (h : PaintsPoint c p s t) : t.halted = s.halted := by
  obtain ⟨m, rfl⟩ := h.frame
  rfl

theorem writeMode_eq (h : PaintsPoint c p s t) : t.fbr.writeMode = s.fbr.writeMode := by
  obtain ⟨m, rfl⟩ := h.frame
  rfl

theorem params_eq (h : PaintsPoint c p s t) : t.params = s.params := by
  obtain ⟨m, rfl⟩ := h.frame
  rfl

/-- Painting moves no block: the bits a point covers stay the same. -/
theorem covers_iff (h : PaintsPoint c p s t) (q : Point) (a i : Nat) : t.covers q a i ↔ s.covers q a i := by
  obtain ⟨m, rfl⟩ := h.frame
  exact Iff.rfl

/-- A covered bit after two paintings of one point is combined twice. -/
theorem covered_twice (h : PaintsPoint c p s t) (h' : PaintsPoint d p t u) {a i : Nat} (hi : i < 8)
    (hc : s.covers p a i) : (u.readByte a).getLsbD i =
      combineBit s.fbr.writeMode d (combineBit s.fbr.writeMode c ((s.readByte a).getLsbD i)) := by
  rw [h'.covered a i hi ((h.covers_iff p a i).2 hc), h.covered a i hi hc, h.writeMode_eq]

/-- A bit outside the block is unchanged by two paintings of one point. -/
theorem uncovered_twice (h : PaintsPoint c p s t) (h' : PaintsPoint d p t u) {a i : Nat} (hi : i < 8)
    (hc : ¬ s.covers p a i) : (u.readByte a).getLsbD i = (s.readByte a).getLsbD i := by
  rw [h'.uncovered a i hi (hc ∘ (h.covers_iff p a i).1), h.uncovered a i hi hc]

/-- Under Write a second colour at one point leaves the buffer of that colour alone (43_fb_pixel.md R231). -/
theorem readByte_write_twice (h : PaintsPoint c p s t) (h' : PaintsPoint d p t u) (hw : PaintsPoint d p s w)
    (hmode : s.fbr.writeMode = .write) (a : Nat) : u.readByte a = w.readByte a := by
  refine BitVec.eq_of_getLsbD_eq fun i hi => ?_
  by_cases hc : s.covers p a i
  · rw [h.covered_twice h' hi hc, hw.covered a i hi hc, hmode, combineBit_write, combineBit_write]
  · rw [h.uncovered_twice h' hi hc, hw.uncovered a i hi hc]

/-- Under Xor the same colour twice at one point restores the buffer (43_fb_pixel.md R231). -/
theorem readByte_xor_twice (h : PaintsPoint c p s t) (h' : PaintsPoint c p t u) (hmode : s.fbr.writeMode = .xor)
    (a : Nat) : u.readByte a = s.readByte a := by
  refine BitVec.eq_of_getLsbD_eq fun i hi => ?_
  by_cases hc : s.covers p a i
  · rw [h.covered_twice h' hi hc, hmode, combineBit_xor_twice]
  · exact h.uncovered_twice h' hi hc

/-- Every physical pixel of the painted block is combined with the colour (43_fb_pixel.md R217, R230). -/
theorem pixel_of_inBlock (h : PaintsPoint c p s t) {x y px py : Nat} (hmap : s.mapPoint p = some (x, y))
    (hblock : inBlock s.fbr.scale.factor x y px py) :
    t.pixel px py = combineBit s.fbr.writeMode c (s.pixel px py) := by
  have hc : s.covers p (pixAddr s.params px py) (pixBit px) :=
    (Machine.covers_iff s p _ _).2 ⟨x, y, px, py, hmap, hblock, rfl, rfl⟩
  rw [State.pixel, h.params_eq]
  exact h.covered _ _ (pixBit_lt px) hc

end PaintsPoint

/-- Settles O48: by `PaintsPoint`, the second painting meets the bits of the first, and `combineBit` of the mode
decides them. -/
theorem paintTwiceAtOnePoint : Obligations.PaintTwiceAtOnePoint := by
  refine fun s t c p hrun => ⟨fun hmode hexec => ?_, fun hmode hexec => ?_⟩
  · have hwhite := paintsPoint_of_exec hrun hexec
    obtain ⟨u, hu, hblack⟩ := exec_fbPaintpixel_paintsPoint .black p (hwhite.halted_eq.trans hrun)
    obtain ⟨w, hw, honly⟩ := exec_fbPaintpixel_paintsPoint .black p hrun
    have hbytes := hwhite.readByte_write_twice hblack honly hmode
    refine ⟨u, w, hu, hw, hbytes, fun x y px py hmap hblock => ?_⟩
    calc u.pixel px py
        = w.pixel px py := by
          rw [State.pixel, hbytes, hblack.params_eq, hwhite.params_eq, ← honly.params_eq, ← State.pixel]
      _ = combineBit .write .black (s.pixel px py) := by rw [honly.pixel_of_inBlock hmap hblock, hmode]
      _ = false := combineBit_write _ _
  · have hfirst := paintsPoint_of_exec hrun hexec
    obtain ⟨u, hu, hsecond⟩ := exec_fbPaintpixel_paintsPoint c p (hfirst.halted_eq.trans hrun)
    exact ⟨u, hu, hfirst.readByte_xor_twice hsecond hmode⟩

end Sys2Proof.Machine
end

section
/-!
The family of 44_fb_shapes.md: LINESET on a row and on a column (R240), its symmetry and its endpoints (R241 to R243).
-/
namespace Sys2Proof.Machine

/-! ## Rows and columns (44_fb_shapes.md R240) -/

/-- The bind in the proof is the coercion of the model's `List.range` to a list of integers. -/
@[simp] theorem mem_intRange {lo hi v : Int} : v ∈ intRange lo hi ↔ lo ≤ v ∧ v ≤ hi := by
  simp only [intRange, List.mem_map, List.bind_eq_flatMap, List.pure_def, List.mem_flatMap, List.mem_singleton,
    List.mem_range]
  constructor
  · rintro ⟨_, ⟨i, hlt, rfl⟩, rfl⟩
    omega
  · rintro ⟨hlo, hhi⟩
    exact ⟨v - lo, ⟨(v - lo).toNat, by omega, by omega⟩, by omega⟩

@[simp] theorem mem_hspan {lo hi y : Int} {q : Point} : q ∈ hspan lo hi y ↔ q.y = y ∧ lo ≤ q.x ∧ q.x ≤ hi := by
  obtain ⟨qx, qy⟩ := q
  simp only [hspan, List.mem_map, mem_intRange, Point.mk.injEq]
  constructor
  · rintro ⟨x, hx, rfl, rfl⟩
    exact ⟨rfl, hx⟩
  · rintro ⟨rfl, hx⟩
    exact ⟨qx, hx, rfl, rfl⟩

@[simp] theorem mem_vspan {lo hi x : Int} {q : Point} : q ∈ vspan lo hi x ↔ q.x = x ∧ lo ≤ q.y ∧ q.y ≤ hi := by
  obtain ⟨qx, qy⟩ := q
  simp only [vspan, List.mem_map, mem_intRange, Point.mk.injEq]
  constructor
  · rintro ⟨y, hy, rfl, rfl⟩
    exact ⟨rfl, hy⟩
  · rintro ⟨rfl, hy⟩
    exact ⟨qy, hy, rfl, rfl⟩

/-- The dispatch of LINESET on a row. -/
theorem lineSet_of_row {p0 p1 : Point} (hrow : p0.y = p1.y) :
    lineSet p0 p1 = hspan (min p0.x p1.x) (max p0.x p1.x) p0.y := if_pos hrow

/-- The dispatch of LINESET on a column of more than one point. -/
theorem lineSet_of_column {p0 p1 : Point} (hrow : p0.y ≠ p1.y) (hcol : p0.x = p1.x) :
    lineSet p0 p1 = vspan (min p0.y p1.y) (max p0.y p1.y) p0.x := by
  rw [lineSet, if_neg hrow, if_pos hcol]

/-- The dispatch of LINESET on endpoints that share no coordinate. -/
theorem lineSet_of_general {p0 p1 : Point} (hrow : p0.y ≠ p1.y) (hcol : p0.x ≠ p1.x) :
    lineSet p0 p1 = bresenham p0 p1 := by
  rw [lineSet, if_neg hrow, if_neg hcol]

theorem mem_lineSet_of_row {p0 p1 : Point} (hrow : p0.y = p1.y) (q : Point) :
    q ∈ lineSet p0 p1 ↔ q.y = p0.y ∧ min p0.x p1.x ≤ q.x ∧ q.x ≤ max p0.x p1.x := by
  rw [lineSet_of_row hrow, mem_hspan]

/-- A column of one point is drawn by the row path, which gives the same one point. -/
theorem mem_lineSet_of_column {p0 p1 : Point} (hcol : p0.x = p1.x) (q : Point) :
    q ∈ lineSet p0 p1 ↔ q.x = p0.x ∧ min p0.y p1.y ≤ q.y ∧ q.y ≤ max p0.y p1.y := by
  by_cases hrow : p0.y = p1.y
  · rw [mem_lineSet_of_row hrow]
    omega
  · rw [lineSet_of_column hrow hcol, mem_vspan]

/-! ## BRESENHAM (44_fb_shapes.md R241, R243) -/

/-- The point with major coordinate `x` and minor coordinate `y`: a steep line has its major axis along y. -/
def pointOnAxes (steep : Bool) (x y : Int) : Point := if steep then ⟨y, x⟩ else ⟨x, y⟩

/-- One step of the loop: it emits the current point and, when the error goes below 0, moves on the minor axis. -/
theorem bresenhamSteps_succ (steep : Bool) (dx dy ystep : Int) (k : Nat) (x y err : Int) :
    bresenhamSteps steep dx dy ystep (k + 1) x y err = pointOnAxes steep x y ::
      if err - dy < 0 then bresenhamSteps steep dx dy ystep k (x + 1) (y + ystep) (err - dy + dx)
      else bresenhamSteps steep dx dy ystep k (x + 1) y (err - dy) := rfl

/-- Step `i` of the loop emits a point of major coordinate `x + i`; after `c` moves on the minor axis the error is
`err - i * dy + c * dx`, and it stays between 0 and `dx`. -/
theorem exists_minor_mem_bresenhamSteps (steep : Bool) {dx dy : Int} (ystep : Int) (hdy : 0 ≤ dy) (hdx : dy ≤ dx)
    (i k : Nat) (hik : i < k) (x y err : Int) (hlo : 0 ≤ err) (hhi : err < dx) :
    ∃ c : Int, 0 ≤ err - i * dy + c * dx ∧ err - i * dy + c * dx < dx ∧
      pointOnAxes steep (x + i) (y + c * ystep) ∈ bresenhamSteps steep dx dy ystep k x y err := by
  induction i generalizing k x y err with
  | zero =>
    obtain ⟨k, rfl⟩ := Nat.exists_eq_succ_of_ne_zero hik.ne'
    refine ⟨0, by simpa using hlo, by simpa using hhi, ?_⟩
    simp [bresenhamSteps_succ]
  | succ i ih =>
    obtain ⟨k, rfl⟩ := Nat.exists_eq_succ_of_ne_zero (Nat.ne_zero_of_lt hik)
    rw [bresenhamSteps_succ]
    push_cast
    by_cases herr : err - dy < 0
    · obtain ⟨c, hclo, hchi, hmem⟩ :=
        ih k (by omega) (x + 1) (y + ystep) (err - dy + dx) (by omega) (by omega)
      refine ⟨c + 1, by linarith, by linarith, List.mem_cons_of_mem _ ?_⟩
      rw [if_pos herr]
      convert hmem using 2 <;> ring
    · obtain ⟨c, hclo, hchi, hmem⟩ := ih k (by omega) (x + 1) y (err - dy) (by omega) (by omega)
      refine ⟨c, by linarith, by linarith, List.mem_cons_of_mem _ ?_⟩
      rw [if_neg herr]
      convert hmem using 2
      ring

section Major
variable {x0 y0 x1 y1 : Int}

/-- The whole minor distance, in the direction of `ystep`, leads from one endpoint to the other. -/
theorem add_abs_sub_mul_ystep (y0 y1 : Int) : y0 + |y1 - y0| * (if y0 < y1 then 1 else -1) = y1 := by
  split
  case isTrue h => rw [abs_of_pos (by omega)]; ring
  case isFalse h => rw [abs_of_nonpos (by omega)]; ring

theorem left_mem_bresenhamMajor (steep : Bool) (hlt : x0 < x1) :
    pointOnAxes steep x0 y0 ∈ bresenhamMajor steep x0 y0 x1 y1 := by
  obtain ⟨k, hk⟩ : ∃ k, (x1 - x0 + 1).toNat = k + 1 := Nat.exists_eq_succ_of_ne_zero (by omega)
  rw [bresenhamMajor, hk, bresenhamSteps_succ]
  exact List.mem_cons_self

/-- Two errors from 0 to below `d` that differ by a multiple of `d` are equal: the moves have made up for the steps. -/
theorem moves_eq_of_error_range {e d n c : Int} (he : 0 ≤ e) (hed : e < d) (hlo : 0 ≤ e - d * n + c * d)
    (hhi : e - d * n + c * d < d) : c = n := by
  have hquot : (e + (c - n) * d) / d = 0 := by
    rw [show e + (c - n) * d = e - d * n + c * d by ring, Int.ediv_eq_zero_of_lt hlo hhi]
  rw [Int.add_mul_ediv_right _ _ (by omega), Int.ediv_eq_zero_of_lt he hed] at hquot
  omega

/-- The last step has made the `|y1 - y0|` moves on the minor axis that lead to the other endpoint. -/
theorem right_mem_bresenhamMajor (steep : Bool) (hlt : x0 < x1) (hmajor : |y1 - y0| ≤ x1 - x0) :
    pointOnAxes steep x1 y1 ∈ bresenhamMajor steep x0 y0 x1 y1 := by
  obtain ⟨c, hlo, hhi, hmem⟩ := exists_minor_mem_bresenhamSteps steep (if y0 < y1 then 1 else -1)
    (abs_nonneg (y1 - y0)) hmajor (x1 - x0).toNat (x1 - x0 + 1).toNat (by omega) x0 y0 ((x1 - x0) / 2)
    (by omega) (by omega)
  have hsteps : ((x1 - x0).toNat : Int) = x1 - x0 := Int.toNat_of_nonneg (by omega)
  rw [hsteps] at hlo hhi hmem
  have hmoves : c = |y1 - y0| := moves_eq_of_error_range (by omega) (by omega) hlo hhi
  rwa [hmoves, add_abs_sub_mul_ystep, add_sub_cancel] at hmem

/-- Swapping whole endpoints changes nothing, because the swap orders them (44_fb_shapes.md R241). -/
theorem bresenhamOrdered_comm (steep : Bool) (hne : x0 ≠ x1) :
    bresenhamOrdered steep x0 y0 x1 y1 = bresenhamOrdered steep x1 y1 x0 y0 := by
  unfold bresenhamOrdered
  rcases lt_or_gt_of_ne hne with h | h
  · rw [if_neg h.not_gt, if_pos h]
  · rw [if_pos h, if_neg h.not_gt]

theorem left_mem_bresenhamOrdered (steep : Bool) (hne : x0 ≠ x1) (hmajor : |y1 - y0| ≤ |x1 - x0|) :
    pointOnAxes steep x0 y0 ∈ bresenhamOrdered steep x0 y0 x1 y1 := by
  unfold bresenhamOrdered
  split
  case isTrue h =>
    refine right_mem_bresenhamMajor steep h ?_
    rwa [abs_of_neg (sub_neg.2 h), neg_sub, abs_sub_comm] at hmajor
  case isFalse h => exact left_mem_bresenhamMajor steep (by omega)

end Major

/-- BRESENHAM does not depend on the order of endpoints that share no coordinate. -/
theorem bresenham_comm {p0 p1 : Point} (hrow : p0.y ≠ p1.y) (hcol : p0.x ≠ p1.x) :
    bresenham p0 p1 = bresenham p1 p0 := by
  unfold bresenham
  rw [abs_sub_comm p1.x, abs_sub_comm p1.y, bresenhamOrdered_comm true hrow, bresenhamOrdered_comm false hcol]

theorem left_mem_bresenham {p0 p1 : Point} (hrow : p0.y ≠ p1.y) (hcol : p0.x ≠ p1.x) : p0 ∈ bresenham p0 p1 := by
  unfold bresenham
  split
  case isTrue h => exact left_mem_bresenhamOrdered true hrow h.le
  case isFalse h => exact left_mem_bresenhamOrdered false hcol (not_lt.1 h)

/-! ## LINESET (44_fb_shapes.md R242) -/

theorem mem_lineSet_comm (p0 p1 q : Point) : q ∈ lineSet p0 p1 ↔ q ∈ lineSet p1 p0 := by
  by_cases hrow : p0.y = p1.y
  · rw [mem_lineSet_of_row hrow, mem_lineSet_of_row hrow.symm, hrow, min_comm, max_comm]
  by_cases hcol : p0.x = p1.x
  · rw [mem_lineSet_of_column hcol, mem_lineSet_of_column hcol.symm, hcol, min_comm, max_comm]
  rw [lineSet_of_general hrow hcol, lineSet_of_general (Ne.symm hrow) (Ne.symm hcol), bresenham_comm hrow hcol]

theorem left_mem_lineSet (p0 p1 : Point) : p0 ∈ lineSet p0 p1 := by
  by_cases hrow : p0.y = p1.y
  · exact (mem_lineSet_of_row hrow p0).2 ⟨rfl, min_le_left _ _, le_max_left _ _⟩
  by_cases hcol : p0.x = p1.x
  · exact (mem_lineSet_of_column hcol p0).2 ⟨rfl, min_le_left _ _, le_max_left _ _⟩
  rw [lineSet_of_general hrow hcol]
  exact left_mem_bresenham hrow hcol

theorem right_mem_lineSet (p0 p1 : Point) : p1 ∈ lineSet p0 p1 :=
  (mem_lineSet_comm p0 p1 p1).2 (left_mem_lineSet p1 p0)

/-- Settles O51: rows and columns by their ranges, the order by the swap of BRESENHAM, the endpoints by its loop. -/
theorem linesetIsSymmetricWithEndpoints : Obligations.LinesetIsSymmetricWithEndpoints := fun p0 p1 =>
  ⟨mem_lineSet_of_row, mem_lineSet_of_column, mem_lineSet_comm p0 p1, left_mem_lineSet p0 p1, right_mem_lineSet p0 p1⟩

end Sys2Proof.Machine
end

section
/-!
What a command and a step can do, said once for all commands: the effects of a command (30_encoding.md R85,
60_exceptions.md R302, R303), of a header that is no command (R86, R87), and of a tick (20_memory.md R74).
-/
namespace Sys2Proof.Machine

/-! ## Painting never fails (43_fb_pixel.md R219) -/

/-- `m` may become the buffer of `s`: it is canonical and below BUF_SIZE if the present one is. -/
structure BufferKept (s : State) (m : Memory) : Prop where
  sorted : Memory.wf s.fbr.buf = true → Memory.wf m = true
  below : memBelow (bufSize s.params) s.fbr.buf = true → memBelow (bufSize s.params) m = true

theorem BufferKept.refl (s : State) : BufferKept s s.fbr.buf := ⟨id, id⟩

theorem paintSet_kept (s : State) (c : Colour) (S : List Point) {m : Memory} (hm : BufferKept s m) :
    ∃ m', paintSet s c S m = some m' ∧ BufferKept s m' := by
  obtain ⟨m', hset, -, -, hwf, hbelow⟩ := paintSet_spec s c S m
  exact ⟨m', hset, hwf ∘ hm.sorted, hbelow ∘ hm.below⟩

/-- The buffer a shape leaves: its points painted, the free ones apart (43_fb_pixel.md R225). -/
def shapeBuf (sh : Shape) (s : State) : Option Memory :=
  if s.freePoints sh = [] then paintSet s s.fbr.colour sh.pts s.fbr.buf
  else
    (paintSet s s.fbr.colour (sh.pts.filter fun p => !(s.freePoints sh).contains p) s.fbr.buf).bind
      (editPoints s (freePixels s.freeCtr) (s.freePoints sh))

/-- The next unused stamp after a shape: free pixels take one. -/
def shapeCtr (sh : Shape) (s : State) : Nat := if s.freePoints sh = [] then s.freeCtr else s.freeCtr + 1

theorem paintShape_eq (op : Op) (sh : Shape) (s : State) :
    paintShape op sh s = paintOutcome op sh.pts (shapeBuf sh s) { s with freeCtr := shapeCtr sh s } := by
  unfold paintShape shapeBuf shapeCtr
  dsimp only
  split <;> rfl

theorem freePoints_nodup (sh : Shape) (s : State) : (s.freePoints sh).Nodup := by
  unfold State.freePoints
  split
  · exact List.nodup_dedup _
  · exact List.nodup_nil

theorem shapeBuf_kept (sh : Shape) (s : State) : ∃ m, shapeBuf sh s = some m ∧ BufferKept s m := by
  unfold shapeBuf
  split
  · exact paintSet_kept s _ _ (.refl s)
  · obtain ⟨m, hset, hkept⟩ := paintSet_kept s s.fbr.colour
      (sh.pts.filter fun p => !(s.freePoints sh).contains p) (.refl s)
    obtain ⟨m', hedit, -, -, hwf, hbelow⟩ :=
      editPoints_spec s (freePixels_masked s.freeCtr) (s.freePoints sh) (freePoints_nodup sh s) m
    exact ⟨m', by rw [hset]; exact hedit, hwf ∘ hkept.sorted, hbelow ∘ hkept.below⟩

/-- Painting a shape writes the buffer, and takes a fresh stamp at most: it is never an overrun. -/
theorem paintShape_of_buf {sh : Shape} {s : State} {m : Memory} (h : shapeBuf sh s = some m) (op : Op) :
    paintShape op sh s = { s with fbr := { s.fbr with buf := m }, freeCtr := shapeCtr sh s } := by
  rw [paintShape_eq, h, paintOutcome_some]

theorem le_shapeCtr (sh : Shape) (s : State) : s.freeCtr ≤ shapeCtr sh s := by
  unfold shapeCtr
  split <;> omega

theorem blitBuf_kept (o : Point) (b : Bitmap) (s : State) : ∃ m, blitBuf o b s = some m ∧ BufferKept s m := by
  obtain ⟨m, hset, hkept⟩ := paintSet_kept s s.fbr.colour (blitSet s.params o b true) (.refl s)
  unfold blitBuf
  rw [hset]
  cases s.params.blitZero with
  | transparent => exact ⟨m, rfl, hkept⟩
  | opaqueInverse => exact paintSet_kept s _ _ hkept

/-- A blit paints, or faults with FB_SOURCE_RANGE (45_fb_blit.md R271, R273). -/
theorem blit_cases (op : Op) (o : Point) (b : Bitmap) (s : State) :
    (b.inSource s.params = true ∧ ∃ m, blitBuf o b s = some m ∧
      blit op o b s = { s with fbr := { s.fbr with buf := m } } ∧ BufferKept s m) ∨
    (b.inSource s.params = false ∧ blit op o b s = enterFault .fbSourceRange op.byte s) := by
  unfold blit
  cases b.inSource s.params with
  | false => exact .inr ⟨rfl, rfl⟩
  | true =>
    obtain ⟨m, hm, hkept⟩ := blitBuf_kept o b s
    exact .inl ⟨rfl, m, hm, by simp [hm], hkept⟩

/-! ## The effect of a command -/

/-- Everything a command can do to a state. A fault is none of FB_BUFFER_OVERRUN (43_fb_pixel.md R219). -/
inductive CommandEffect (s : State) : State → Prop
  | ignored : s.halted = true → CommandEffect s s
  | answered (w : Word) : CommandEffect s (respond w s)
  | faulted (c : FaultCode) (o : BitVec 8) :
      s.halted = false → c ≠ .fbBufferOverrun → CommandEffect s (enterFault c o s)
  | setParam (r : ParamReg) (v : Word) : s.halted = false → (r = .flags → flagsReserved v = 0#30) →
      CommandEffect s { s with ire := { s.ire with staging := bankSet s.ire.staging r v } }
  | sendRefused (e : CfgErr) : s.halted = false → CommandEffect s { s with ire := rejectSend e s.ire }
  | sendAccepted (p1 p2 pd ovr : Word) (len : Nat) (mark : Word) : s.halted = false → s.ire.ses.busy = false →
      validate s.params s.ire.staging p1 = .ok (len, mark) →
      CommandEffect s { s with ire := startSession (latchSend p1 p2 pd ovr len mark s.ire) }
  | drawn (f : Fbr) (k : Nat) : s.halted = false → s.freeCtr ≤ k → BufferKept s f.buf →
      CommandEffect s { s with fbr := f, freeCtr := k }

namespace CommandEffect
variable {s : State}

/-- A command that is no query has its effect on a running block only (60_exceptions.md R303). -/
theorem of_command {effect : State → State} (h : s.halted = false → CommandEffect s (effect s)) :
    CommandEffect s (command effect s) := by
  cases hs : s.halted with
  | true => rw [command_of_halted hs]; exact ignored hs
  | false => rw [command_of_running hs]; exact h hs

theorem of_query {c : FaultCode} (hc : c ≠ .fbBufferOverrun) (o : BitVec 8) (v : Option Word) :
    CommandEffect s (query c o v s) := by
  rcases query_cases c o v s with ⟨w, -, h⟩ | ⟨-, -, h⟩ | ⟨-, hrun, h⟩ <;> rw [h]
  · exact answered w
  · exact answered _
  · exact faulted c o hrun hc

theorem of_setp (hrun : s.halted = false) (idx : BitVec 8) (v : Word) : CommandEffect s (setpEffect idx v s) := by
  unfold setpEffect
  split
  · exact faulted _ _ hrun (by decide)
  · split
    · exact faulted _ _ hrun (by decide)
    · rename_i r _ hlegal
      exact setParam r v hrun fun hr => by_contra fun hv => hlegal ⟨hr, hv⟩

theorem of_send (hrun : s.halted = false) (p1 p2 pd ovr : Word) : CommandEffect s (sendEffect p1 p2 pd ovr s) := by
  unfold sendEffect
  split
  · exact faulted _ _ hrun (by decide)
  · rename_i hidle
    split
    · exact sendRefused _ hrun
    · rename_i len mark hvalid
      exact sendAccepted p1 p2 pd ovr len mark hrun (Bool.eq_false_iff.2 hidle) hvalid

/-- A command that writes registers of unit FBR only. -/
theorem of_register (hrun : s.halted = false) {f : Fbr} (hbuf : f.buf = s.fbr.buf) :
    CommandEffect s { s with fbr := f } :=
  drawn f s.freeCtr hrun (Nat.le_refl _) (hbuf ▸ .refl s)

theorem of_setscale (hrun : s.halted = false) (v : BitVec 8) : CommandEffect s (setscaleEffect v s) := by
  unfold setscaleEffect
  split
  · exact faulted _ _ hrun (by decide)
  · exact of_register hrun rfl

theorem of_setwritemode (hrun : s.halted = false) (v : BitVec 3) : CommandEffect s (setwritemodeEffect v s) := by
  unfold setwritemodeEffect
  split
  · exact faulted _ _ hrun (by decide)
  · exact of_register hrun rfl

theorem of_clear (hrun : s.halted = false) (c : Colour) : CommandEffect s (clearEffect c s) :=
  drawn _ s.freeCtr hrun (Nat.le_refl _) ⟨memory_wf_memFill _ _ _, memBelow_memFill _ _ _⟩

theorem of_paintpixel (hrun : s.halted = false) (c : Colour) (p : Point) :
    CommandEffect s (paintpixelEffect c p s) := by
  obtain ⟨m, hset, hkept⟩ := paintSet_kept s c [p] (.refl s)
  rw [paintpixelEffect, hset, paintOutcome_some]
  exact drawn _ s.freeCtr hrun (Nat.le_refl _) hkept

theorem of_paintShape (hrun : s.halted = false) (op : Op) (sh : Shape) : CommandEffect s (paintShape op sh s) := by
  obtain ⟨m, hbuf, hkept⟩ := shapeBuf_kept sh s
  rw [paintShape_of_buf hbuf]
  exact drawn _ _ hrun (le_shapeCtr sh s) hkept

theorem of_blit (hrun : s.halted = false) (op : Op) (o : Point) (b : Bitmap) : CommandEffect s (blit op o b s) := by
  rcases blit_cases op o b s with ⟨-, m, -, h, hkept⟩ | ⟨-, h⟩ <;> rw [h]
  · exact drawn _ s.freeCtr hrun (Nat.le_refl _) hkept
  · exact faulted _ _ hrun (by decide)

theorem of_drawchar (hrun : s.halted = false) (code : BitVec 8) : CommandEffect s (drawcharEffect code s) := by
  unfold drawcharEffect
  cases fontGlyph s.params s.fbr.fontRef code with
  | none => exact faulted _ _ hrun (by decide)
  | some g =>
    simp only
    rcases blit_cases .fbDrawchar s.cursor (glyphBitmap g) s with ⟨-, m, -, h, hkept⟩ | ⟨-, h⟩ <;> rw [h]
    · rw [if_neg (by simpa [State.halted] using hrun)]
      exact drawn _ s.freeCtr hrun (Nat.le_refl _) hkept
    · rw [if_pos (enterFault_halted _ _ _)]
      exact faulted _ _ hrun (by decide)

end CommandEffect

/-- What a command can do, whichever it is. -/
theorem exec_effect {i : Instr} {s t : State} (h : exec i s = .next t) : CommandEffect s t := by
  cases i <;> injection h with h <;> subst h
  case irGetp => exact .of_query (by decide) _ _
  case fbReadb => exact .of_query (by decide) _ _
  case irStatus => exact .answered _
  case fbStatus => exact .answered _
  case fbGetcursor => exact .answered _
  case fbGetfont => exact .answered _
  case fbGetsize => exact .answered _
  all_goals refine .of_command fun hrun => ?_
  case irSetp => exact .of_setp hrun _ _
  case irSend => exact .of_send hrun _ _ _ _
  case fbSetscale => exact .of_setscale hrun _
  case fbSetwritemode => exact .of_setwritemode hrun _
  case fbClear => exact .of_clear hrun _
  case fbPaintpixel => exact .of_paintpixel hrun _ _
  case fbDrawline => exact .of_paintShape hrun _ _
  case fbDrawrect => exact .of_paintShape hrun _ _
  case fbDrawopenrect => exact .of_paintShape hrun _ _
  case fbDrawcircle => exact .of_paintShape hrun _ _
  case fbDrawopencircle => exact .of_paintShape hrun _ _
  case fbWriteimage => exact .of_blit hrun _ _ _
  case fbDrawchar => exact .of_drawchar hrun _
  all_goals exact .of_register hrun rfl

/-! ## The effect of a step -/

/-- A header that is no command answers, faults or is ignored, as a command does (60_exceptions.md R302, R303). -/
theorem illegalOpcode_effect (o : BitVec 8) (s : State) : CommandEffect s (illegalOpcode o s) :=
  .of_command fun hrun => .faulted _ o hrun (by decide)

theorem reservedBits_effect (op : Op) (s : State) : CommandEffect s (reservedBits op s) := by
  unfold reservedBits
  split
  · exact .of_query (by decide) op.byte none
  · exact .of_command fun hrun => .faulted _ _ hrun (by decide)

/-- A step is a tick, or it takes words off the port and does what a command can do. -/
theorem step_effect {s t : State} (h : step s = .next t) :
    (s.port = [] ∧ tick s = .next t) ∨ (s.port ≠ [] ∧ ∃ rest, CommandEffect { s with port := rest } t) := by
  rcases step_cases h with htick | ⟨hd, ws, i, rest, hp, -, hexec⟩ | ⟨hd, ws, op, rest, hp, -, rfl⟩ |
    ⟨hd, ws, op, rest, hp, -, rfl⟩
  · exact .inl htick
  · exact .inr ⟨by simp [hp], rest, exec_effect hexec⟩
  · exact .inr ⟨by simp [hp], rest, illegalOpcode_effect op _⟩
  · exact .inr ⟨by simp [hp], rest, reservedBits_effect op _⟩

/-- The state at the next boundary, but for what the tick and a reset do: its number and the host's words
(20_memory.md R74). -/
def State.atNextBoundary (s : State) : State :=
  { s with
    boundary := s.boundary + 1
    port := s.port ++ (s.inbox.head?.map Delivery.words).getD []
    inbox := s.inbox.tail }

theorem nextBoundary_of_not_reset {s : State} (h : resetDue s = false) : nextBoundary s = s.atNextBoundary := by
  rcases nextBoundary_cases s with ⟨hin, heq⟩ | ⟨d, ds, hin, -, heq⟩ | ⟨d, ds, hin, hd, -⟩
  · simp [heq, State.atNextBoundary, hin]
  · simp [heq, State.atNextBoundary, hin]
  · simp [resetDue, hin, hd] at h

theorem nextBoundary_of_reset {s : State} (h : resetDue s = true) : nextBoundary s = resetBlock s.atNextBoundary := by
  rcases nextBoundary_cases s with ⟨hin, -⟩ | ⟨d, ds, hin, hd, -⟩ | ⟨d, ds, hin, -, heq⟩
  · simp [resetDue, hin] at h
  · simp [resetDue, hin, hd] at h
  · simp [heq, State.atNextBoundary, hin]

/-- What a tick can do: the host's reset, nothing but the boundary while halted, or a tick of unit IRE. -/
theorem tick_effect {s t : State} (h : tick s = .next t) :
    (resetDue s = true ∧ t = resetBlock s.atNextBoundary) ∨
    (resetDue s = false ∧ s.halted = true ∧ t = s.atNextBoundary) ∨
    (resetDue s = false ∧ s.halted = false ∧
      ∃ r, tickIre s.ire = .ok r ∧ t = ({ s with ire := r } : State).atNextBoundary) := by
  cases hreset : resetDue s with
  | true =>
    rcases tick_cases h with ⟨-, rfl⟩ | ⟨hno, -⟩
    · exact .inl ⟨rfl, nextBoundary_of_reset hreset⟩
    · rw [hreset] at hno; cases hno
  | false =>
    rcases tick_cases h with ⟨hhalt, rfl⟩ | ⟨-, hrun, r, hr, rfl⟩
    · exact .inr (.inl ⟨rfl, by simpa [hreset] using hhalt, nextBoundary_of_not_reset hreset⟩)
    · exact .inr (.inr ⟨rfl, hrun, r, hr, nextBoundary_of_not_reset (s := { s with ire := r }) hreset⟩)

/-- A tick of a running block whose unit IRE ticks to `r`. -/
theorem tick_of_running {s : State} {r : Ire} (hreset : resetDue s = false) (hrun : s.halted = false)
    (hr : tickIre s.ire = .ok r) : tick s = .next ({ s with ire := r } : State).atNextBoundary := by
  simp only [tick, hreset, hrun, Bool.or_self, Bool.false_eq_true, if_false, hr]
  exact congrArg _ (nextBoundary_of_not_reset (s := { s with ire := r }) hreset)

/-- Settles O44: by `exec_effect`, no effect of a command is that fault. -/
theorem noCommandOverrunsBuffer : Obligations.NoCommandOverrunsBuffer := by
  intro i s t h hs
  cases exec_effect h with
  | faulted c o _ hc => simpa using hc
  | _ => exact hs

end Sys2Proof.Machine
end

section
/-!
Unit IRE between two boundaries: what a tick of a unit that meets R165 does, and the expiry steps as steps of a
session (41_ir_sequencer.md sections 1 to 4).
-/
namespace Sys2Proof.Machine

/-! ## Expiry steps written out (41_ir_sequencer.md R144 to R158) -/

/-- The pair of data bit `i` (41_ir_sequencer.md R145). -/
def bitPair (x : Session) (i : Nat) : Word × Word :=
  if dataBit x i then (x.P.oneHigh, x.P.oneLow) else (x.P.zeroHigh, x.P.zeroLow)

/-- The unit that enters state `q` with `n` data bits emitted and emits the pair `(m, sp)`. -/
def advance (q : IrState) (n : BitVec 7) (m sp : Word) (r : Ire) : Ire :=
  { r with
    gen := genLoad m sp
    ses := { r.ses with state := q, n := n, elapsed := r.ses.elapsed + m.setWidth 64 + sp.setWidth 64 } }

/-- The unit with `rem` transmissions not yet completed. -/
def withRem (rem : Word) (r : Ire) : Ire := { r with ses := { r.ses with rem := rem } }

/-- The unit with no tick of its transmission counted yet. -/
def withElapsedZero (r : Ire) : Ire := { r with ses := { r.ses with elapsed := 0#64 } }

theorem withState_emitBit (q : IrState) (i : Nat) (r : Ire) :
    withState q (emitBit i r) =
      advance q (BitVec.ofNat 7 (i + 1)) (bitPair r.ses i).1 (bitPair r.ses i).2 r := by
  unfold emitBit bitPair
  dsimp only
  split <;> rfl

theorem withState_emitStop (q : IrState) (r : Ire) :
    withState q (emitStop r) = advance q r.ses.n r.ses.P.zeroHigh r.ses.P.zeroLow r := rfl

theorem withState_of_state {q : IrState} {r : Ire} (h : r.ses.state = q) : withState q r = r := by
  subst h
  rfl

/-- EMIT_BIT(i) in a state that the machine stays in (41_ir_sequencer.md R152, R155). -/
theorem emitBit_of_state {q : IrState} {r : Ire} (h : r.ses.state = q) (i : Nat) :
    emitBit i r = advance q (BitVec.ofNat 7 (i + 1)) (bitPair r.ses i).1 (bitPair r.ses i).2 r := by
  rw [← withState_emitBit, withState_of_state ((emitBit_state i r).trans h)]

/-- The next transmission: the leader pair of a fast repeat, or the start pair (41_ir_sequencer.md R157). -/
theorem beginRepeat_eq (r : Ire) :
    beginRepeat r =
      if fastRepeats r.ses.P then
        advance .markTrailer 0#7 r.ses.P.repeatHigh r.ses.P.repeatLow (withElapsedZero r)
      else advance .start 0#7 r.ses.startMark r.ses.P.startLow (withElapsedZero r) := rfl

/-- What the expiry of one pair does to a session, whatever the generator holds then: one step of 41_ir_sequencer.md
R151 to R158. -/
inductive SessionStep (r : Ire) : Ire → Prop
  | firstBit : r.ses.state = .start →
      SessionStep r (advance .firstWord (BitVec.ofNat 7 (0 + 1)) (bitPair r.ses 0).1 (bitPair r.ses 0).2 r)
  | wordOneBit : r.ses.state = .firstWord → (0 < r.ses.ms → r.ses.n.toNat < r.ses.ms) →
      r.ses.n.toNat < r.ses.L.toNat →
      SessionStep r (advance .firstWord (BitVec.ofNat 7 (r.ses.n.toNat + 1)) (bitPair r.ses r.ses.n.toNat).1
        (bitPair r.ses r.ses.n.toNat).2 r)
  | middle : r.ses.state = .firstWord → 0 < r.ses.ms → r.ses.n.toNat = r.ses.ms →
      SessionStep r (advance .middleStop r.ses.n r.ses.P.zeroHigh r.ses.P.zeroLow r)
  | wordTwoBit : r.ses.state = .middleStop ∨ r.ses.state = .secondWord → r.ses.n.toNat < r.ses.L.toNat →
      SessionStep r (advance .secondWord (BitVec.ofNat 7 (r.ses.n.toNat + 1)) (bitPair r.ses r.ses.n.toNat).1
        (bitPair r.ses r.ses.n.toNat).2 r)
  | packetStop : (r.ses.state = .firstWord ∧ r.ses.ms = 0) ∨ r.ses.state = .secondWord → r.ses.n = r.ses.L →
      SessionStep r (advance .stop r.ses.n r.ses.P.zeroHigh r.ses.P.zeroLow r)
  | leaderStop : r.ses.state = .markTrailer →
      SessionStep r (advance .stop r.ses.n r.ses.P.zeroHigh r.ses.P.zeroLow r)
  | complete : r.ses.state = .stop → r.ses.rem.toNat = 1 → SessionStep r (enterComplete (withRem 0#32 r))
  | gap : r.ses.state = .stop → 1 < r.ses.rem.toNat → r.ses.elapsed.toNat < r.ses.P.repeatTime.toNat →
      SessionStep r (advance .spaceTrailer r.ses.n 0#32 (repeatGap r.ses) (withRem (r.ses.rem - 1#32) r))
  | repeatAtOnce : r.ses.state = .stop → 1 < r.ses.rem.toNat → r.ses.P.repeatTime.toNat ≤ r.ses.elapsed.toNat →
      SessionStep r (beginRepeat (withRem (r.ses.rem - 1#32) r))
  | repeatAfterGap : r.ses.state = .spaceTrailer → SessionStep r (beginRepeat r)

/-- What holds of a session while it transmits, the generator apart (41_ir_sequencer.md R165). -/
structure SendingOk (x : Session) : Prop where
  n_le : x.n.toNat ≤ x.L.toNat
  L_le : x.L.toNat ≤ 64
  emitting : x.state.emitting = true
  rem_pos : 1 ≤ x.rem.toNat
  rem_le : x.rem.toNat ≤ x.R.toNat
  busy : x.busy = true
  spaces : spacesOk x.P
  L_pos : 1 ≤ x.L.toNat
  ms_lt : x.ms < x.L.toNat
  first_word : x.state = .firstWord → 0 < x.ms → x.n.toNat ≤ x.ms
  middle_stop : x.state = .middleStop → x.n.toNat = x.ms

theorem not_emitting_complete : IrState.complete.emitting = false := rfl

theorem IreOk.sendingOk {r : Ire} (h : IreOk r) (hgen : r.gen.active = true) : SendingOk r.ses where
  n_le := h.n_le
  L_le := h.L_le
  emitting := h.emitting_iff.2 hgen
  rem_pos := h.rem_pos (h.emitting_iff.2 hgen)
  rem_le := h.rem_le (h.emitting_iff.2 hgen)
  busy := by
    by_contra hidle
    have hemit := h.emitting_iff.2 hgen
    rw [h.idle (Bool.eq_false_iff.2 hidle), not_emitting_complete] at hemit
    cases hemit
  spaces := h.spaces (h.emitting_iff.2 hgen)
  L_pos := (h.L_pos (h.emitting_iff.2 hgen)).1
  ms_lt := (h.L_pos (h.emitting_iff.2 hgen)).2
  first_word := h.first_word
  middle_stop := h.middle_stop

/-- The quiet delay starts after the last pair only (41_ir_sequencer.md R165). -/
theorem IreOk.post_inactive {r : Ire} (h : IreOk r) (hgen : r.gen.active = true) : r.post.active = false := by
  by_contra hpost
  have hemit := h.emitting_iff.2 hgen
  rw [(h.quiet_iff.2 (Bool.not_eq_false _ ▸ hpost)).1, not_emitting_complete] at hemit
  cases hemit

/-- A unit that emits nothing is in Complete (41_ir_sequencer.md R165, 10_state.md R29). -/
theorem IreOk.complete_of_silent {r : Ire} (h : IreOk r) (hgen : r.gen.active = false) : r.ses.state = .complete := by
  have hemit : r.ses.state.emitting ≠ true := fun he => by
    rw [h.emitting_iff.1 he] at hgen
    cases hgen
  cases hs : r.ses.state with
  | complete => rfl
  | initial => exact absurd hs h.not_initial
  | _ => rw [hs] at hemit; exact absurd rfl hemit

/-- While a session transmits, its next expiry is one step of it (41_ir_sequencer.md R150). -/
theorem SendingOk.expiry {r : Ire} (h : SendingOk r.ses) : ∃ r', expiry r = .ok r' ∧ SessionStep r r' := by
  obtain ⟨r', hr'⟩ := expiry_of_emitting h.emitting
  have hnL := h.n_le
  have hmsL := h.ms_lt
  have hrem := h.rem_pos
  refine ⟨r', hr', ?_⟩
  rcases expiry_cases hr' with ⟨hs, rfl⟩ | ⟨hs, rfl⟩ | ⟨hs, rfl⟩ | ⟨hs, rfl⟩ | ⟨hs, rfl⟩ | ⟨hs, rfl⟩ | ⟨hs, rfl⟩
  · rw [expiryStart, withState_emitBit]
    exact .firstBit hs
  · have hfirst := h.first_word hs
    unfold expiryFirstWord
    split
    case isTrue hmid => exact .middle hs hmid.1 hmid.2
    case isFalse hmid =>
      split
      case isTrue hn =>
        rw [withState_emitStop]
        exact .packetStop (.inl ⟨hs, by rw [hn] at hmid hfirst; omega⟩) hn
      case isFalse hn =>
        rw [emitBit_of_state hs]
        have hn' : r.ses.n.toNat ≠ r.ses.L.toNat := fun he => hn (BitVec.eq_of_toNat_eq he)
        exact .wordOneBit hs (by omega) (by omega)
  · have hmid := h.middle_stop hs
    rw [expiryMiddleStop, withState_emitBit]
    exact .wordTwoBit (.inl hs) (by omega)
  · unfold expirySecondWord
    split
    case isTrue hn => exact .packetStop (.inr hs) hn
    case isFalse hn =>
      rw [emitBit_of_state hs]
      have hn' : r.ses.n.toNat ≠ r.ses.L.toNat := fun he => hn (BitVec.eq_of_toNat_eq he)
      exact .wordTwoBit (.inr hs) (by omega)
  · have hpred := word_pred_toNat r.ses.rem hrem (by omega)
    unfold expiryStop
    dsimp only
    split
    case isTrue hzero =>
      rw [hzero] at hpred ⊢
      exact .complete hs (by simp at hpred; omega)
    case isFalse hmore =>
      have hmore' := (word_ne_zero_iff _).1 hmore
      split
      case isTrue hlt => exact .gap hs (by omega) hlt
      case isFalse hge => exact .repeatAtOnce hs (by omega) (not_lt.1 hge)
  · exact .repeatAfterGap hs
  · exact .leaderStop hs

/-! ## One tick (41_ir_sequencer.md R142, R160) -/

/-- What a tick does to a unit that meets R165: only one of the generator and the post-delay timer runs. -/
inductive IreTick (r : Ire) : Ire → Prop
  | idle : r.gen.active = false → r.post.active = false → IreTick r r
  | quiet : r.gen.active = false → r.post.active = true → 1 < r.post.left.toNat →
      IreTick r { r with post := { r.post with left := r.post.left - 1#32 } }
  | quietEnds : r.gen.active = false → r.post.active = true → r.post.left.toNat = 1 →
      IreTick r (postExpiry { r with post := { r.post with left := 0#32 } })
  | emits (g : Gen) : r.gen.active = true → g.active = true → g.left ≠ 0#32 → g.s = r.gen.s →
      pairTicksLeft g + 1 = pairTicksLeft r.gen → IreTick r { r with gen := g }
  | expires (g : Gen) (r' : Ire) : r.gen.active = true → g.active = false → pairTicksLeft r.gen = 1 →
      SessionStep { r with gen := g } r' → IreTick r r'

theorem tickIre_of_silent {r : Ire} (hgen : r.gen.active = false) :
    tickIre r = .ok (if (tickPost r.post).2 then postExpiry { r with post := (tickPost r.post).1 }
      else { r with post := (tickPost r.post).1 }) := by
  have hstill : tickGen r.gen = (r.gen, false) := by simp [tickGen, hgen]
  rw [tickIre_of_not_due (by rw [hstill]), hstill]

theorem tickPost_of_inactive {t : PostTimer} (h : t.active = false) : tickPost t = (t, false) := by simp [tickPost, h]

/-- A tick of a unit that meets R165 is defined: no expiry falls in Initial or Complete (41_ir_sequencer.md R159). -/
theorem IreOk.tickIre {r : Ire} (h : IreOk r) : ∃ r', tickIre r = .ok r' ∧ IreTick r r' := by
  cases hgen : r.gen.active with
  | false =>
    refine ⟨_, tickIre_of_silent hgen, ?_⟩
    rcases tickPost_cases r.post with ⟨hpost, heq⟩ | ⟨hpost, hleft, heq⟩ | ⟨hpost, hleft, heq⟩ <;> rw [heq]
    · exact .idle hgen hpost
    · have hpos := (word_ne_zero_iff _).1 (h.post_pos hpost)
      rw [word_ne_zero_iff, word_pred_toNat _ hpos (by omega)] at hleft
      exact .quiet hgen hpost (by omega)
    · have hpos := (word_ne_zero_iff _).1 (h.post_pos hpost)
      have hpred := word_pred_toNat _ hpos (by omega)
      rw [hleft] at hpred
      exact .quietEnds hgen hpost (by simp at hpred; omega)
  | true =>
    obtain ⟨hleft, hspace⟩ := h.left_pos hgen
    have hpos := (word_ne_zero_iff _).1 hleft
    have hpred := word_pred_toNat _ hpos (by omega)
    have hpost := tickPost_of_inactive (h.post_inactive hgen)
    rcases tickGen_cases r.gen with ⟨hno, -⟩ | ⟨-, hmore, heq⟩ | ⟨-, hlast, hmark, heq⟩ | ⟨-, hlast, hmark, heq⟩
    · rw [hgen] at hno; cases hno
    · refine ⟨_, tickIre_of_not_due (by rw [heq]), ?_⟩
      rw [heq, hpost]
      refine .emits _ hgen hgen hmore rfl ?_
      simp only [pairTicksLeft, hgen, if_true, hpred]
      split <;> omega
    · refine ⟨_, tickIre_of_not_due (by rw [heq]), ?_⟩
      rw [heq, hpost]
      refine .emits _ hgen hgen hspace rfl ?_
      rw [hlast] at hpred
      simp [pairTicksLeft, hgen, hmark] at hpred ⊢
      omega
    · obtain ⟨r', hexp, hstep⟩ :=
        SendingOk.expiry (r := { r with gen := (tickGen r.gen).1, post := (tickPost r.post).1 }) (h.sendingOk hgen)
      refine ⟨_, tickIre_of_due (by rw [heq]) hexp, ?_⟩
      rw [heq, hpost] at hstep
      rw [hpost]
      refine .expires _ _ hgen rfl ?_ hstep
      rw [hlast] at hpred
      simp [pairTicksLeft, hgen, hmark] at hpred ⊢
      omega

end Sys2Proof.Machine
end

section
/-!
The family of 40_ir_commands.md: IR_SETP and IR_GETP (R110 to R113), VALIDATE (R120 to R122), and IR_SEND accepted
and while busy (R123 to R127).
-/
namespace Sys2Proof.Machine

/-! ## IR_SETP and IR_GETP (40_ir_commands.md R110 to R113) -/

/-- A running block executes IR_SETP by its effect. -/
theorem exec_irSetp_of_running (idx : BitVec 8) (v : Word) {s : State} (hrun : s.halted = false) :
    exec (.irSetp idx v) s = .next (setpEffect idx v s) :=
  congrArg _ (command_of_running hrun)

theorem setpEffect_of_legal {idx : BitVec 8} {r : ParamReg} (hidx : ParamReg.ofIndex? idx = some r) {v : Word}
    (hv : r = .flags → flagsReserved v = 0#30) (s : State) :
    setpEffect idx v s = { s with ire := { s.ire with staging := bankSet s.ire.staging r v } } := by
  simp only [setpEffect, hidx]
  exact if_neg fun hbad => hbad.2 (hv hbad.1)

/-- The staging registers have the indices 0x00 to 0x0D (10_state.md R24). -/
theorem ofIndex?_eq_none {idx : BitVec 8} (h : 0x0D < idx.toNat) : ParamReg.ofIndex? idx = none := by
  unfold ParamReg.ofIndex?
  split
  case h_15 => rfl
  all_goals omega

/-- Settles O21: the effect writes one register of the bank, and `bankGet_bankSet` reads it back. -/
theorem setpWritesOneRegister : Obligations.SetpWritesOneRegister := by
  intro s r v hrun hv
  refine ⟨bankSet s.ire.staging r v, ?_, fun q => bankGet_bankSet _ _ _ _⟩
  rw [exec_irSetp_of_running _ _ hrun, setpEffect_of_legal (ofIndex?_index r) hv]

/-- Settles O22: no register has the index, or the register is FLAGS and the value is illegal. -/
theorem setpFaults : Obligations.SetpFaults := by
  refine fun s idx v hrun => ⟨fun hidx => ?_, fun hidx hv => ?_⟩
  · rw [exec_irSetp_of_running _ _ hrun, setpEffect, ofIndex?_eq_none hidx]
    rfl
  · subst hidx
    rw [exec_irSetp_of_running _ _ hrun, setpEffect, show (0x0D#8) = ParamReg.flags.index from rfl, ofIndex?_index]
    exact congrArg _ (if_pos ⟨rfl, hv⟩)

/-- IR_GETP answers the register of its index, halted or not. -/
theorem exec_irGetp_of_some {idx : BitVec 8} {s : State} {w : Word} (h : irRead s.ire idx = some w) :
    exec (.irGetp idx) s = .next (respond w s) := by
  show Host.Outcome.next (query _ _ (irRead s.ire idx) s) = _
  rw [h]
  rfl

theorem irRead_index (r : Ire) (q : ParamReg) : irRead r q.index = some (bankGet r.staging q) := by
  simp only [irRead, ofIndex?_index]

theorem irRead_latchedIndex (r : Ire) (q : ParamReg) : irRead r (0x30#8 + q.index) = some (bankGet r.ses.P q) := by
  cases q <;> rfl

/-- Between the bank and the session registers, and above P, no register has an index (10_state.md R36). -/
theorem irRead_eq_none (r : Ire) {idx : BitVec 8}
    (h : (0x0E ≤ idx.toNat ∧ idx.toNat ≤ 0x1F) ∨ 0x3E ≤ idx.toNat) : irRead r idx = none := by
  simp only [irRead, ofIndex?_eq_none (idx := idx) (by omega)]
  unfold sessionRead
  generalize idx.toNat = k at h
  have hrange : ¬ (0x30 ≤ k ∧ k ≤ 0x3D) := by omega
  split
  case h_17 => simp only [hrange, if_false]
  all_goals simp at h

/-- The generator's register 0x2E: its phase above its activity (10_state.md R36). -/
theorem genFlags_word (phase active : Bool) :
    (0#30 ++ bit phase ++ bit active : Word) = BitVec.ofNat 32 (2 * phase.toNat + active.toNat) := by
  cases phase <;> cases active <;> rfl

/-- Settles O23: `irRead` at each index, and `none` at the others. -/
theorem getpReadsEveryRegister : Obligations.GetpReadsEveryRegister := by
  refine fun s => ⟨fun r => ⟨?_, ?_⟩, ?_, fun idx hrun hidx => ?_⟩
  · exact exec_irGetp_of_some (irRead_index s.ire r)
  · exact exec_irGetp_of_some (irRead_latchedIndex s.ire r)
  · refine fun q hq => exec_irGetp_of_some ?_
    revert q
    simp only [← genFlags_word, List.forall_mem_cons, List.not_mem_nil, false_implies, implies_true, and_true]
    exact ⟨rfl, rfl, rfl, rfl, rfl, rfl, rfl, rfl, rfl, rfl, rfl, rfl, rfl, rfl, rfl, rfl⟩
  · show Host.Outcome.next (query _ _ (irRead s.ire idx) s) = _
    rw [irRead_eq_none _ hidx]
    simp [query, queryFault, hrun, Op.byte]

/-! ## VALIDATE (40_ir_commands.md R120 to R122) -/

theorem word_toNat_eq_zero_iff (w : Word) : w.toNat = 0 ↔ w = 0#32 := by
  rw [← BitVec.toNat_inj]
  rfl

theorem zero_notMem_durations_iff (q : Bank) :
    0#32 ∉ durations q ↔ q.startHigh ≠ 0 ∧ q.startLow ≠ 0 ∧ q.zeroHigh ≠ 0 ∧ q.zeroLow ≠ 0 ∧ q.oneHigh ≠ 0 ∧
      q.oneLow ≠ 0 ∧ q.repeatHigh ≠ 0 ∧ q.repeatLow ≠ 0 := by
  simp only [durations, List.mem_cons, List.not_mem_nil, or_false, not_or, @eq_comm _ (0#32)]
  rfl

/-- The length before its check (40_ir_commands.md R121). -/
theorem effectiveLength_eq_some_iff (p : Params) (q : Bank) (p1 : Word) (len : Nat) :
    effectiveLength p q p1 = some len ↔
      (q.packetLength ≠ 0 → len = q.packetLength.toNat) ∧
      (q.packetLength = 0 → sircLength p.sircLengths (sircSelector p1) = some len) := by
  unfold effectiveLength
  by_cases h : q.packetLength = 0#32
  · simp [h]
  · simp [h, eq_comm]

/-- The lengths that pass the checks: each word of the payload holds its part (40_ir_commands.md R122). -/
theorem lengthError_eq_none_iff (len ms : Nat) :
    lengthError len ms = none ↔ (ms = 0 → len ≤ 32) ∧ (ms ≠ 0 → ms < len ∧ ms ≤ 32 ∧ len - ms ≤ 32) := by
  unfold lengthError
  split_ifs <;> simp only [false_iff, true_iff] <;> omega

/-- The lengths that fail a check, by the check (40_ir_commands.md R120, R122). -/
theorem lengthError_eq_some_iff (len ms : Nat) (e : CfgErr) :
    lengthError len ms = some e ↔
      (e = .badLength ∧ ((ms = 0 ∧ 32 < len) ∨ (ms ≠ 0 ∧ 64 < len))) ∨
      (e = .badMiddleStop ∧ ms ≠ 0 ∧ len ≤ 64 ∧ (len ≤ ms ∨ 32 < ms ∨ 32 < len - ms)) := by
  unfold lengthError
  split_ifs <;> cases e <;> 
    simp only [reduceCtorEq, Option.some.injEq, false_iff, true_iff, true_and, false_and, false_or, or_false] <;> omega

/-- The start mark before its check (40_ir_commands.md R120, 41_ir_sequencer.md R147). -/
def startMarkOf (p : Params) (q : Bank) (len : Nat) : Word :=
  if variantSirc q then sircStartMark p q len else q.startHigh

/-- VALIDATE after its checks of the carrier and the durations. -/
theorem validate_of_durations (p : Params) {q : Bank} (hcarrier : q.carrierHz ≠ 0#32) (hdur : 0#32 ∉ durations q)
    (p1 : Word) :
    validate p q p1 =
      match effectiveLength p q p1 with
      | none => .error .badSelector
      | some len =>
        match lengthError len q.middleStopBit.toNat with
        | some e => .error e
        | none =>
          if variantSirc q then
            if sircStartMark p q len = 0#32 then .error .badStartMark else .ok (len, sircStartMark p q len)
          else .ok (len, q.startHigh) :=
  (if_neg hcarrier).trans (if_neg hdur)

/-- What VALIDATE answers, check by check, in its order (40_ir_commands.md R120). -/
theorem validate_cases (p : Params) (q : Bank) (p1 : Word) :
    (q.carrierHz = 0#32 ∧ validate p q p1 = .error .zeroCarrier) ∨
    (q.carrierHz ≠ 0#32 ∧ 0#32 ∈ durations q ∧ validate p q p1 = .error .zeroDuration) ∨
    (q.carrierHz ≠ 0#32 ∧ 0#32 ∉ durations q ∧ effectiveLength p q p1 = none ∧
      validate p q p1 = .error .badSelector) ∨
    (q.carrierHz ≠ 0#32 ∧ 0#32 ∉ durations q ∧ ∃ len, effectiveLength p q p1 = some len ∧
      ((∃ e, lengthError len q.middleStopBit.toNat = some e ∧ validate p q p1 = .error e) ∨
       (lengthError len q.middleStopBit.toNat = none ∧
        ((variantSirc q = true ∧ sircStartMark p q len = 0#32 ∧ validate p q p1 = .error .badStartMark) ∨
         (startMarkOf p q len ≠ 0#32 ∧ validate p q p1 = .ok (len, startMarkOf p q len)))))) := by
  by_cases hcarrier : q.carrierHz = 0#32
  · exact .inl ⟨hcarrier, if_pos hcarrier⟩
  refine .inr ?_
  by_cases hdur : 0#32 ∈ durations q
  · exact .inl ⟨hcarrier, hdur, by rw [validate, if_neg hcarrier, if_pos hdur]⟩
  refine .inr ?_
  have hval := validate_of_durations p hcarrier hdur p1
  cases hlen : effectiveLength p q p1 with
  | none => exact .inl ⟨hcarrier, hdur, rfl, by rw [hval, hlen]⟩
  | some len =>
    refine .inr ⟨hcarrier, hdur, len, rfl, ?_⟩
    simp only [hlen] at hval
    cases herr : lengthError len q.middleStopBit.toNat with
    | some e => exact .inl ⟨e, rfl, by rw [hval, herr]⟩
    | none =>
      refine .inr ⟨rfl, ?_⟩
      simp only [herr] at hval
      cases hsirc : variantSirc q with
      | false =>
        refine .inr ⟨?_, by simp only [hval, hsirc, startMarkOf, Bool.false_eq_true, if_false]⟩
        rw [startMarkOf, hsirc]
        exact ((zero_notMem_durations_iff q).1 hdur).1
      | true =>
        by_cases hmark : sircStartMark p q len = 0#32
        · exact .inl ⟨rfl, hmark, by simp only [hval, hsirc, hmark, if_true]⟩
        · exact .inr ⟨by simpa only [startMarkOf, hsirc, if_true] using hmark,
            by simp only [hval, hsirc, hmark, startMarkOf, if_true, if_false]⟩

/-- What VALIDATE accepts, in the terms of its checks. -/
theorem validate_eq_ok_iff (p : Params) (q : Bank) (p1 mark : Word) (len : Nat) :
    validate p q p1 = .ok (len, mark) ↔
      q.carrierHz ≠ 0#32 ∧ 0#32 ∉ durations q ∧ effectiveLength p q p1 = some len ∧
        lengthError len q.middleStopBit.toNat = none ∧ mark = startMarkOf p q len ∧ mark ≠ 0#32 := by
  rcases validate_cases p q p1 with ⟨h1, hv⟩ | ⟨h1, h2, hv⟩ | ⟨h1, h2, h3, hv⟩ | ⟨h1, h2, k, h3, h⟩
  · simp [hv, h1]
  · simp [hv, h2]
  · simp [hv, h3]
  · rcases h with ⟨e, h4, hv⟩ | ⟨h4, ⟨h5, h6, hv⟩ | ⟨h5, hv⟩⟩
    · simp only [hv, h3, Option.some.injEq, reduceCtorEq, false_iff]
      rintro ⟨-, -, rfl, h4', -⟩
      rw [h4] at h4'
      cases h4'
    · simp only [hv, h3, Option.some.injEq, reduceCtorEq, false_iff]
      rintro ⟨-, -, rfl, -, rfl, hne⟩
      simp [startMarkOf, h5, h6] at hne
    · simp only [hv, Except.ok.injEq, Prod.mk.injEq, h3, Option.some.injEq]
      constructor
      · rintro ⟨rfl, rfl⟩
        exact ⟨h1, h2, rfl, h4, rfl, h5⟩
      · rintro ⟨-, -, rfl, -, rfl, -⟩
        exact ⟨rfl, rfl⟩

theorem eq_startMarkOf_iff (p : Params) (q : Bank) (len : Nat) (mark : Word) :
    mark = startMarkOf p q len ↔
      (q.flags.getLsbD 1 = true → mark = sircStartMark p q len) ∧
      (q.flags.getLsbD 1 = false → mark = q.startHigh) := by
  unfold startMarkOf variantSirc
  cases q.flags.getLsbD 1 <;> simp

/-- Settles O25: `validate_eq_ok_iff`, each check in the spec's own fields. -/
theorem validateAcceptsExactly : Obligations.ValidateAcceptsExactly := by
  intro p q p1 mark len
  rw [validate_eq_ok_iff, zero_notMem_durations_iff, effectiveLength_eq_some_iff, lengthError_eq_none_iff,
    eq_startMarkOf_iff]
  simp only [sircSelector, BitVec.ofNat_eq_ofNat, and_assoc, ne_eq, word_toNat_eq_zero_iff]

/-- The six codes of 60_exceptions.md R305 name six errors. -/
theorem CfgErr.byte_eq_iff (e : CfgErr) :
    (e.byte = 1#8 ↔ e = .zeroCarrier) ∧ (e.byte = 2#8 ↔ e = .zeroDuration) ∧ (e.byte = 3#8 ↔ e = .badLength) ∧
      (e.byte = 4#8 ↔ e = .badSelector) ∧ (e.byte = 5#8 ↔ e = .badMiddleStop) ∧
      (e.byte = 6#8 ↔ e = .badStartMark) := by
  cases e <;> decide

/-- What VALIDATE refuses, in the terms of its checks. -/
theorem validate_eq_error_iff (p : Params) (q : Bank) (p1 : Word) (e : CfgErr) :
    validate p q p1 = .error e ↔
      (e = .zeroCarrier ∧ q.carrierHz = 0#32) ∨
      (q.carrierHz ≠ 0#32 ∧
        ((e = .zeroDuration ∧ 0#32 ∈ durations q) ∨
         (0#32 ∉ durations q ∧
          ((e = .badSelector ∧ effectiveLength p q p1 = none) ∨
           ∃ len, effectiveLength p q p1 = some len ∧
            (lengthError len q.middleStopBit.toNat = some e ∨
             (e = .badStartMark ∧ lengthError len q.middleStopBit.toNat = none ∧ variantSirc q = true ∧
               sircStartMark p q len = 0#32)))))) := by
  rcases validate_cases p q p1 with ⟨h1, hv⟩ | ⟨h1, h2, hv⟩ | ⟨h1, h2, h3, hv⟩ | ⟨h1, h2, k, h3, h⟩
  · simp [hv, h1, eq_comm (a := e)]
  · simp [hv, h1, h2, eq_comm (a := e)]
  · simp [hv, h1, h2, h3, eq_comm (a := e)]
  · rcases h with ⟨e', h4, hv⟩ | ⟨h4, ⟨h5, h6, hv⟩ | ⟨h5, hv⟩⟩
    · simp [hv, h1, h2, h3, h4]
    · simp [hv, h1, h2, h3, h4, h5, h6, eq_comm (a := e)]
    · have hno : ¬ (variantSirc q = true ∧ sircStartMark p q k = 0#32) := by
        rintro ⟨hsirc, hzero⟩
        simp [startMarkOf, hsirc, hzero] at h5
      simp [hv, h1, h2, h3, h4, hno]

/-- Settles O26: `validate_eq_error_iff` with the length's error by `lengthError_eq_some_iff`. -/
theorem validateErrorsInOrder : Obligations.ValidateErrorsInOrder := by
  intro p q p1 e
  obtain ⟨b1, b2, b3, b4, b5, b6⟩ := e.byte_eq_iff
  simp only [validate_eq_error_iff, lengthError_eq_some_iff, b1, b2, b3, b4, b5, b6, ne_eq, word_toNat_eq_zero_iff,
    BitVec.ofNat_eq_ofNat, variantSirc, or_assoc]

/-! ## IR_SEND (40_ir_commands.md R123 to R127) -/

/-- The accept case of IR_SEND's effect. -/
theorem sendEffect_of_accepted (p2 pd ovr : Word) {p1 mark : Word} {len : Nat} {s : State}
    (hidle : s.ire.ses.busy = false) (hvalid : validate s.params s.ire.staging p1 = .ok (len, mark)) :
    sendEffect p1 p2 pd ovr s = { s with ire := startSession (latchSend p1 p2 pd ovr len mark s.ire) } := by
  simp only [sendEffect, hidle, hvalid, Bool.false_eq_true, if_false]

/-- The busy case of IR_SEND's effect (40_ir_commands.md R126). -/
theorem sendEffect_of_busy (p1 p2 pd ovr : Word) {s : State} (hbusy : s.ire.ses.busy = true) :
    sendEffect p1 p2 pd ovr s = enterFault .irBusy Op.irSend.byte s := by
  simp only [sendEffect, hbusy, if_true]

/-- Settles O28: the busy case is fault entry. -/
theorem sendWhileBusyFaults : Obligations.SendWhileBusyFaults := by
  intro s p1 p2 pd ovr hrun hbusy
  rw [exec_irSend_of_running p1 p2 pd ovr hrun, sendEffect_of_busy p1 p2 pd ovr hbusy]
  rfl

theorem transmissions_eq {q : Bank} {ovr total : Word} (hovr : ovr ≠ 0#32 → total = ovr)
    (hdefault : ovr = 0#32 → total = q.repeatCount) : transmissions q ovr = total := by
  unfold transmissions
  split
  case isTrue h => exact (hdefault h).symm
  case isFalse h => exact (hovr h).symm

/-- The sum of two durations fits `elapsed`. -/
theorem elapsed_of_pair (m sp : Word) :
    (0#64 + m.setWidth 64 + sp.setWidth 64 : BitVec 64) = BitVec.ofNat 64 (m.toNat + sp.toNat) := by
  rw [BitVec.ofNat_add, BitVec.zero_add, BitVec.ofNat_toNat, BitVec.ofNat_toNat]

/-- Settles O24: `startSession` of the latched unit, with and without a transmission. -/
theorem sendAcceptedStartsSession : Obligations.SendAcceptedStartsSession := by
  intro s p1 p2 pd ovr mark total len hrun hidle hvalid hovr hdefault
  have hmark : mark ≠ 0#32 := ((validate_eq_ok_iff _ _ _ _ _).1 hvalid).2.2.2.2.2
  have htotal := transmissions_eq hovr hdefault
  rw [exec_irSend_of_running p1 p2 pd ovr hrun, sendEffect_of_accepted p2 pd ovr hidle hvalid]
  refine ⟨fun hsome => ?_, fun hnone => ?_⟩
  · simp only [startSession, latchSend, htotal, hsome, if_false, emit, withState, genLoad, hmark, elapsed_of_pair]
  · simp only [startSession, latchSend, htotal, hnone, if_true, enterComplete]
    by_cases hpd : pd = 0#32 <;> simp [hpd]

end Sys2Proof.Machine
end

section
/-!
The invariant of the block (41_ir_sequencer.md R165): it holds after reset, every step keeps it, and from it a step
answers a next state (R159).
-/
namespace Sys2Proof.Machine

/-! ## Unit IRE: the invariant of R165 -/

theorem SendingOk.ireOk {r : Ire} (h : SendingOk r.ses) (hgen : r.gen.active = true)
    (hleft : r.gen.left ≠ 0 ∧ r.gen.s ≠ 0) (hpost : r.post.active = false) : IreOk r where
  n_le := h.n_le
  L_le := h.L_le
  not_initial hs := by have := h.emitting; rw [hs] at this; cases this
  emitting_iff := iff_of_true h.emitting hgen
  rem_pos _ := h.rem_pos
  rem_le _ := h.rem_le
  quiet_iff := by
    refine iff_of_false (fun ⟨hs, _⟩ => ?_) (by simp [hpost])
    have := h.emitting
    rw [hs] at this
    cases this
  idle hbusy := by rw [h.busy] at hbusy; cases hbusy
  left_pos _ := hleft
  post_pos hp := by rw [hpost] at hp; cases hp
  spaces _ := h.spaces
  L_pos _ := ⟨h.L_pos, h.ms_lt⟩
  first_word := h.first_word
  middle_stop := h.middle_stop

/-- Complete meets R165 when `busy` is the activity of the post-delay timer. -/
theorem ireOk_of_complete {r : Ire} (hn : r.ses.n.toNat ≤ r.ses.L.toNat) (hL : r.ses.L.toNat ≤ 64)
    (hs : r.ses.state = .complete) (hgen : r.gen.active = false) (hbusy : r.ses.busy = r.post.active)
    (hleft : r.post.active = true → r.post.left ≠ 0) : IreOk r where
  n_le := hn
  L_le := hL
  not_initial := by simp [hs]
  emitting_iff := by simp [hs, hgen, IrState.emitting]
  rem_pos := by simp [hs, IrState.emitting]
  rem_le := by simp [hs, IrState.emitting]
  quiet_iff := by simp [hs, hbusy]
  idle _ := hs
  left_pos := by simp [hgen]
  post_pos := hleft
  spaces := by simp [hs, IrState.emitting]
  L_pos := by simp [hs, IrState.emitting]
  first_word := by simp [hs]
  middle_stop := by simp [hs]

/-- A loaded pair with a space has a tick left in its phase (41_ir_sequencer.md R141). -/
theorem genLoad_left_ne_zero (m : Word) {sp : Word} (hsp : sp ≠ 0) : (genLoad m sp).left ≠ 0 := by
  unfold genLoad
  split
  case isTrue => exact hsp
  case isFalse h => exact h

/-- The next pair of a session keeps R165. -/
theorem SendingOk.advance {r : Ire} (h : SendingOk r.ses) (hpost : r.post.active = false) {q : IrState}
    {n : BitVec 7} {sp : Word} (m : Word) (hq : q.emitting = true) (hsp : sp ≠ 0) (hn : n.toNat ≤ r.ses.L.toNat)
    (hfirst : q = .firstWord → 0 < r.ses.ms → n.toNat ≤ r.ses.ms) (hmiddle : q = .middleStop → n.toNat = r.ses.ms) :
    IreOk (advance q n m sp r) := by
  have hses : SendingOk (Machine.advance q n m sp r).ses :=
    ⟨hn, h.L_le, hq, h.rem_pos, h.rem_le, h.busy, h.spaces, h.L_pos, h.ms_lt, hfirst, hmiddle⟩
  exact hses.ireOk (genLoad_active m sp)
    ⟨genLoad_left_ne_zero m hsp, by rw [Machine.advance, genLoad_s]; exact hsp⟩ hpost

theorem SendingOk.withRem {r : Ire} (h : SendingOk r.ses) {k : Word} (hpos : 1 ≤ k.toNat)
    (hle : k.toNat ≤ r.ses.R.toNat) : SendingOk (withRem k r).ses :=
  { h with rem_pos := hpos, rem_le := hle }

theorem SendingOk.withElapsedZero {r : Ire} (h : SendingOk r.ses) : SendingOk (withElapsedZero r).ses := { h with }

theorem bitPair_space_ne_zero {x : Session} (h : spacesOk x.P) (i : Nat) : (bitPair x i).2 ≠ 0 := by
  obtain ⟨-, hzero, hone, -⟩ := h
  unfold bitPair
  split
  · exact hone
  · exact hzero

/-- The next transmission keeps R165. -/
theorem SendingOk.beginRepeat {r : Ire} (h : SendingOk r.ses) (hpost : r.post.active = false) :
    IreOk (beginRepeat r) := by
  obtain ⟨hstart, -, -, hrepeat⟩ := h.spaces
  rw [beginRepeat_eq]
  split
  · exact h.withElapsedZero.advance hpost _ rfl hrepeat (Nat.zero_le _) nofun nofun
  · exact h.withElapsedZero.advance hpost _ rfl hstart (Nat.zero_le _) nofun nofun

theorem enterComplete_ireOk {r : Ire} (hn : r.ses.n.toNat ≤ r.ses.L.toNat) (hL : r.ses.L.toNat ≤ 64)
    (hgen : r.gen.active = false) (hbusy : r.ses.busy = true) (hpost : r.post.active = false) :
    IreOk (enterComplete r) := by
  unfold enterComplete
  split
  case isTrue => exact ireOk_of_complete hn hL rfl hgen hpost.symm (by simp [hpost])
  case isFalse hpd => exact ireOk_of_complete hn hL rfl hgen hbusy fun _ => hpd

theorem bitCount_toNat {i : Nat} (h : i < 64) : (BitVec.ofNat 7 (i + 1)).toNat = i + 1 := by
  rw [BitVec.toNat_ofNat]
  exact Nat.mod_eq_of_lt (by omega)

theorem repeatGap_toNat (x : Session) : (repeatGap x).toNat = x.P.repeatTime.toNat - x.elapsed.toNat := by
  have := x.P.repeatTime.isLt
  rw [repeatGap, BitVec.toNat_ofNat]
  exact Nat.mod_eq_of_lt (by omega)

/-- A step of a session keeps R165. -/
theorem SessionStep.ireOk {r r' : Ire} (hstep : SessionStep r r') (h : SendingOk r.ses)
    (hgen : r.gen.active = false) (hpost : r.post.active = false) : IreOk r' := by
  have hL := h.L_le
  have hLpos := h.L_pos
  have hms := h.ms_lt
  have hzero : r.ses.P.zeroLow ≠ 0 := h.spaces.2.1
  cases hstep with
  | firstBit =>
    have hn := bitCount_toNat (i := 0) (by omega)
    exact h.advance hpost _ rfl (bitPair_space_ne_zero h.spaces _) (by omega) (fun _ _ => by omega) nofun
  | wordOneBit _ hword hn =>
    have hn' := bitCount_toNat (i := r.ses.n.toNat) (by omega)
    exact h.advance hpost _ rfl (bitPair_space_ne_zero h.spaces _) (by omega) (fun _ hm => by have := hword hm; omega)
      nofun
  | middle _ _ hn => exact h.advance hpost _ rfl hzero h.n_le nofun fun _ => hn
  | wordTwoBit _ hn =>
    have hn' := bitCount_toNat (i := r.ses.n.toNat) (by omega)
    exact h.advance hpost _ rfl (bitPair_space_ne_zero h.spaces _) (by omega) nofun nofun
  | packetStop => exact h.advance hpost _ rfl hzero h.n_le nofun nofun
  | leaderStop => exact h.advance hpost _ rfl hzero h.n_le nofun nofun
  | complete => exact enterComplete_ireOk h.n_le h.L_le hgen h.busy hpost
  | gap _ hrem hlt =>
    have hpred := word_pred_toNat r.ses.rem h.rem_pos (by omega)
    have hle := h.rem_le
    have hgap : repeatGap r.ses ≠ 0 := by
      rw [BitVec.ofNat_eq_ofNat, word_ne_zero_iff, repeatGap_toNat]
      omega
    have hrem' : SendingOk (Machine.withRem (r.ses.rem - 1#32) r).ses := h.withRem (by omega) (by omega)
    exact hrem'.advance hpost _ rfl hgap h.n_le nofun nofun
  | repeatAtOnce _ hrem =>
    have hpred := word_pred_toNat r.ses.rem h.rem_pos (by omega)
    have hle := h.rem_le
    have hrem' : SendingOk (Machine.withRem (r.ses.rem - 1#32) r).ses := h.withRem (by omega) (by omega)
    exact hrem'.beginRepeat hpost
  | repeatAfterGap => exact h.beginRepeat hpost

/-- A tick keeps R165. -/
theorem IreTick.ireOk {r r' : Ire} (ht : IreTick r r') (h : IreOk r) : IreOk r' := by
  cases ht with
  | idle => exact h
  | quiet hgen hpost hleft =>
    have hs := h.complete_of_silent hgen
    have hbusy : r.ses.busy = r.post.active := by rw [hpost]; exact (h.quiet_iff.2 hpost).2
    refine ireOk_of_complete h.n_le h.L_le hs hgen hbusy fun _ => ?_
    rw [BitVec.ofNat_eq_ofNat, word_ne_zero_iff, word_pred_toNat _ (by omega) (by omega)]
    omega
  | quietEnds hgen => exact ireOk_of_complete h.n_le h.L_le (h.complete_of_silent hgen) hgen rfl nofun
  | emits g hgen hg hleft hs =>
    exact SendingOk.ireOk (h.sendingOk hgen) hg ⟨hleft, hs ▸ (h.left_pos hgen).2⟩ (h.post_inactive hgen)
  | expires g r' hgen hg _ hstep => exact hstep.ireOk (h.sendingOk hgen) hg (h.post_inactive hgen)

/-- A tick writes neither parameter bank. -/
theorem SessionStep.keeps_banks {r r' : Ire} (h : SessionStep r r') :
    r'.staging = r.staging ∧ r'.ses.P = r.ses.P := by
  have hcomplete : ∀ r : Ire, (enterComplete r).staging = r.staging ∧ (enterComplete r).ses.P = r.ses.P := by
    intro r
    unfold enterComplete
    split <;> exact ⟨rfl, rfl⟩
  have hrepeat : ∀ r : Ire, (beginRepeat r).staging = r.staging ∧ (beginRepeat r).ses.P = r.ses.P := by
    intro r
    rw [beginRepeat_eq]
    split <;> exact ⟨rfl, rfl⟩
  cases h with
  | complete => exact hcomplete _
  | repeatAtOnce => exact hrepeat _
  | repeatAfterGap => exact hrepeat _
  | _ => exact ⟨rfl, rfl⟩

theorem IreTick.keeps_banks {r r' : Ire} (h : IreTick r r') : r'.staging = r.staging ∧ r'.ses.P = r.ses.P := by
  cases h with
  | expires g r' _ _ _ hstep => exact hstep.keeps_banks
  | _ => exact ⟨rfl, rfl⟩

/-! ## An accepted session (40_ir_commands.md R122, R124) -/

theorem sircLength_le {p : Params} (hp : p.wf = true) {sel : BitVec 2} {len : Nat}
    (h : sircLength p.sircLengths sel = some len) : 1 ≤ len := by
  simp only [Params.wf, Bool.and_eq_true] at hp
  obtain ⟨⟨⟨⟨-, h0⟩, h1⟩, h2⟩, h3⟩ := hp
  unfold sircLength at h
  split at h <;> simp_all [sircEntryOk]

/-- An accepted length is at least 1, at most 64 and above the middle stop (40_ir_commands.md R122). -/
theorem accepted_length {p : Params} (hp : p.wf = true) {q : Bank} {p1 mark : Word} {len : Nat}
    (h : validate p q p1 = .ok (len, mark)) : 1 ≤ len ∧ len ≤ 64 ∧ q.middleStopBit.toNat < len := by
  obtain ⟨-, -, hlen, herr, -⟩ := (validate_eq_ok_iff _ _ _ _ _).1 h
  obtain ⟨hgiven, hsirc⟩ := (effectiveLength_eq_some_iff _ _ _ _).1 hlen
  obtain ⟨hno, hms⟩ := (lengthError_eq_none_iff _ _).1 herr
  have hpos : 1 ≤ len := by
    by_cases hzero : q.packetLength = 0
    · exact sircLength_le hp (hsirc hzero)
    · have := (word_ne_zero_iff q.packetLength).1 hzero
      rw [hgiven hzero]
      omega
  omega

theorem accepted_spaces {p : Params} {q : Bank} {p1 mark : Word} {len : Nat}
    (h : validate p q p1 = .ok (len, mark)) : spacesOk q := by
  obtain ⟨-, hdur, -⟩ := (validate_eq_ok_iff _ _ _ _ _).1 h
  obtain ⟨-, hstart, -, hzero, -, hone, -, hrepeat⟩ := (zero_notMem_durations_iff q).1 hdur
  exact ⟨hstart, hzero, hone, hrepeat⟩

/-- The unit that an accepted send of at least one transmission latches, as in state Start. -/
theorem latchSend_sendingOk {p : Params} (hp : p.wf = true) {r : Ire} {p1 mark : Word} {len : Nat}
    (p2 pd ovr : Word) (h : validate p r.staging p1 = .ok (len, mark)) (hR : transmissions r.staging ovr ≠ 0#32) :
    SendingOk (withState .start (latchSend p1 p2 pd ovr len mark r)).ses := by
  obtain ⟨hpos, hle, hms⟩ := accepted_length hp h
  have hL : (BitVec.ofNat 7 len).toNat = len := by
    rw [BitVec.toNat_ofNat]
    exact Nat.mod_eq_of_lt (by omega)
  have hrem := (word_ne_zero_iff _).1 hR
  refine ⟨Nat.zero_le _, ?_, rfl, hrem, Nat.le_refl _, rfl, accepted_spaces h, ?_, ?_, nofun, nofun⟩
  · exact hL.trans_le hle
  · exact hL.symm ▸ hpos
  · exact hL.symm ▸ hms

/-- The first transition of a session, written out (40_ir_commands.md R124). -/
theorem startSession_of_some {r : Ire} (h : r.ses.R ≠ 0#32) :
    startSession r = advance .start r.ses.n r.ses.startMark r.ses.P.startLow (withState .start r) := if_neg h

theorem startSession_of_none {r : Ire} (h : r.ses.R = 0#32) : startSession r = enterComplete r := if_pos h

/-- An accepted send leaves a unit that meets R165. -/
theorem accepted_ireOk {p : Params} (hp : p.wf = true) {r : Ire} {p1 mark : Word} {len : Nat} (p2 pd ovr : Word)
    (hr : IreOk r) (hidle : r.ses.busy = false) (h : validate p r.staging p1 = .ok (len, mark)) :
    IreOk (startSession (latchSend p1 p2 pd ovr len mark r)) := by
  obtain ⟨hpos, hle, hms⟩ := accepted_length hp h
  by_cases hR : transmissions r.staging ovr = 0#32
  · have hgen : r.gen.active = false := by
      by_contra hgen
      rw [Bool.not_eq_false] at hgen
      rw [(hr.sendingOk hgen).busy] at hidle
      cases hidle
    rw [startSession_of_none hR]
    refine enterComplete_ireOk (Nat.zero_le _) ?_ hgen rfl rfl
    exact le_of_eq_of_le (BitVec.toNat_ofNat _ _) ((Nat.mod_le _ _).trans hle)
  · rw [startSession_of_some hR]
    exact (latchSend_sendingOk hp p2 pd ovr h hR).advance rfl _ rfl (accepted_spaces h).1 (Nat.zero_le _) nofun nofun

/-! ## The block -/

theorem flagsReserved_zero : flagsReserved 0#32 = 0 := by decide

theorem reset_ireOk : IreOk Ire.reset :=
  ireOk_of_complete (Nat.le_refl _) (Nat.zero_le _) rfl rfl rfl nofun

/-- A reset block meets the invariant, whatever it was doing (70_reset_and_hazards.md R340). -/
theorem resetBlock_inv {s : State} (hp : s.params.wf = true) : Inv (resetBlock s) where
  params := hp
  sorted := rfl
  below := rfl
  flags := flagsReserved_zero
  latchedFlags := flagsReserved_zero
  halted_quiet _ := rfl
  running _ := reset_ireOk
  stamps := Nat.lt_succ_self _

/-- The parameters of the reset state meet their constraints (00_scope.md R7). -/
theorem configParams_wf : Config.params.wf = true := by
  have hw := Config.physWPred.isLt
  have hh := Config.physHPred.isLt
  have hs := Config.srcSize.isLt
  simp only [Params.wf, Bool.and_eq_true, decide_eq_true_eq]
  simp only [Config.params, Config.sircLengths, sircEntryOk, Bool.and_eq_true, decide_eq_true_eq, and_true]
  omega

/-- Settles O13: the reset values meet each clause; of the parameters, `configParams_wf`. -/
theorem resetMeetsInvariant : Obligations.ResetMeetsInvariant := by
  refine ⟨⟨configParams_wf, rfl, rfl, flagsReserved_zero, flagsReserved_zero, fun _ => rfl, fun _ => reset_ireOk,
    Nat.zero_lt_one⟩, ⟨rfl, ?_, ?_, ?_, ?_⟩⟩
  all_goals simp [State.reset, Ire.reset, Session.reset]

theorem accepted_keeps_staging (r : Ire) : (startSession r).staging = r.staging ∧ (startSession r).ses.P = r.ses.P := by
  unfold startSession enterComplete
  split_ifs <;> exact ⟨rfl, rfl⟩

theorem flagsReserved_bankSet {b : Bank} (hb : flagsReserved b.flags = 0) {r : ParamReg} {v : Word}
    (hv : r = .flags → flagsReserved v = 0#30) : flagsReserved (bankSet b r v).flags = 0 := by
  cases r with
  | flags => exact hv rfl
  | _ => exact hb

/-- A command keeps the invariant. -/
theorem CommandEffect.inv {s t : State} (h : CommandEffect s t) (hs : Inv s) : Inv t := by
  cases h with
  | ignored => exact hs
  | answered w => exact { hs with }
  | faulted c o => exact { hs with halted_quiet := fun _ => rfl, running := nofun }
  | setParam r v hrun hv =>
    have hire := hs.running hrun
    exact { hs with flags := flagsReserved_bankSet hs.flags hv, running := fun _ => { hire with } }
  | sendRefused e hrun =>
    have hire := hs.running hrun
    exact { hs with running := fun _ => { hire with } }
  | sendAccepted p1 p2 pd ovr len mark hrun hidle hvalid =>
    obtain ⟨hstaging, hP⟩ := accepted_keeps_staging (latchSend p1 p2 pd ovr len mark s.ire)
    have hhalt : s.halted ≠ true := Bool.eq_false_iff.1 hrun
    exact { hs with
      flags := by rw [hstaging]; exact hs.flags
      latchedFlags := by rw [hP]; exact hs.flags
      halted_quiet := fun h => absurd h hhalt
      running := fun _ => accepted_ireOk hs.params p2 pd ovr (hs.running hrun) hidle hvalid }
  | drawn f k hrun hk hbuf =>
    exact { hs with
      sorted := hbuf.sorted hs.sorted
      below := hbuf.below hs.below
      stamps := hs.stamps.trans_le hk }

/-- The boundary and the host's words are no part of the invariant. -/
theorem Inv.atNextBoundary {s : State} (h : Inv s) : Inv s.atNextBoundary := { h with }

theorem Inv.with_port {s : State} (h : Inv s) (port : List Word) : Inv { s with port := port } := { h with }

/-- A tick of a running block from the invariant is a tick of unit IRE. -/
theorem Inv.tick {s : State} (h : Inv s) (hrun : s.halted = false) (hreset : resetDue s = false) :
    ∃ r, IreTick s.ire r ∧ tick s = .next ({ s with ire := r } : State).atNextBoundary := by
  obtain ⟨r, hr, ht⟩ := (h.running hrun).tickIre
  exact ⟨r, ht, tick_of_running hreset hrun hr⟩

theorem IreTick.inv {s : State} {r : Ire} (ht : IreTick s.ire r) (h : Inv s) (hrun : s.halted = false) :
    Inv { s with ire := r } := by
  obtain ⟨hstaging, hP⟩ := ht.keeps_banks
  have hhalt : s.halted ≠ true := Bool.eq_false_iff.1 hrun
  exact { h with
    flags := by rw [hstaging]; exact h.flags
    latchedFlags := by rw [hP]; exact h.latchedFlags
    halted_quiet := fun hh => absurd hh hhalt
    running := fun _ => ht.ireOk (h.running hrun) }

/-- What a tick from the invariant can do. -/
theorem Inv.tick_cases {s t : State} (h : Inv s) (ht : Machine.tick s = .next t) :
    (resetDue s = true ∧ t = resetBlock s.atNextBoundary) ∨
    (s.halted = true ∧ t = s.atNextBoundary) ∨
    (s.halted = false ∧ ∃ r, IreTick s.ire r ∧ t = ({ s with ire := r } : State).atNextBoundary) := by
  rcases tick_effect ht with hreset | ⟨-, hhalt⟩ | ⟨hreset, hrun, -⟩
  · exact .inl hreset
  · exact .inr (.inl hhalt)
  · obtain ⟨r, hr, heq⟩ := h.tick hrun hreset
    rw [heq] at ht
    exact .inr (.inr ⟨hrun, r, hr, (Host.Outcome.next.inj ht).symm⟩)

/-- Settles O14: a command keeps it by `CommandEffect.inv`, a tick by `IreTick.inv`, a reset by `resetBlock_inv`. -/
theorem stepKeepsInvariant : Obligations.StepKeepsInvariant := by
  intro s t hs hstep
  rcases step_effect hstep with ⟨-, htick⟩ | ⟨-, rest, hcmd⟩
  · rcases hs.tick_cases htick with ⟨-, rfl⟩ | ⟨-, rfl⟩ | ⟨hrun, r, hr, rfl⟩
    · exact resetBlock_inv hs.params
    · exact hs.atNextBoundary
    · exact (hr.inv hs hrun).atNextBoundary
  · exact hcmd.inv (hs.with_port rest)

end Sys2Proof.Machine
end

section
/-!
The schedule of a session (41_ir_sequencer.md R162 to R166): every step of a running block keeps it, and every tick of
a busy block takes one from the ticks left.
-/
namespace Sys2Proof.Machine

/-! ## Ticks of a transmission (41_ir_sequencer.md R162) -/

theorem bitsTicks_succ (x : Session) (k : Nat) : bitsTicks x (k + 1) = bitsTicks x k + bitTicks x k := by
  simp [bitsTicks, List.range_succ]

theorem bitsTicks_mono (x : Session) {j k : Nat} (h : j ≤ k) : bitsTicks x j ≤ bitsTicks x k :=
  monotone_nat_of_le_succ (fun i => by rw [bitsTicks_succ]; exact Nat.le_add_right _ _) h

theorem bitTicks_eq (x : Session) (i : Nat) : bitTicks x i = (bitPair x i).1.toNat + (bitPair x i).2.toNat := by
  unfold bitTicks bitPair
  split <;> rfl

theorem bitsTicks_le (x : Session) (k : Nat) : bitsTicks x k ≤ k * 2 ^ 33 := by
  induction k with
  | zero => simp [bitsTicks]
  | succ k ih =>
    have h1 := (bitPair x k).1.isLt
    have h2 := (bitPair x k).2.isLt
    rw [bitsTicks_succ, bitTicks_eq]
    omega

theorem stopTicks_lt (x : Session) : stopTicks x < 2 ^ 33 := by
  have h1 := x.P.zeroHigh.isLt
  have h2 := x.P.zeroLow.isLt
  unfold stopTicks
  omega

theorem middleTicks_of_ms_pos {x : Session} (h : 0 < x.ms) : middleTicks x = stopTicks x := if_pos h

theorem middleTicks_of_ms_zero {x : Session} (h : x.ms = 0) : middleTicks x = 0 := if_neg (by omega)

theorem fullTicks_lt {x : Session} (hL : x.L.toNat ≤ 64) : fullTicks x < 2 ^ 40 := by
  have hmark := x.startMark.isLt
  have hlow := x.P.startLow.isLt
  have hbits := bitsTicks_le x x.L.toNat
  have hstop := stopTicks_lt x
  have hmiddle : middleTicks x ≤ stopTicks x := by
    unfold middleTicks
    split <;> omega
  unfold fullTicks
  omega

theorem fastTicks_lt (x : Session) : fastTicks x < 2 ^ 40 := by
  have hhigh := x.P.repeatHigh.isLt
  have hlow := x.P.repeatLow.isLt
  have hstop := stopTicks_lt x
  unfold fastTicks
  omega

theorem currentTicks_lt {x : Session} (hL : x.L.toNat ≤ 64) : currentTicks x < 2 ^ 40 := by
  have hfull := fullTicks_lt hL
  have hfast := fastTicks_lt x
  unfold currentTicks laterTicks
  split_ifs <;> omega

theorem currentTicks_of_later {x : Session} (h : x.rem ≠ x.R) : currentTicks x = laterTicks x := if_neg h

/-- A full packet is the first transmission, or there are no fast repeats (41_ir_sequencer.md R163). -/
theorem currentTicks_of_full {x : Session} (h : fastRepeats x.P = true → x.rem = x.R) :
    currentTicks x = fullTicks x := by
  unfold currentTicks laterTicks
  split_ifs with h1 h2
  · rfl
  · exact absurd (h h2) h1
  · rfl

theorem currentTicks_of_fast {x : Session} (h : fastRepeats x.P = true ∧ x.rem ≠ x.R) :
    currentTicks x = fastTicks x := by
  rw [currentTicks_of_later h.2]
  exact if_pos h.1

/-- What follows a later transmission: each repeat at its start-to-start distance (41_ir_sequencer.md R163). -/
theorem laterTicks_add_followingTicks (x : Session) (k : Nat) :
    laterTicks x + followingTicks x (laterTicks x) k =
      k * max x.P.repeatTime.toNat (laterTicks x) + laterTicks x := by
  cases k with
  | zero => simp [followingTicks]
  | succ k =>
    rw [followingTicks, Nat.add_mul, Nat.one_mul]
    omega

/-! ## The transmission in progress -/

/-- The counted ticks never pass the duration of the transmission (41_ir_sequencer.md R162). -/
theorem OnTime.elapsed_le {x : Session} (ht : OnTime x) (h : SendingOk x) (hs : x.state ≠ .spaceTrailer) :
    x.elapsed.toNat ≤ currentTicks x := by
  have hbits := bitsTicks_mono x h.n_le
  have hemit := h.emitting
  have helapsed := ht.elapsed_eq
  unfold elapsedTicks at helapsed
  rw [helapsed]
  split
  case h_1 hq => rw [hq] at hemit; cases hemit
  case h_2 hq =>
    rw [currentTicks_of_full (ht.full (.inl hq)), fullTicks]
    omega
  case h_3 hq =>
    rw [currentTicks_of_full (ht.full (.inr (.inl hq))), fullTicks]
    omega
  case h_4 hq =>
    rw [currentTicks_of_full (ht.full (.inr (.inr (.inl hq)))), fullTicks]
    omega
  case h_5 hq =>
    rw [currentTicks_of_full (ht.full (.inr (.inr (.inr hq)))), fullTicks]
    omega
  case h_6 => exact Nat.le_refl _
  case h_7 hq => exact absurd hq hs
  case h_8 hq =>
    rw [currentTicks_of_fast (ht.fast hq), fastTicks]
    omega
  case h_9 hq => rw [hq] at hemit; cases hemit

/-- `elapsed` is far from overflow (41_ir_sequencer.md R166). -/
theorem OnTime.elapsed_lt {x : Session} (ht : OnTime x) (h : SendingOk x) : x.elapsed.toNat < 2 ^ 63 := by
  by_cases hs : x.state = .spaceTrailer
  · have hrt := x.P.repeatTime.isLt
    rw [ht.elapsed_eq]
    simp only [elapsedTicks, hs]
    omega
  · have hcur := currentTicks_lt h.L_le
    have hle := ht.elapsed_le h hs
    omega

theorem advance_elapsed {r : Ire} (h : r.ses.elapsed.toNat < 2 ^ 63) (q : IrState) (n : BitVec 7) (m sp : Word) :
    (advance q n m sp r).ses.elapsed.toNat = r.ses.elapsed.toNat + (m.toNat + sp.toNat) := by
  have hm := m.isLt
  have hsp := sp.isLt
  simp only [advance, BitVec.toNat_add, BitVec.toNat_setWidth]
  omega

/-! ## Every step of a session keeps the schedule -/

/-- The next transmission is no first one, and starts its count anew. -/
theorem beginRepeat_onTime {r : Ire} (hrem : r.ses.rem ≠ r.ses.R) : OnTime (beginRepeat r).ses := by
  have hzero : (withElapsedZero r).ses.elapsed.toNat < 2 ^ 63 := by simp [withElapsedZero]
  rw [beginRepeat_eq]
  split
  case isTrue hfast =>
    refine ⟨?_, nofun, fun _ => ⟨hfast, hrem⟩, nofun, nofun⟩
    rw [advance_elapsed hzero]
    simp [withElapsedZero, advance, elapsedTicks]
  case isFalse hfull =>
    refine ⟨?_, fun _ hfast => absurd hfast hfull, nofun, nofun, nofun⟩
    rw [advance_elapsed hzero]
    simp [withElapsedZero, advance, elapsedTicks]

theorem onTime_of_complete {x : Session} (h : x.state = .complete) : OnTime x where
  elapsed_eq := by simp only [elapsedTicks, h]
  full := by simp [h]
  fast := by simp [h]
  gap := by simp [h]
  second := by simp [h]

theorem enterComplete_onTime (r : Ire) : OnTime (enterComplete r).ses := by
  refine onTime_of_complete ?_
  unfold enterComplete
  split <;> rfl

theorem SendingOk.rem_pred_ne {x : Session} (h : SendingOk x) : x.rem - 1#32 ≠ x.R := by
  intro heq
  have hpred := word_pred_toNat x.rem h.rem_pos (by omega)
  have hpos := h.rem_pos
  have hle := h.rem_le
  rw [heq] at hpred
  omega

/-- A step of a session that is on its schedule keeps it there. -/
theorem SessionStep.onTime {r r' : Ire} (hstep : SessionStep r r') (h : SendingOk r.ses) (ht : OnTime r.ses) :
    OnTime r'.ses := by
  have hL := h.L_le
  have hpos := h.L_pos
  have hlt := ht.elapsed_lt h
  have helapsed := ht.elapsed_eq
  cases hstep with
  | firstBit hs =>
    have hn := bitCount_toNat (i := 0) (by omega)
    refine ⟨?_, fun _ => ht.full (.inl hs), nofun, nofun, nofun⟩
    rw [advance_elapsed hlt, helapsed, ← bitTicks_eq]
    simp only [elapsedTicks, hs]
    show _ = _ + bitsTicks r.ses (BitVec.ofNat 7 (0 + 1)).toNat
    rw [hn, bitsTicks_succ]
    show _ = r.ses.startMark.toNat + r.ses.P.startLow.toNat + _
    simp [bitsTicks]
  | wordOneBit hs hword hn =>
    have hn' := bitCount_toNat (i := r.ses.n.toNat) (by omega)
    refine ⟨?_, fun _ => ht.full (.inr (.inl hs)), nofun, nofun, nofun⟩
    rw [advance_elapsed hlt, helapsed, ← bitTicks_eq]
    simp only [elapsedTicks, hs]
    show _ = _ + bitsTicks r.ses (BitVec.ofNat 7 (r.ses.n.toNat + 1)).toNat
    rw [hn', bitsTicks_succ, Nat.add_assoc]
    rfl
  | middle hs hms hn =>
    refine ⟨?_, fun _ => ht.full (.inr (.inl hs)), nofun, nofun, fun _ => hms⟩
    rw [advance_elapsed hlt, helapsed]
    simp only [elapsedTicks, hs]
    show _ = _ + middleTicks r.ses
    rw [middleTicks_of_ms_pos hms]
    rfl
  | wordTwoBit hs hn =>
    have hn' := bitCount_toNat (i := r.ses.n.toNat) (by omega)
    refine ⟨?_, fun _ => ht.full (hs.elim (.inr ∘ .inr ∘ .inl) (.inr ∘ .inr ∘ .inr)), nofun, nofun,
      fun _ => ht.second hs.symm⟩
    have hsum : r.ses.elapsed.toNat =
        r.ses.startMark.toNat + r.ses.P.startLow.toNat + bitsTicks r.ses r.ses.n.toNat + middleTicks r.ses := by
      rw [helapsed, elapsedTicks]
      rcases hs with hs | hs <;> rw [hs]
    rw [advance_elapsed hlt, hsum, ← bitTicks_eq]
    show _ = _ + bitsTicks r.ses (BitVec.ofNat 7 (r.ses.n.toNat + 1)).toNat + middleTicks r.ses
    rw [hn', bitsTicks_succ]
    show _ = r.ses.startMark.toNat + r.ses.P.startLow.toNat + _ + _
    omega
  | packetStop hs hn =>
    refine ⟨?_, nofun, nofun, nofun, nofun⟩
    have hfull : currentTicks r.ses = fullTicks r.ses :=
      currentTicks_of_full (ht.full (hs.elim (fun h => .inr (.inl h.1)) (.inr ∘ .inr ∘ .inr)))
    have hsum : r.ses.elapsed.toNat + stopTicks r.ses = fullTicks r.ses := by
      rw [helapsed, fullTicks, ← hn]
      rcases hs with ⟨hs, hms⟩ | hs
      · simp only [elapsedTicks, hs, middleTicks_of_ms_zero hms, Nat.add_zero]
      · simp only [elapsedTicks, hs]
    rw [advance_elapsed hlt]
    exact hsum.trans hfull.symm
  | leaderStop hs =>
    refine ⟨?_, nofun, nofun, nofun, nofun⟩
    have hsum : r.ses.elapsed.toNat + stopTicks r.ses = fastTicks r.ses := by
      rw [helapsed, fastTicks]
      simp only [elapsedTicks, hs]
    rw [advance_elapsed hlt]
    exact hsum.trans (currentTicks_of_fast (ht.fast hs)).symm
  | complete => exact enterComplete_onTime _
  | gap hs hrem hgap =>
    refine ⟨?_, nofun, nofun, fun _ => h.rem_pred_ne, nofun⟩
    rw [advance_elapsed (r := withRem (r.ses.rem - 1#32) r) hlt, repeatGap_toNat]
    show r.ses.elapsed.toNat + (0 + _) = r.ses.P.repeatTime.toNat
    omega
  | repeatAtOnce => exact beginRepeat_onTime h.rem_pred_ne
  | repeatAfterGap hs => exact beginRepeat_onTime (ht.gap hs)

theorem IreTick.onTime {r r' : Ire} (htick : IreTick r r') (h : IreOk r) (ht : OnTime r.ses) : OnTime r'.ses := by
  cases htick with
  | quietEnds hgen => exact onTime_of_complete (h.complete_of_silent hgen)
  | expires g r' hgen _ _ hstep => exact hstep.onTime (h.sendingOk hgen) ht
  | _ => exact ht

/-- An accepted session starts on its schedule. -/
theorem accepted_onTime (p1 p2 pd ovr : Word) (len : Nat) (mark : Word) (r : Ire) :
    OnTime (startSession (latchSend p1 p2 pd ovr len mark r)).ses := by
  by_cases hR : (latchSend p1 p2 pd ovr len mark r).ses.R = 0#32
  · rw [startSession_of_none hR]
    exact enterComplete_onTime _
  · rw [startSession_of_some hR]
    refine ⟨?_, fun _ _ => rfl, nofun, nofun, nofun⟩
    rw [advance_elapsed (by simp [latchSend, withState])]
    simp [advance, latchSend, withState, elapsedTicks]

theorem CommandEffect.onTime {s t : State} (h : CommandEffect s t) (ht : s.halted = false → OnTime s.ire.ses)
    (hrun : t.halted = false) : OnTime t.ire.ses := by
  cases h with
  | faulted => cases hrun
  | sendRefused e hs =>
    have hses := ht hs
    exact { hses with }
  | sendAccepted p1 p2 pd ovr len mark => exact accepted_onTime p1 p2 pd ovr len mark s.ire
  | _ => exact ht hrun

/-- Settles O15: a command keeps it by `CommandEffect.onTime`, a tick by `IreTick.onTime`; a reset completes. -/
theorem stepKeepsSchedule : Obligations.StepKeepsSchedule := by
  intro s t hs ht hstep hrun
  rcases step_effect hstep with ⟨-, htick⟩ | ⟨-, rest, hcmd⟩
  · rcases hs.tick_cases htick with ⟨-, rfl⟩ | ⟨hhalt, rfl⟩ | ⟨hsrun, r, hr, rfl⟩
    · exact onTime_of_complete rfl
    · exact ht hrun
    · exact hr.onTime (hs.running hsrun) (ht hsrun)
  · exact hcmd.onTime ht hrun

end Sys2Proof.Machine
end

section
/-!
The length of a session (41_ir_sequencer.md R160 to R163): every tick takes one from the ticks left until `busy`
clears, so a silent session and a quiet delay end exactly when they are due.
-/
namespace Sys2Proof.Machine

/-! ## The ticks left after the present pair -/

/-- The ticks left until `busy` clears, those of the present pair apart. -/
def ticksAfterPair (x : Session) : Nat :=
  if x.state = .spaceTrailer then
    (x.rem.toNat - 1) * max x.P.repeatTime.toNat (laterTicks x) + laterTicks x + x.postDelay.toNat
  else
    (currentTicks x - x.elapsed.toNat) + followingTicks x (currentTicks x) (x.rem.toNat - 1) + x.postDelay.toNat

theorem ticksAfterPair_of_gap {x : Session} (h : x.state = .spaceTrailer) :
    ticksAfterPair x =
      (x.rem.toNat - 1) * max x.P.repeatTime.toNat (laterTicks x) + laterTicks x + x.postDelay.toNat := if_pos h

theorem ticksAfterPair_of_not_gap {x : Session} (h : x.state ≠ .spaceTrailer) :
    ticksAfterPair x =
      (currentTicks x - x.elapsed.toNat) + followingTicks x (currentTicks x) (x.rem.toNat - 1) +
        x.postDelay.toNat := if_neg h

theorem busyTicksLeft_of_emitting {r : Ire} (h : r.ses.state.emitting = true) :
    busyTicksLeft r = pairTicksLeft r.gen + ticksAfterPair r.ses := by
  cases hs : r.ses.state with
  | initial => rw [hs] at h; cases h
  | complete => rw [hs] at h; cases h
  | _ => simp [busyTicksLeft, ticksAfterPair, hs, Nat.add_assoc]

theorem busyTicksLeft_of_complete {r : Ire} (h : r.ses.state = .complete) :
    busyTicksLeft r = if r.post.active then r.post.left.toNat else 0 := by
  simp only [busyTicksLeft, h]

theorem pairTicksLeft_genLoad (m sp : Word) : pairTicksLeft (genLoad m sp) = m.toNat + sp.toNat := by
  unfold genLoad pairTicksLeft
  split
  case isTrue h => simp [h]
  case isFalse => simp

theorem pairTicksLeft_pos {g : Gen} (hg : g.active = true) (hleft : g.left ≠ 0) : 0 < pairTicksLeft g := by
  have hpos := (word_ne_zero_iff g.left).1 hleft
  unfold pairTicksLeft
  rw [if_pos hg]
  split <;> omega

/-! ## An expiry takes no tick -/

/-- The pair an expiry loads inside a transmission takes its ticks from those after the pair before it. -/
theorem advance_busyTicksLeft {r : Ire} {q : IrState} {n : BitVec 7} {m sp : Word}
    (hsend : SendingOk (advance q n m sp r).ses) (ht : OnTime (advance q n m sp r).ses) (hq : q ≠ .spaceTrailer)
    (hs : r.ses.state ≠ .spaceTrailer) (hlt : r.ses.elapsed.toNat < 2 ^ 63) :
    busyTicksLeft (advance q n m sp r) = ticksAfterPair r.ses := by
  have hle := ht.elapsed_le hsend hq
  have helapsed := advance_elapsed hlt q n m sp
  have hcur : currentTicks (advance q n m sp r).ses = currentTicks r.ses := rfl
  rw [busyTicksLeft_of_emitting hsend.emitting, ticksAfterPair_of_not_gap hs, ticksAfterPair_of_not_gap hq, helapsed]
  rw [helapsed] at hle
  rw [hcur] at hle ⊢
  show pairTicksLeft (genLoad m sp) +
    (_ + followingTicks r.ses (currentTicks r.ses) (r.ses.rem.toNat - 1) + r.ses.postDelay.toNat) = _
  rw [pairTicksLeft_genLoad]
  omega

/-- The next transmission is whole, and its repeats follow (41_ir_sequencer.md R157, R163). -/
theorem beginRepeat_busyTicksLeft {r : Ire} (hsend : SendingOk (beginRepeat r).ses)
    (hrem : r.ses.rem ≠ r.ses.R) :
    busyTicksLeft (beginRepeat r) =
      (r.ses.rem.toNat - 1) * max r.ses.P.repeatTime.toNat (laterTicks r.ses) + laterTicks r.ses +
        r.ses.postDelay.toNat := by
  have ht := beginRepeat_onTime hrem
  have hzero : (withElapsedZero r).ses.elapsed.toNat < 2 ^ 63 := by simp [withElapsedZero]
  have hafter : ticksAfterPair (withState .stop (withElapsedZero r)).ses =
      (r.ses.rem.toNat - 1) * max r.ses.P.repeatTime.toNat (laterTicks r.ses) + laterTicks r.ses +
        r.ses.postDelay.toNat := by
    rw [ticksAfterPair_of_not_gap (by simp)]
    show currentTicks r.ses - 0 + followingTicks r.ses (currentTicks r.ses) (r.ses.rem.toNat - 1) +
      r.ses.postDelay.toNat = _
    rw [currentTicks_of_later hrem, Nat.sub_zero, laterTicks_add_followingTicks]
  rw [beginRepeat_eq] at hsend ht ⊢
  rw [← hafter]
  split at hsend
  case isTrue hfast =>
    rw [if_pos hfast] at ht ⊢
    exact advance_busyTicksLeft (r := withState .stop (withElapsedZero r)) hsend ht nofun nofun hzero
  case isFalse hfull =>
    rw [if_neg hfull] at ht ⊢
    exact advance_busyTicksLeft (r := withState .stop (withElapsedZero r)) hsend ht nofun nofun hzero

theorem enterComplete_busyTicksLeft {r : Ire} (hpost : r.post.active = false) :
    busyTicksLeft (enterComplete r) = r.ses.postDelay.toNat := by
  unfold enterComplete
  split
  case isTrue hzero =>
    rw [busyTicksLeft_of_complete rfl, hzero]
    exact if_neg (by simp [hpost])
  case isFalse => exact busyTicksLeft_of_complete rfl

/-- A step of a session leaves exactly the ticks after the pair that has expired (41_ir_sequencer.md R163). -/
theorem SessionStep.busyTicksLeft {r r' : Ire} (hstep : SessionStep r r') (h : SendingOk r.ses) (ht : OnTime r.ses)
    (hgen : r.gen.active = false) (hpost : r.post.active = false) :
    Machine.busyTicksLeft r' = ticksAfterPair r.ses := by
  have hok := hstep.ireOk h hgen hpost
  have ht' := hstep.onTime h ht
  have hlt := ht.elapsed_lt h
  have hrem := word_pred_toNat r.ses.rem h.rem_pos (by omega)
  cases hstep with
  | firstBit hs => exact advance_busyTicksLeft (hok.sendingOk (genLoad_active _ _)) ht' nofun (by simp [hs]) hlt
  | wordOneBit hs => exact advance_busyTicksLeft (hok.sendingOk (genLoad_active _ _)) ht' nofun (by simp [hs]) hlt
  | middle hs => exact advance_busyTicksLeft (hok.sendingOk (genLoad_active _ _)) ht' nofun (by simp [hs]) hlt
  | wordTwoBit hs =>
    refine advance_busyTicksLeft (hok.sendingOk (genLoad_active _ _)) ht' nofun ?_ hlt
    rcases hs with hs | hs <;> simp [hs]
  | packetStop hs =>
    refine advance_busyTicksLeft (hok.sendingOk (genLoad_active _ _)) ht' nofun ?_ hlt
    rcases hs with ⟨hs, -⟩ | hs <;> simp [hs]
  | leaderStop hs => exact advance_busyTicksLeft (hok.sendingOk (genLoad_active _ _)) ht' nofun (by simp [hs]) hlt
  | complete hs hone =>
    have helapsed := ht.elapsed_eq
    simp only [elapsedTicks, hs] at helapsed
    rw [enterComplete_busyTicksLeft (r := withRem 0#32 r) hpost, ticksAfterPair_of_not_gap (by simp [hs]), hone,
      helapsed]
    simp [followingTicks, withRem]
  | gap hs hmore hgap =>
    have helapsed := ht.elapsed_eq
    simp only [elapsedTicks, hs] at helapsed
    obtain ⟨k, hk⟩ : ∃ k, r.ses.rem.toNat = k + 2 := ⟨r.ses.rem.toNat - 2, by omega⟩
    rw [busyTicksLeft_of_emitting rfl, ticksAfterPair_of_gap rfl, ticksAfterPair_of_not_gap (by simp [hs])]
    show pairTicksLeft (genLoad 0#32 (repeatGap r.ses)) + (((r.ses.rem - 1#32).toNat - 1) *
      max r.ses.P.repeatTime.toNat (laterTicks r.ses) + laterTicks r.ses + r.ses.postDelay.toNat) = _
    rw [pairTicksLeft_genLoad, repeatGap_toNat, hrem, hk, ← helapsed]
    simp only [followingTicks, Nat.add_sub_cancel, Nat.reduceSubDiff, BitVec.toNat_zero]
    omega
  | repeatAtOnce hs hmore hlate =>
    have helapsed := ht.elapsed_eq
    simp only [elapsedTicks, hs] at helapsed
    obtain ⟨k, hk⟩ : ∃ k, r.ses.rem.toNat = k + 2 := ⟨r.ses.rem.toNat - 2, by omega⟩
    have hactive : (beginRepeat (withRem (r.ses.rem - 1#32) r)).gen.active = true := by
      rw [beginRepeat_eq]
      split <;> exact genLoad_active _ _
    rw [beginRepeat_busyTicksLeft (hok.sendingOk hactive) h.rem_pred_ne, ticksAfterPair_of_not_gap (by simp [hs])]
    show ((r.ses.rem - 1#32).toNat - 1) * max r.ses.P.repeatTime.toNat (laterTicks r.ses) + laterTicks r.ses +
      r.ses.postDelay.toNat = _
    rw [hrem, hk, ← helapsed]
    simp only [followingTicks, Nat.add_sub_cancel, Nat.reduceSubDiff]
    omega
  | repeatAfterGap hs =>
    have hactive : (beginRepeat r).gen.active = true := by
      rw [beginRepeat_eq]
      split <;> exact genLoad_active _ _
    rw [beginRepeat_busyTicksLeft (hok.sendingOk hactive) (ht.gap hs), ticksAfterPair_of_gap hs]

/-! ## Every tick takes one -/

/-- The ticks left are 0 exactly when `busy` is 0. -/
theorem IreOk.busyTicksLeft_eq_zero_iff {r : Ire} (h : IreOk r) : busyTicksLeft r = 0 ↔ r.ses.busy = false := by
  cases hgen : r.gen.active with
  | true =>
    have hpos := pairTicksLeft_pos hgen (h.left_pos hgen).1
    rw [busyTicksLeft_of_emitting (h.emitting_iff.2 hgen), (h.sendingOk hgen).busy]
    simp only [Bool.true_eq_false, iff_false]
    omega
  | false =>
    have hs := h.complete_of_silent hgen
    rw [busyTicksLeft_of_complete hs]
    cases hpost : r.post.active with
    | true =>
      have hpos := (word_ne_zero_iff _).1 (h.post_pos hpost)
      rw [(h.quiet_iff.2 hpost).2]
      simp only [if_true, Bool.true_eq_false, iff_false]
      omega
    | false =>
      have hidle : r.ses.busy ≠ true := fun hb => by
        rw [h.quiet_iff.1 ⟨hs, hb⟩] at hpost
        cases hpost
      simp [hidle]

/-- A tick of a busy unit takes one tick from those left (41_ir_sequencer.md R142, R160). -/
theorem IreTick.busyTicksLeft {r r' : Ire} (htick : IreTick r r') (h : IreOk r) (ht : OnTime r.ses)
    (hbusy : r.ses.busy = true) : Machine.busyTicksLeft r' + 1 = Machine.busyTicksLeft r := by
  cases htick with
  | idle hgen hpost =>
    rw [h.quiet_iff.1 ⟨h.complete_of_silent hgen, hbusy⟩] at hpost
    cases hpost
  | quiet hgen hpost hleft =>
    have hs := h.complete_of_silent hgen
    have hafter := busyTicksLeft_of_complete (r := { r with post := { r.post with left := r.post.left - 1#32 } }) hs
    rw [hafter, busyTicksLeft_of_complete hs]
    simp only [hpost, if_true, word_pred_toNat _ (show 0 < r.post.left.toNat by omega) (by omega)]
    omega
  | quietEnds hgen hpost hleft =>
    have hs := h.complete_of_silent hgen
    have hafter := busyTicksLeft_of_complete (r := postExpiry { r with post := { r.post with left := 0#32 } }) hs
    rw [hafter, busyTicksLeft_of_complete hs]
    simp [hpost, hleft]
  | emits g hgen hg _ _ hpair =>
    have hemit := h.emitting_iff.2 hgen
    rw [busyTicksLeft_of_emitting hemit, busyTicksLeft_of_emitting (r := { r with gen := g }) hemit]
    show pairTicksLeft g + ticksAfterPair r.ses + 1 = _
    omega
  | expires g r' hgen hg hpair hstep =>
    rw [hstep.busyTicksLeft (h.sendingOk hgen) ht hg (h.post_inactive hgen),
      busyTicksLeft_of_emitting (h.emitting_iff.2 hgen), hpair, Nat.add_comm]

/-- With no word on the port a step is a tick (20_memory.md R73). -/
theorem step_of_port_nil {s : State} (h : s.port = []) : step s = tick s := by simp only [step, h]

/-- Settles O17: the tick is `IreTick.busyTicksLeft`. -/
theorem busyTicksCountDown : Obligations.BusyTicksCountDown := by
  intro s hs hrun ht
  have hok := hs.running hrun
  refine ⟨hok.busyTicksLeft_eq_zero_iff, fun hport hreset hbusy => ?_⟩
  obtain ⟨r, hr, htick⟩ := hs.tick hrun hreset
  exact ⟨_, (step_of_port_nil hport).trans htick, hrun, hr.busyTicksLeft hok ht hbusy⟩

/-! ## A silent host (41_ir_sequencer.md R161, R163) -/

/-- A running block on its schedule whose host says nothing, now or later. -/
structure Silent (s : State) : Prop where
  inv : Inv s
  running : s.halted = false
  onTime : OnTime s.ire.ses
  port : s.port = []
  inbox : s.inbox = []

/-- A silent block steps by a tick of unit IRE alone, and stays silent. -/
theorem Silent.step {s : State} (h : Silent s) :
    ∃ r, IreTick s.ire r ∧ Machine.step s = .next { s with ire := r, boundary := s.boundary + 1 } ∧
      Silent { s with ire := r, boundary := s.boundary + 1 } := by
  have hreset : resetDue s = false := by rw [resetDue, h.inbox]
  obtain ⟨r, hr, htick⟩ := h.inv.tick h.running hreset
  have hnext : ({ s with ire := r } : State).atNextBoundary = { s with ire := r, boundary := s.boundary + 1 } := by
    simp [State.atNextBoundary, h.port, h.inbox]
  rw [hnext] at htick
  refine ⟨r, hr, (step_of_port_nil h.port).trans htick, ?_⟩
  have hinv := (hr.inv h.inv h.running).atNextBoundary
  rw [hnext] at hinv
  exact ⟨hinv, h.running, hr.onTime (h.inv.running h.running) h.onTime, h.port, h.inbox⟩

theorem run_succ_of_step {s t : State} (h : step s = .next t) (k : Nat) : core.run (k + 1) s = core.run k t := by
  simp only [Host.Core.run]
  rw [show core.step s = .next t from h]

theorem IreOk.gen_inactive {r : Ire} (h : IreOk r) (hs : r.ses.state = .complete) : r.gen.active = false := by
  by_contra hgen
  have hemit := h.emitting_iff.2 (Bool.not_eq_false _ ▸ hgen)
  rw [hs] at hemit
  cases hemit

/-- A silent session runs as long as it has ticks left. -/
theorem Silent.run {s : State} (h : Silent s) (k : Nat) (hk : k ≤ busyTicksLeft s.ire) :
    ∃ u : State, core.run k s = .next u ∧ u.boundary = s.boundary + k ∧ Silent u ∧
      busyTicksLeft u.ire + k = busyTicksLeft s.ire := by
  induction k generalizing s with
  | zero => exact ⟨s, rfl, rfl, h, rfl⟩
  | succ k ih =>
    have hok := h.inv.running h.running
    have hbusy : s.ire.ses.busy = true := by
      by_contra hidle
      have hzero := hok.busyTicksLeft_eq_zero_iff.2 (Bool.eq_false_iff.2 hidle)
      omega
    obtain ⟨r, hr, hstep, hnext⟩ := h.step
    have hdown : busyTicksLeft r + 1 = busyTicksLeft s.ire := hr.busyTicksLeft hok h.onTime hbusy
    obtain ⟨u, hrun, hboundary, hu, hleft⟩ := ih hnext (by show k ≤ busyTicksLeft r; omega)
    refine ⟨u, by rw [run_succ_of_step hstep]; exact hrun, ?_, hu, ?_⟩
    · rw [hboundary]
      show s.boundary + 1 + k = _
      omega
    · change busyTicksLeft u.ire + k = busyTicksLeft r at hleft
      omega

theorem Silent.busy_iff {s : State} (h : Silent s) : s.ire.ses.busy = true ↔ busyTicksLeft s.ire ≠ 0 := by
  rw [Ne, (h.inv.running h.running).busyTicksLeft_eq_zero_iff, Bool.not_eq_false]

/-- A session of at least one transmission, from its first pair (41_ir_sequencer.md R163). -/
theorem startSession_busyTicksLeft {r : Ire} (h : SendingOk (withState .start r).ses) (hpost : r.post.active = false)
    (hR : r.ses.R ≠ 0#32) (hrem : r.ses.rem = r.ses.R) (helapsed : r.ses.elapsed = 0#64) (hn : r.ses.n = 0#7)
    (ht : OnTime (startSession r).ses) :
    busyTicksLeft (startSession r) = sessionTicks r.ses r.ses.R.toNat + r.ses.postDelay.toNat := by
  obtain ⟨k, hk⟩ := Nat.exists_eq_succ_of_ne_zero ((word_ne_zero_iff _).1 hR).ne'
  have hzero : (withState .start r).ses.elapsed.toNat < 2 ^ 63 := by simp [helapsed]
  have hok : IreOk (advance .start r.ses.n r.ses.startMark r.ses.P.startLow (withState .start r)) :=
    h.advance hpost _ rfl h.spaces.1 (by simp [hn]) nofun nofun
  have hcur : currentTicks (withState .start r).ses = fullTicks r.ses := if_pos hrem
  rw [startSession_of_some hR] at ht ⊢
  rw [advance_busyTicksLeft (hok.sendingOk (genLoad_active _ _)) ht nofun (by simp) hzero,
    ticksAfterPair_of_not_gap (by simp), hcur]
  show fullTicks r.ses - r.ses.elapsed.toNat + followingTicks r.ses (fullTicks r.ses) (r.ses.rem.toNat - 1) +
    r.ses.postDelay.toNat = _
  rw [hrem, hk, helapsed]
  rfl

/-- The ticks of an accepted session (41_ir_sequencer.md R163). -/
theorem accepted_busyTicksLeft {p : Params} (hp : p.wf = true) {r : Ire} {p1 mark : Word} {len : Nat}
    (p2 pd ovr : Word) (h : validate p r.staging p1 = .ok (len, mark)) :
    busyTicksLeft (startSession (latchSend p1 p2 pd ovr len mark r)) =
      sessionTicks (latchSend p1 p2 pd ovr len mark r).ses (transmissions r.staging ovr).toNat + pd.toNat := by
  by_cases hR : transmissions r.staging ovr = 0#32
  · rw [startSession_of_none hR, enterComplete_busyTicksLeft rfl, hR]
    exact (Nat.zero_add _).symm
  · exact startSession_busyTicksLeft (latchSend_sendingOk hp p2 pd ovr h hR) rfl hR rfl rfl rfl
      (accepted_onTime p1 p2 pd ovr len mark r)

/-- A command that leaves the block running without an error accepted the session. -/
theorem sendEffect_accepted {s : State} {p1 p2 pd ovr : Word}
    (hrun : (sendEffect p1 p2 pd ovr s).halted = false) (hcfg : (sendEffect p1 p2 pd ovr s).ire.ses.cfgErr = none) :
    s.ire.ses.busy = false ∧ ∃ len mark, validate s.params s.ire.staging p1 = .ok (len, mark) := by
  have hidle : s.ire.ses.busy = false := by
    by_contra hbusy
    rw [sendEffect_of_busy p1 p2 pd ovr (Bool.not_eq_false _ ▸ hbusy)] at hrun
    cases hrun
  refine ⟨hidle, ?_⟩
  cases hvalid : validate s.params s.ire.staging p1 with
  | error e =>
    rw [sendEffect_of_refused p2 pd ovr hidle hvalid] at hcfg
    cases hcfg
  | ok v => exact ⟨v.1, v.2, rfl⟩

theorem sessionTicks_startSession (r : Ire) (k : Nat) :
    sessionTicks (startSession r).ses k = sessionTicks r.ses k := by
  unfold startSession enterComplete
  split_ifs <;> cases k <;> rfl

/-- Settles O18: `Silent.run` for the ticks of `accepted_busyTicksLeft`. -/
theorem silentSessionLastsItsTicks : Obligations.SilentSessionLastsItsTicks := by
  intro s t p1 p2 pd ovr hs hrun hport hinbox hexec htrun hcfg
  rw [exec_irSend_of_running p1 p2 pd ovr hrun] at hexec
  obtain rfl := Host.Outcome.next.inj hexec
  obtain ⟨hidle, len, mark, hvalid⟩ := sendEffect_accepted htrun hcfg
  rw [sendEffect_of_accepted p2 pd ovr hidle hvalid] at htrun hcfg ⊢
  have hR : (startSession (latchSend p1 p2 pd ovr len mark s.ire)).ses.R = transmissions s.ire.staging ovr := by
    unfold startSession enterComplete
    split_ifs <;> rfl
  have hticks := accepted_busyTicksLeft hs.params p2 pd ovr hvalid
  rw [← sessionTicks_startSession, ← hR] at hticks
  rw [← hticks]
  have hsilent : Silent { s with ire := startSession (latchSend p1 p2 pd ovr len mark s.ire) } :=
    ⟨(CommandEffect.sendAccepted p1 p2 pd ovr len mark hrun hidle hvalid).inv hs, hrun,
      accepted_onTime p1 p2 pd ovr len mark s.ire, hport, hinbox⟩
  refine ⟨fun k hk => ?_, ?_⟩
  · obtain ⟨u, hu, hboundary, husilent, hleft⟩ := hsilent.run k hk.le
    exact ⟨u, hu, hboundary, husilent.busy_iff.2 (by change _ = busyTicksLeft (startSession _) at hleft; omega)⟩
  · obtain ⟨u, hu, hboundary, husilent, hleft⟩ := hsilent.run _ le_rfl
    have hok := husilent.inv.running husilent.running
    have hubusy := hok.busyTicksLeft_eq_zero_iff.1 (Nat.add_eq_right.1 hleft)
    have hcomplete := hok.idle hubusy
    exact ⟨u, hu, hboundary, hubusy, hcomplete, by simp [State.irEnv, Gen.env, hok.gen_inactive hcomplete]⟩

/-- A silent quiet delay counts down to its end. -/
theorem Silent.quiet_run {s : State} (h : Silent s) (hpost : s.ire.post.active = true) (k : Nat)
    (hk : k ≤ s.ire.post.left.toNat) :
    ∃ u : State, core.run k s = .next u ∧ u.boundary = s.boundary + k ∧ u.irEnv = false ∧
      u.ire.ses.busy = decide (k < s.ire.post.left.toNat) ∧ u.ire.post.left.toNat = s.ire.post.left.toNat - k := by
  induction k generalizing s with
  | zero =>
    have hok := h.inv.running h.running
    obtain ⟨hcomplete, hbusy⟩ := hok.quiet_iff.2 hpost
    have hpos := (word_ne_zero_iff _).1 (hok.post_pos hpost)
    exact ⟨s, rfl, rfl, by simp [State.irEnv, Gen.env, hok.gen_inactive hcomplete], by simp [hbusy, hpos], rfl⟩
  | succ k ih =>
    obtain ⟨r, hr, hstep, hnext⟩ := h.step
    have hok := h.inv.running h.running
    cases hr with
    | idle _ hno => rw [hpost] at hno; cases hno
    | emits g hgen => rw [hok.post_inactive hgen] at hpost; cases hpost
    | expires g r' hgen => rw [hok.post_inactive hgen] at hpost; cases hpost
    | quiet hgen _ hleft =>
      have hpred := word_pred_toNat s.ire.post.left (by omega) (by omega)
      obtain ⟨u, hu, hboundary, henv, hbusy, hpl⟩ := ih hnext hpost (by dsimp only; omega)
      dsimp only at hboundary hbusy hpl
      rw [hpred] at hbusy hpl
      refine ⟨u, (run_succ_of_step hstep k).trans hu, by omega, henv, ?_, by omega⟩
      rw [hbusy, decide_eq_decide]
      omega
    | quietEnds hgen _ hleft =>
      obtain rfl : k = 0 := by omega
      refine ⟨_, run_succ_of_step hstep 0, rfl, ?_, ?_, ?_⟩
      · simp [State.irEnv, Gen.env, hgen]
      · simp [hleft]
      · simp [hleft]

/-- Settles O34: every tick of the quiet delay is `IreTick.quiet`, and the last one `IreTick.quietEnds`. -/
theorem quietDelayClearsBusy : Obligations.QuietDelayClearsBusy := by
  intro s k hs hrun hport hinbox hpost hk
  have hcomplete := ((hs.running hrun).quiet_iff.2 hpost).1
  exact Silent.quiet_run ⟨hs, hrun, onTime_of_complete hcomplete, hport, hinbox⟩ hpost k hk

end Sys2Proof.Machine
end

section
/-!
The events of unit IRE, one by one: the generator's pair and the pin (41_ir_sequencer.md section 1), a tick of the whole
block (20_memory.md R74), and the expiry steps (41_ir_sequencer.md section 3).
-/
namespace Sys2Proof.Machine

/-! ## The generator's pair (41_ir_sequencer.md R141 to R143) -/

/-- One tick of the generator, whether it expires or not. -/
def genTick (g : Gen) : Gen := (tickGen g).1

/-- A generator with `k` ticks of its phase left after `j` ticks of its pair `(m, sp)`. -/
structure InPair (m sp : Word) (j : Nat) (g : Gen) : Prop where
  active : g.active = true
  space : g.s = sp
  phase : g.phase = decide (j < m.toNat)
  left : g.left.toNat = if j < m.toNat then m.toNat - j else m.toNat + sp.toNat - j

theorem genLoad_inPair (m sp : Word) : InPair m sp 0 (genLoad m sp) := by
  have hm := word_ne_zero_iff m
  unfold genLoad
  split
  case isTrue h => exact ⟨rfl, rfl, by simp [h], by simp [h]⟩
  case isFalse h => exact ⟨rfl, rfl, by simp [hm.1 h], by simp [hm.1 h]⟩

/-- A tick inside a pair leads to the next tick of it. -/
theorem InPair.genTick {m sp : Word} {j : Nat} {g : Gen} (h : InPair m sp j g) (hj : j + 1 < m.toNat + sp.toNat) :
    InPair m sp (j + 1) (genTick g) := by
  have hleft := h.left
  have hphase := h.phase
  have hpos : 0 < g.left.toNat := by split at hleft <;> omega
  have hpred := word_pred_toNat g.left hpos (by omega)
  unfold Machine.genTick
  rcases tickGen_cases g with ⟨hno, -⟩ | ⟨hactive, hmore, heq⟩ | ⟨hactive, hlast, hmark, heq⟩ |
    ⟨hactive, hlast, hmark, heq⟩
  · rw [h.active] at hno; cases hno
  · rw [word_ne_zero_iff, hpred] at hmore
    rw [heq]
    refine ⟨hactive, h.space, ?_, ?_⟩
    · rw [hphase, decide_eq_decide]
      split at hleft <;> omega
    · rw [hpred]
      split at hleft <;> split <;> omega
  · rw [hlast] at hpred
    have hpred : g.left.toNat = 1 := by simp at hpred; omega
    rw [hmark, eq_comm, decide_eq_true_eq] at hphase
    rw [if_pos hphase] at hleft
    rw [heq]
    refine ⟨hactive, h.space, (decide_eq_false (by omega)).symm, ?_⟩
    rw [if_neg (by omega), h.space]
    show sp.toNat = _
    omega
  · rw [hlast] at hpred
    have hpred : g.left.toNat = 1 := by simp at hpred; omega
    rw [hmark, eq_comm, decide_eq_false_iff_not] at hphase
    rw [if_neg hphase] at hleft
    omega

/-- The expiry of a pair falls due with its last tick (41_ir_sequencer.md R143). -/
theorem InPair.due {m sp : Word} {j : Nat} {g : Gen} (h : InPair m sp j g) (hsp : sp ≠ 0#32)
    (hj : j < m.toNat + sp.toNat) : (tickGen g).2 = decide (j + 1 = m.toNat + sp.toNat) := by
  have hspace := (word_ne_zero_iff sp).1 hsp
  have hleft := h.left
  have hphase := h.phase
  have hpos : 0 < g.left.toNat := by split at hleft <;> omega
  have hpred := word_pred_toNat g.left hpos (by omega)
  rcases tickGen_cases g with ⟨hno, -⟩ | ⟨-, hmore, heq⟩ | ⟨-, hlast, hmark, heq⟩ | ⟨-, hlast, hmark, heq⟩
  · rw [h.active] at hno; cases hno
  · rw [word_ne_zero_iff, hpred] at hmore
    rw [heq, eq_comm, decide_eq_false_iff_not]
    split at hleft <;> omega
  · rw [hmark, eq_comm, decide_eq_true_eq] at hphase
    rw [heq, eq_comm, decide_eq_false_iff_not]
    omega
  · rw [hlast] at hpred
    have hpred : g.left.toNat = 1 := by simp at hpred; omega
    rw [hmark, eq_comm, decide_eq_false_iff_not] at hphase
    rw [if_neg hphase] at hleft
    rw [heq, eq_comm, decide_eq_true_eq]
    omega

theorem inPair_iterate (m sp : Word) (j : Nat) (hj : j < m.toNat + sp.toNat) :
    InPair m sp j (genTick^[j] (genLoad m sp)) := by
  induction j with
  | zero => exact genLoad_inPair m sp
  | succ j ih =>
    rw [Function.iterate_succ_apply']
    exact (ih (by omega)).genTick hj

/-- Settles O30: a tick of the pair is an `InPair`; the pin is read off the generator. -/
theorem pairLastsItsTicks : Obligations.PairLastsItsTicks := by
  refine ⟨fun r m sp j hsp hj => ?_, fun s ns => ⟨?_, ?_, fun henv => ?_⟩⟩
  · have hpair : InPair m sp j ((fun g => (tickGen g).1)^[j] (emit m sp r).gen) := inPair_iterate m sp j hj
    exact ⟨by rw [Gen.env, hpair.active, Bool.true_and, hpair.phase], hpair.due hsp hj⟩
  · simp [State.irEnv, Gen.env]
  · cases henv : s.irEnv <;> simp [State.irOut, henv]
  · exact ⟨_, if_pos henv⟩

/-! ## A tick of the block (20_memory.md R74) -/

theorem word_sub_one_eq_zero_iff (w : Word) : w - 1#32 = 0#32 ↔ w = 1#32 := by
  rw [BitVec.sub_eq_iff_eq_add, BitVec.zero_add]

/-- The generator's tick, by what it holds (41_ir_sequencer.md R142). -/
theorem tickGen_eq {g g' : Gen} {due : Bool} (hidle : g.active = false → g' = g ∧ due = false)
    (hcount : g.active = true → g.left ≠ 1#32 → g' = { g with left := g.left - 1#32 } ∧ due = false)
    (hspace : g.active = true → g.left = 1#32 → g.phase = true → g' = { g with phase := false, left := g.s } ∧ due = false)
    (hlast : g.active = true → g.left = 1#32 → g.phase = false → g' = { g with active := false, left := 0#32 } ∧ due = true) :
    tickGen g = (g', due) := by
  rcases tickGen_cases g with ⟨ha, heq⟩ | ⟨ha, hl, heq⟩ | ⟨ha, hl, hp, heq⟩ | ⟨ha, hl, hp, heq⟩
  · obtain ⟨rfl, rfl⟩ := hidle ha
    exact heq
  · obtain ⟨rfl, rfl⟩ := hcount ha (hl ∘ (word_sub_one_eq_zero_iff _).2)
    exact heq
  · obtain ⟨rfl, rfl⟩ := hspace ha ((word_sub_one_eq_zero_iff _).1 hl) hp
    exact heq
  · obtain ⟨rfl, rfl⟩ := hlast ha ((word_sub_one_eq_zero_iff _).1 hl) hp
    exact heq

/-- The post-delay timer's tick, by what it holds (41_ir_sequencer.md R160). -/
theorem tickPost_eq {t t' : PostTimer} {due : Bool} (hidle : t.active = false → t' = t ∧ due = false)
    (hcount : t.active = true → t.left ≠ 1#32 → t' = { t with left := t.left - 1#32 } ∧ due = false)
    (hlast : t.active = true → t.left = 1#32 → t' = { t with left := 0#32 } ∧ due = true) :
    tickPost t = (t', due) := by
  rcases tickPost_cases t with ⟨ha, heq⟩ | ⟨ha, hl, heq⟩ | ⟨ha, hl, heq⟩
  · obtain ⟨rfl, rfl⟩ := hidle ha
    exact heq
  · obtain ⟨rfl, rfl⟩ := hcount ha (hl ∘ (word_sub_one_eq_zero_iff _).2)
    exact heq
  · obtain ⟨rfl, rfl⟩ := hlast ha ((word_sub_one_eq_zero_iff _).1 hl)
    exact heq

/-- With no word on the port the next boundary's port is the host's delivery. -/
theorem atNextBoundary_of_port_nil {s : State} (h : s.port = []) :
    s.atNextBoundary =
      { s with
        boundary := s.boundary + 1
        port := (s.inbox.head?.map Delivery.words).getD []
        inbox := s.inbox.tail } := by
  rw [State.atNextBoundary, h, List.nil_append]

theorem tick_of_halted {s : State} (hreset : resetDue s = false) (hhalt : s.halted = true) :
    tick s = .next s.atNextBoundary := by
  rw [tick, hhalt, Bool.or_true, if_pos rfl, nextBoundary_of_not_reset hreset]

/-- Settles O31: the tick of unit IRE by `tickGen_eq` and `tickPost_eq`, then the boundary. -/
theorem generatorExpiryStepsMachine : Obligations.GeneratorExpiryStepsMachine := by
  refine ⟨fun s g p genDue postDue r hrun hport hreset g1 g2 g3 g4 p1 p2 p3 hstill hdue => ?_,
    fun s hhalt hport hreset => ?_⟩
  · have hg := tickGen_eq g1 g2 g3 g4
    have hp := tickPost_eq p1 p2 p3
    have hire : tickIre s.ire = .ok (if postDue then postExpiry r else r) := by
      cases hd : genDue with
      | false =>
        rw [tickIre_of_not_due (by rw [hg, hd]), hg, hp, hstill hd]
      | true =>
        have hexp := hdue hd
        rw [tickIre_of_due (r' := r) (by rw [hg, hd]) (by rw [hg, hp]; exact hexp), hp]
    rw [step_of_port_nil hport, tick_of_running hreset hrun hire]
    exact congrArg _ (atNextBoundary_of_port_nil (s := { s with ire := if postDue then postExpiry r else r }) hport)
  · rw [step_of_port_nil hport, tick_of_halted hreset hhalt, atNextBoundary_of_port_nil hport]

/-! ## The expiry steps (41_ir_sequencer.md R151 to R158) -/

/-- A data bit is its whole pair, and one bit more is emitted (41_ir_sequencer.md R145). -/
theorem emitBit_eq {r : Ire} {i : Nat} {b : Bool} (hb : b = dataBit r.ses i) :
    emitBit i r =
      { emit (if b then r.ses.P.oneHigh else r.ses.P.zeroHigh) (if b then r.ses.P.oneLow else r.ses.P.zeroLow) r with
        ses := { (emit (if b then r.ses.P.oneHigh else r.ses.P.zeroHigh)
          (if b then r.ses.P.oneLow else r.ses.P.zeroLow) r).ses with n := BitVec.ofNat 7 (i + 1) } } := by
  subst hb
  unfold emitBit
  dsimp only
  split <;> rfl

theorem dataBit_first {x : Session} {i : Nat} (h : x.ms = 0 ∨ i < x.ms) : dataBit x i = x.pay1.getLsbD i :=
  if_neg (by omega)

theorem dataBit_second {x : Session} {i : Nat} (hpos : 0 < x.ms) (h : x.ms ≤ i) :
    dataBit x i = x.pay2.getLsbD (i - x.ms) := if_pos ⟨hpos, h⟩

theorem bitCount_succ (n : BitVec 7) : BitVec.ofNat 7 (n.toNat + 1) = n + 1#7 := by
  rw [BitVec.ofNat_add, BitVec.ofNat_toNat, BitVec.setWidth_eq]

/-- Settles O32: each state's expiry step, its data bit by `emitBit_eq`. -/
theorem expiryInsideAPacket : Obligations.ExpiryInsideAPacket := by
  refine fun r b => ⟨fun hs hb => ?_, fun hs hpos hn => ?_, fun hs hmid hn => ?_, fun hs hmid hn hb => ?_,
    fun hs hn => ?_, fun hs hpos hle hb => ?_⟩
  · have hbit : b = dataBit r.ses 0 := by
      rw [hb, dataBit_first (by omega)]
    simp only [expiry, hs, expiryStart, emitBit_eq hbit]
  · have hmid : 0 < r.ses.ms ∧ r.ses.n.toNat = r.ses.ms := ⟨hpos, hn⟩
    simp only [expiry, hs, expiryFirstWord, if_pos hmid, emitStop]
  · have hmid' : ¬ (0 < r.ses.ms ∧ r.ses.n.toNat = r.ses.ms) := hmid
    simp only [expiry, hs, expiryFirstWord, if_neg hmid', if_pos hn, emitStop]
  · have hlt : r.ses.ms = 0 ∨ r.ses.n.toNat < r.ses.ms := hmid
    have hmid' : ¬ (0 < r.ses.ms ∧ r.ses.n.toNat = r.ses.ms) := by omega
    have hbit : b = dataBit r.ses r.ses.n.toNat := by rw [hb, dataBit_first hlt]
    simp only [expiry, hs, expiryFirstWord, if_neg hmid', if_neg hn, emitBit_eq hbit, bitCount_succ]
  · simp only [expiry, hs, expirySecondWord, if_pos hn, emitStop]
  · have hbit : b = dataBit r.ses r.ses.n.toNat := by
      rw [hb, dataBit_second hpos hle]
      rfl
    rcases hs with hs | ⟨hs, hn⟩
    · simp only [expiry, hs, expiryMiddleStop, emitBit_eq hbit, bitCount_succ]
    · have hstay : withState .secondWord (emitBit r.ses.n.toNat r) = emitBit r.ses.n.toNat r :=
        withState_of_state ((emitBit_state _ _).trans hs)
      simp only [expiry, hs, expirySecondWord, if_neg hn]
      rw [← hstay, emitBit_eq hbit, bitCount_succ]

theorem expiry_of_stop {r : Ire} (h : r.ses.state = .stop) : expiry r = .ok (expiryStop r) := by
  simp only [expiry, h]

theorem expiry_of_spaceTrailer {r : Ire} (h : r.ses.state = .spaceTrailer) : expiry r = .ok (beginRepeat r) := by
  simp only [expiry, h, expirySpaceTrailer]

/-- The last transmission is complete (41_ir_sequencer.md R156). -/
theorem expiryStop_of_last {r : Ire} (h : r.ses.rem = 1#32) : expiryStop r = enterComplete (withRem 0#32 r) := by
  have hzero : r.ses.rem - 1#32 = 0#32 := by rw [h]; rfl
  simp only [expiryStop, hzero, if_true]
  rfl

/-- More transmissions follow, after a gap or at once (41_ir_sequencer.md R156). -/
theorem expiryStop_of_more {r : Ire} (h : 1 < r.ses.rem.toNat) :
    expiryStop r =
      if r.ses.elapsed.toNat < r.ses.P.repeatTime.toNat then
        advance .spaceTrailer r.ses.n 0#32 (repeatGap r.ses) (withRem (r.ses.rem - 1#32) r)
      else beginRepeat (withRem (r.ses.rem - 1#32) r) := by
  have hpred := word_pred_toNat r.ses.rem (by omega) (by omega)
  have hmore : ¬ r.ses.rem - 1#32 = 0#32 := (word_ne_zero_iff _).2 (by omega)
  simp only [expiryStop, if_neg hmore]
  rfl

/-- `elapsed` after the gap is the repeat period (41_ir_sequencer.md R156). -/
theorem elapsed_after_gap {x : Session} (h : x.elapsed.toNat < x.P.repeatTime.toNat) :
    x.elapsed + (0#32).setWidth 64 + (repeatGap x).setWidth 64 = BitVec.ofNat 64 x.P.repeatTime.toNat := by
  have hrt := x.P.repeatTime.isLt
  refine BitVec.eq_of_toNat_eq ?_
  rw [BitVec.toNat_add, BitVec.toNat_add, BitVec.toNat_setWidth, BitVec.toNat_setWidth, repeatGap_toNat,
    BitVec.toNat_ofNat, BitVec.toNat_ofNat]
  omega

/-- Settles O33: `expiryStop` for the last and for an earlier transmission, and `beginRepeat` for each kind of repeat. -/
theorem expiryBetweenTransmissions : Obligations.ExpiryBetweenTransmissions := by
  refine fun r => ⟨fun hs hrem hpd => ?_, fun hs hrem hpd => ?_, fun hs hrem hlt => ?_, fun hs hrem hge => ?_,
    fun hs hfast => ?_, fun hs hfull => ?_, fun hs => ?_⟩
  · rw [expiry_of_stop hs, expiryStop_of_last hrem]
    exact congrArg _ (if_pos hpd)
  · rw [expiry_of_stop hs, expiryStop_of_last hrem]
    exact congrArg _ (if_neg hpd)
  · rw [expiry_of_stop hs, expiryStop_of_more hrem, if_pos hlt]
    simp only [advance, withRem, elapsed_after_gap hlt]
    rfl
  · rw [expiry_of_stop hs, expiryStop_of_more hrem, if_neg (not_lt.2 hge), expiry_of_spaceTrailer rfl]
    rfl
  · have hfast : fastRepeats r.ses.P = true := hfast
    rw [expiry_of_spaceTrailer hs, beginRepeat_eq, if_pos hfast]
    simp only [advance, withElapsedZero, elapsed_of_pair]
  · have hfull : fastRepeats r.ses.P = false := hfull
    rw [expiry_of_spaceTrailer hs, beginRepeat_eq, if_neg (Bool.eq_false_iff.1 hfull)]
    simp only [advance, withElapsedZero, elapsed_of_pair]
  · simp only [expiry, hs, expiryMarkTrailer, emitStop]

end Sys2Proof.Machine
end

section
/-!
The family of 30_encoding.md: decoding and encoding are inverse to each other (R80 to R86), what is reserved (R86), and
the step that runs a decoded command (20_memory.md R73).
-/
namespace Sys2Proof.Machine
open Sys2Proof.Laws

/-! ## Words and fields (30_encoding.md R81, R83) -/

@[simp] theorem loHalf_append (hi lo : BitVec 16) : loHalf (hi ++ lo) = lo := BitVec.extractLsb'_append_eq_right

@[simp] theorem hiHalf_append (hi lo : BitVec 16) : hiHalf (hi ++ lo) = hi := BitVec.extractLsb'_append_eq_left

theorem hiHalf_append_loHalf (w : Word) : hiHalf w ++ loHalf w = w := by
  refine BitVec.eq_of_getLsbD_eq fun i hi => ?_
  rw [BitVec.getLsbD_append, loHalf, hiHalf, BitVec.getLsbD_extractLsb', BitVec.getLsbD_extractLsb']
  split
  case isTrue h => simp [h]
  case isFalse h =>
    rw [decide_eq_true (by omega), Bool.true_and, show 16 + (i - 16) = i by omega]

theorem opcodeField_append_immField (h : Word) : opcodeField h ++ immField h = h := by
  refine BitVec.eq_of_getLsbD_eq fun i hi => ?_
  rw [BitVec.getLsbD_append, immField, opcodeField, BitVec.getLsbD_extractLsb', BitVec.getLsbD_extractLsb']
  split
  case isTrue h => simp [h]
  case isFalse h =>
    rw [decide_eq_true (by omega), Bool.true_and, show 24 + (i - 24) = i by omega]

theorem coordOk_iff (v : Int) : coordOk v = true ↔ -32768 ≤ v ∧ v < 32768 := by simp [coordOk]

theorem toInt_ofInt_of_coordOk {v : Int} (h : coordOk v = true) : (BitVec.ofInt 16 v).toInt = v := by
  rw [coordOk_iff] at h
  rw [BitVec.toInt_ofInt, Int.bmod_def]
  omega

theorem coordOk_toInt (b : BitVec 16) : coordOk b.toInt = true := by
  have hlo := BitVec.le_toInt b
  have hhi := BitVec.toInt_lt (x := b)
  rw [coordOk_iff]
  omega

theorem pointOfWord_wordOfPoint {p : Point} (h : p.ok = true) : pointOfWord (wordOfPoint p) = p := by
  rw [Point.ok, Bool.and_eq_true] at h
  simp [pointOfWord, wordOfPoint, toInt_ofInt_of_coordOk h.1, toInt_ofInt_of_coordOk h.2]

theorem wordOfPoint_pointOfWord (w : Word) : wordOfPoint (pointOfWord w) = w := by
  simp [pointOfWord, wordOfPoint, hiHalf_append_loHalf]

theorem pointOfWord_ok (w : Word) : (pointOfWord w).ok = true := by
  simp [pointOfWord, Point.ok, coordOk_toInt]

theorem radiusOfWord_wordOfRadius {r : Int} (h : coordOk r = true) : radiusOfWord (wordOfRadius r) = r := by
  rw [radiusOfWord, wordOfRadius, loHalf_append, toInt_ofInt_of_coordOk h]

theorem wordOfRadius_radiusOfWord {w : Word} (h : hiHalf w = 0#16) : wordOfRadius (radiusOfWord w) = w := by
  rw [radiusOfWord, wordOfRadius, BitVec.ofInt_toInt, ← h, hiHalf_append_loHalf]

theorem sizeOfWord_wordOfSize {z : Size} (h : z.ok = true) : sizeOfWord (wordOfSize z) = z := by
  simp only [Size.ok, Bool.and_eq_true, decide_eq_true_eq] at h
  simp [sizeOfWord, wordOfSize, Nat.mod_eq_of_lt h.1, Nat.mod_eq_of_lt h.2]

theorem wordOfSize_sizeOfWord (w : Word) : wordOfSize (sizeOfWord w) = w := by
  simp [sizeOfWord, wordOfSize, hiHalf_append_loHalf]

theorem sizeOfWord_ok (w : Word) : (sizeOfWord w).ok = true := by
  simp [sizeOfWord, Size.ok, (loHalf w).isLt, (hiHalf w).isLt]

@[simp] theorem Rotation.ofCode_code (r : Rotation) : Rotation.ofCode r.code = r := by cases r <;> rfl
@[simp] theorem Rotation.code_ofCode (c : BitVec 2) : (Rotation.ofCode c).code = c := by revert c; decide
@[simp] theorem Mirror.ofCode_code (m : Mirror) : Mirror.ofCode m.code = m := by cases m <;> rfl
@[simp] theorem Mirror.code_ofCode (c : BitVec 2) : (Mirror.ofCode c).code = c := by revert c; decide
@[simp] theorem Colour.ofBit_bit (c : Colour) : Colour.ofBit c.bit = c := by cases c <;> rfl
@[simp] theorem Colour.bit_ofBit (b : BitVec 1) : (Colour.ofBit b).bit = b := by revert b; decide

/-- A field zero-extended to `imm` is read back whole (30_encoding.md R84). -/
theorem setWidth_setWidth_24 {k : Nat} (hk : k ≤ 24) (x : BitVec k) : (x.setWidth 24).setWidth k = x := by
  refine BitVec.eq_of_toNat_eq ?_
  rw [BitVec.toNat_setWidth, BitVec.toNat_setWidth_of_le hk, Nat.mod_eq_of_lt x.isLt]

/-- An immediate without reserved bits is its field (30_encoding.md R84, R86). -/
theorem setWidth_24_setWidth {k : Nat} (hk : k ≤ 24) {imm : BitVec 24} (h : imm.toNat < 2 ^ k) :
    (imm.setWidth k).setWidth 24 = imm := by
  refine BitVec.eq_of_toNat_eq ?_
  rw [BitVec.toNat_setWidth_of_le hk, BitVec.toNat_setWidth, Nat.mod_eq_of_lt h]

/-! ## Reserved bits (30_encoding.md R86) -/

theorem immReserved_iff (f : ImmForm) (imm : BitVec 24) : immReserved f imm = true ↔ 2 ^ f.width ≤ imm.toNat :=
  decide_eq_true_iff

theorem arg_cons_zero (w : Word) (ws : List Word) : arg (w :: ws) 0 = w := rfl

theorem arg_cons_succ (w : Word) (ws : List Word) (i : Nat) : arg (w :: ws) (i + 1) = arg ws i := rfl

/-- No form but RADIUS has reserved bits (30_encoding.md R83, R86). -/
theorem argsReserved_of_no_radius {fs : List ArgForm} (h : ∀ f ∈ fs, f ≠ .radius) (ws : List Word) :
    argsReserved fs ws = false := by
  induction fs generalizing ws with
  | nil => rfl
  | cons f fs ih =>
    obtain ⟨hf, hfs⟩ := List.forall_mem_cons.1 h
    cases ws with
    | nil => rfl
    | cons w ws =>
      rw [argsReserved, ih hfs, Bool.or_false]
      cases f with
      | radius => exact absurd rfl hf
      | _ => rfl

/-- Only the second argument word of the two circle commands has reserved bits (30_encoding.md R83, R85). -/
theorem argsReserved_iff (op : Op) {ws : List Word} (h : op.argc ≤ ws.length) :
    argsReserved op.argForms ws = true ↔
      (op = .fbDrawcircle ∨ op = .fbDrawopencircle) ∧ hiHalf (arg ws 1) ≠ 0#16 := by
  have hcircle : op = .fbDrawcircle ∨ op = .fbDrawopencircle →
      argsReserved op.argForms ws = (hiHalf (arg ws 1) != 0#16) := by
    intro hop
    obtain ⟨a, b, rest, rfl⟩ : ∃ a b rest, ws = a :: b :: rest := by
      have hlen : 2 ≤ ws.length := by rcases hop with rfl | rfl <;> exact h
      match ws, hlen with
      | a :: b :: rest, _ => exact ⟨a, b, rest, rfl⟩
    rcases hop with rfl | rfl <;>
      simp [Op.argForms, argsReserved, argReserved, arg_cons_succ, arg_cons_zero]
  have hother : ¬ (op = .fbDrawcircle ∨ op = .fbDrawopencircle) → argsReserved op.argForms ws = false := by
    intro hop
    refine argsReserved_of_no_radius ?_ ws
    cases op
    case fbDrawcircle => exact absurd (.inl rfl) hop
    case fbDrawopencircle => exact absurd (.inr rfl) hop
    all_goals decide
  by_cases hop : op = .fbDrawcircle ∨ op = .fbDrawopencircle
  · simp [hcircle hop, hop]
  · simp [hother hop, hop]

theorem argsReserved_append {fs : List ArgForm} {args : List Word} (rest : List Word)
    (h : args.length = fs.length) : argsReserved fs (args ++ rest) = argsReserved fs args := by
  induction fs generalizing args with
  | nil =>
    obtain rfl := List.eq_nil_of_length_eq_zero h
    rfl
  | cons f fs ih =>
    cases args with
    | nil => cases h
    | cons w ws => simp only [List.cons_append, argsReserved, ih (Nat.succ.inj h)]

/-! ## The decoder (30_encoding.md R80 to R87) -/

/-- What the port's next words are. -/
theorem decode_cases (h : Word) (ws : List Word) :
    (Op.ofByte? (opcodeField h) = none ∧ decode h ws = .illegalOpcode (opcodeField h) ws) ∨
    ∃ op, Op.ofByte? (opcodeField h) = some op ∧
      ((ws.length < op.argc ∧ decode h ws = .truncated op) ∨
       (op.argc ≤ ws.length ∧ (immReserved op.immForm (immField h) || argsReserved op.argForms ws) = true ∧
         decode h ws = .reservedBits op (ws.drop op.argc)) ∨
       (op.argc ≤ ws.length ∧ immReserved op.immForm (immField h) = false ∧ argsReserved op.argForms ws = false ∧
         decode h ws = .command (Instr.build op (immField h) (ws.take op.argc)) (ws.drop op.argc))) := by
  cases hop : Op.ofByte? (opcodeField h) with
  | none => exact .inl ⟨rfl, decode_of_ofByte?_eq_none hop ws⟩
  | some op =>
    refine .inr ⟨op, rfl, ?_⟩
    simp only [decode, hop]
    split
    case isTrue hlt => exact .inl ⟨hlt, rfl⟩
    case isFalse hlen =>
      refine .inr ?_
      split
      case isTrue hres => exact .inl ⟨not_lt.1 hlen, hres, rfl⟩
      case isFalse hres =>
        rw [Bool.or_eq_true, not_or, Bool.not_eq_true, Bool.not_eq_true] at hres
        exact .inr ⟨not_lt.1 hlen, hres.1, hres.2, rfl⟩

/-- Every command is its row of the opcode map (30_encoding.md R80 to R86). -/
theorem encodesItsRow (i : Instr) : EncodesItsRow.Statement i := by
  cases i with
  | irSetp => exact EncodesItsRow.irSetp _ _
  | irGetp => exact EncodesItsRow.irGetp _
  | irSend => exact EncodesItsRow.irSend _ _ _ _
  | irStatus => exact EncodesItsRow.irStatus
  | fbSetscale => exact EncodesItsRow.fbSetscale _
  | fbSetrotate => exact EncodesItsRow.fbSetrotate _
  | fbSetmirror => exact EncodesItsRow.fbSetmirror _
  | fbSetwritemode => exact EncodesItsRow.fbSetwritemode _
  | fbSetcolour => exact EncodesItsRow.fbSetcolour _
  | fbSetfont => exact EncodesItsRow.fbSetfont _
  | fbClear => exact EncodesItsRow.fbClear _
  | fbPaintpixel => exact EncodesItsRow.fbPaintpixel _ _
  | fbDrawline => exact EncodesItsRow.fbDrawline _ _
  | fbDrawrect => exact EncodesItsRow.fbDrawrect _ _
  | fbDrawopenrect => exact EncodesItsRow.fbDrawopenrect _ _
  | fbDrawcircle => exact EncodesItsRow.fbDrawcircle _ _
  | fbDrawopencircle => exact EncodesItsRow.fbDrawopencircle _ _
  | fbWriteimage => exact EncodesItsRow.fbWriteimage _ _ _
  | fbMoveto => exact EncodesItsRow.fbMoveto _
  | fbDrawchar => exact EncodesItsRow.fbDrawchar _
  | fbReadb => exact EncodesItsRow.fbReadb _
  | fbStatus => exact EncodesItsRow.fbStatus
  | fbGetcursor => exact EncodesItsRow.fbGetcursor
  | fbGetfont => exact EncodesItsRow.fbGetfont
  | fbGetsize => exact EncodesItsRow.fbGetsize

/-- The fields of a well-formed command build it again: no bit of an operand is dropped. -/
theorem build_of_wellFormed {i : Instr} (h : i.wellFormed = true) : Instr.build i.op i.imm i.args = i := by
  cases i <;> simp only [Instr.wellFormed, Bool.and_eq_true] at h <;>
    simp only [Instr.op, Instr.imm, Instr.args, Instr.build, arg_cons_zero, arg_cons_succ, setWidth_setWidth_24,
      Nat.reduceLeDiff, Rotation.ofCode_code, Mirror.ofCode_code, Colour.ofBit_bit, pointOfWord_wordOfPoint,
      radiusOfWord_wordOfRadius, sizeOfWord_wordOfSize, h]

/-- Settles O1: the header's fields and the argument words are read back, and `build_of_wellFormed`. -/
theorem decodeEncodeRoundTrip : Obligations.DecodeEncodeRoundTrip := by
  intro i rest hwf
  obtain ⟨hopcode, hlen, himm, hargs⟩ := encodesItsRow i
  rcases decode_cases i.header (i.args ++ rest) with ⟨hno, -⟩ | ⟨op, hop, hcase⟩
  · rw [hopcode, Op.ofByte?_byte] at hno
    cases hno
  · obtain rfl : i.op = op := by rw [hopcode, Op.ofByte?_byte] at hop; exact Option.some.inj hop
    rw [argsReserved_append rest hlen, hargs, himm] at hcase
    rcases hcase with ⟨hlt, -⟩ | ⟨-, hres, -⟩ | ⟨-, -, -, hdec⟩
    · rw [List.length_append, hlen] at hlt
      omega
    · cases hres
    · rw [hdec, List.take_left' hlen, List.drop_left' hlen, Instr.header, immField_headerWord, build_of_wellFormed hwf]

/-! ## The encoder on decoded words -/

@[simp] theorem build_op (op : Op) (imm : BitVec 24) (args : List Word) : (Instr.build op imm args).op = op := by
  cases op <;> rfl

/-- A built command is well-formed: a decoded operand fits its field. -/
theorem build_wellFormed (op : Op) (imm : BitVec 24) (args : List Word) :
    (Instr.build op imm args).wellFormed = true := by
  cases op <;> simp [Instr.build, Instr.wellFormed, pointOfWord_ok, sizeOfWord_ok, radiusOfWord, coordOk_toInt]

/-- An immediate field without reserved bits is the built command's. -/
theorem build_imm {op : Op} {imm : BitVec 24} (h : immReserved op.immForm imm = false) (args : List Word) :
    (Instr.build op imm args).imm = imm := by
  have hlt : imm.toNat < 2 ^ op.immForm.width := by
    by_contra hge
    rw [(immReserved_iff _ _).2 (not_lt.1 hge)] at h
    cases h
  have hnone : op.immForm = .none → 0#24 = imm := by
    intro hop
    rw [hop] at hlt
    refine BitVec.eq_of_toNat_eq ?_
    rw [BitVec.toNat_ofNat]
    exact (Nat.lt_one_iff.1 hlt).symm
  cases op
  case irSend | irStatus | fbDrawline | fbDrawrect | fbDrawopenrect | fbDrawcircle | fbDrawopencircle | fbWriteimage |
      fbMoveto | fbReadb | fbStatus | fbGetcursor | fbGetfont | fbGetsize => exact hnone rfl
  all_goals
    simp only [Instr.build, Instr.imm, Rotation.code_ofCode, Mirror.code_ofCode, Colour.bit_ofBit]
    exact setWidth_24_setWidth (by decide) hlt

theorem eq_map_arg {n : Nat} {args : List Word} (h : args.length = n) : (List.range n).map (arg args) = args := by
  subst h
  refine List.ext_getElem (by simp) fun i h1 h2 => ?_
  simp [arg, List.getD_eq_getElem?_getD, h2]

/-- Argument words without reserved bits are the built command's. -/
theorem build_args {op : Op} {args : List Word} (hlen : args.length = op.argc)
    (h : argsReserved op.argForms args = false) (imm : BitVec 24) : (Instr.build op imm args).args = args := by
  have hradius : op = .fbDrawcircle ∨ op = .fbDrawopencircle → hiHalf (arg args 1) = 0#16 := by
    intro hop
    by_contra hne
    rw [(argsReserved_iff op hlen.ge).2 ⟨hop, hne⟩] at h
    cases h
  refine Eq.trans ?_ (eq_map_arg hlen)
  cases op <;> simp only [reduceCtorEq, or_self, or_true, true_or, false_implies, true_implies] at hradius <;>
    simp [Op.argc, Op.argForms, List.range_succ, Instr.build, Instr.args, wordOfPoint_pointOfWord,
      wordOfSize_sizeOfWord, wordOfRadius_radiusOfWord, hradius]

/-- Settles O2: the header and the argument words are those of the built command. -/
theorem decodedCommandReencodes : Obligations.DecodedCommandReencodes := by
  intro h ws rest i hdec
  rcases decode_cases h ws with ⟨-, hd⟩ | ⟨op, hop, ⟨-, hd⟩ | ⟨-, -, hd⟩ | ⟨hlen, himm, hargs, hd⟩⟩ <;>
    rw [hd] at hdec
  · cases hdec
  · cases hdec
  · cases hdec
  · obtain ⟨rfl, rfl⟩ := Decoded.command.inj hdec
    have htake : (ws.take op.argc).length = op.argc := by rw [List.length_take]; omega
    have hargs' : argsReserved op.argForms (ws.take op.argc) = false := by
      rw [← hargs, ← argsReserved_append (ws.drop op.argc) htake, List.take_append_drop]
    refine ⟨?_, build_wellFormed _ _ _⟩
    rw [encode, Instr.header, headerWord, build_op, build_imm himm, build_args htake hargs', Op.byte_of_ofByte? hop,
      opcodeField_append_immField, List.cons_append, List.take_append_drop]

/-- Settles O3, by evaluation of the decoder on each word. -/
theorem decodesWordsOfTheSpec : Obligations.DecodesWordsOfTheSpec := by
  refine ⟨?_, ?_, ?_, ?_, ?_, ?_, ?_, ?_, ?_, ?_, ?_, ?_, ?_, ?_, ?_, ?_, ?_⟩ <;> decide

/-! ## The step that runs a command (20_memory.md R73) -/

theorem step_of_command {s : State} {h : Word} {ws rest : List Word} {i : Instr} (hp : s.port = h :: ws)
    (hd : decode h ws = .command i rest) : step s = exec i { s with port := rest } := by
  simp only [step, hp, hd]

theorem step_of_reservedBits {s : State} {h : Word} {ws rest : List Word} {op : Op} (hp : s.port = h :: ws)
    (hd : decode h ws = .reservedBits op rest) : step s = .next (reservedBits op { s with port := rest }) := by
  simp only [step, hp, hd]

theorem step_of_truncated {s : State} {h : Word} {ws : List Word} {op : Op} (hp : s.port = h :: ws)
    (hd : decode h ws = .truncated op) : step s = .refused (.truncatedCommand op.byte) := by
  simp only [step, hp, hd]

/-- Settles O4. -/
theorem stepRunsDecodedCommand : Obligations.StepRunsDecodedCommand :=
  fun _ _ _ _ _ hp hd => step_of_command hp hd

/-- A decoded command takes its own argument words only, whatever stands behind them. -/
theorem decode_take_append {h : Word} {ws rest : List Word} {op : Op} {i : Instr}
    (hop : Op.ofByte? (opcodeField h) = some op) (hd : decode h ws = .command i rest) (port : List Word) :
    decode h (ws.take op.argc ++ port) = .command i port := by
  obtain ⟨hwords, hwf⟩ := decodedCommandReencodes h ws rest i hd
  obtain ⟨rfl, rfl⟩ := List.cons.inj hwords
  obtain ⟨hopcode, hlen, -⟩ := encodesItsRow i
  rw [hopcode, Op.ofByte?_byte] at hop
  obtain rfl := Option.some.inj hop
  have htake : (i.args.append rest).take i.op.argc = i.args := List.take_left' hlen
  rw [htake]
  exact decodeEncodeRoundTrip i port hwf

/-- Settles O5: the placed words are the command's own, by `decode_take_append`. -/
theorem placedCommandRunsNext : Obligations.PlacedCommandRunsNext := by
  intro s nbits w i hi
  unfold decodeTableWord at hi
  cases hd : decode (tableWord nbits w 0) (tableArgs nbits w) with
  | command j rest =>
    obtain rfl : j = i := by rw [hd] at hi; exact Option.some.inj hi
    cases hop : Op.ofByte? (opcodeField (tableWord nbits w 0)) with
    | none =>
      rw [decode_of_ofByte?_eq_none hop] at hd
      cases hd
    | some op =>
      have hport : (s.withFetchWord nbits w).port =
          tableWord nbits w 0 :: ((tableArgs nbits w).take op.argc ++ s.port) := by
        rw [withFetchWord_port, tableCommand, hop]
        rfl
      exact step_of_command hport (decode_take_append hop hd s.port)
  | _ => rw [hd] at hi; cases hi

/-- Settles O7: `decode_cases` with `argsReserved_iff`. -/
theorem reservedBitsFault : Obligations.ReservedBitsFault := by
  intro s h ws op hrun hp hop hlen
  rw [← immReserved_iff, ← argsReserved_iff op hlen, ← Bool.or_eq_true]
  rcases decode_cases h ws with ⟨hno, -⟩ | ⟨op', hop', hcase⟩
  · rw [hop] at hno
    cases hno
  obtain rfl : op = op' := by rw [hop] at hop'; exact Option.some.inj hop'
  rcases hcase with ⟨hlt, -⟩ | ⟨-, hres, hd⟩ | ⟨-, himm, hargs, hd⟩
  · omega
  · refine ⟨fun _ => ?_, fun hno => absurd hres hno⟩
    rw [step_of_reservedBits hp hd]
    unfold reservedBits
    split
    · exact congrArg _ (if_neg (Bool.eq_false_iff.1 hrun))
    · exact congrArg _ (command_of_running hrun)
  · refine ⟨fun hres => ?_, fun _ => ⟨_, hd, build_op _ _ _⟩⟩
    rw [himm, hargs] at hres
    cases hres

/-- Settles O16: a tick by `Inv.tick`, the words of the port by `decode_cases`. -/
theorem invariantStepAnswersNext : Obligations.InvariantStepAnswersNext := by
  intro s hs
  cases hp : s.port with
  | nil =>
    refine .inl ?_
    rw [step_of_port_nil hp]
    by_cases hstill : (resetDue s || s.halted) = true
    · exact ⟨_, if_pos hstill⟩
    · rw [Bool.or_eq_true, not_or, Bool.not_eq_true, Bool.not_eq_true] at hstill
      obtain ⟨r, -, htick⟩ := hs.tick hstill.2 hstill.1
      exact ⟨_, htick⟩
  | cons h ws =>
    rcases decode_cases h ws with ⟨-, hd⟩ | ⟨op, hop, ⟨hlt, hd⟩ | ⟨-, -, hd⟩ | ⟨-, -, -, hd⟩⟩
    · exact .inl ⟨_, step_of_illegalOpcode hp hd⟩
    · exact .inr ⟨h, ws, op, rfl, hop, hlt, step_of_truncated hp hd⟩
    · exact .inl ⟨_, step_of_reservedBits hp hd⟩
    · refine .inl ?_
      rw [step_of_command hp hd]
      exact exec_answers_next _ _

end Sys2Proof.Machine
end

section
/-!
The family of 60_exceptions.md and 70_reset_and_hazards.md: the halted block (R302, R303), the way out of it (R313,
R340), and what no step writes (00_scope.md R7, 60_exceptions.md R319).
-/
namespace Sys2Proof.Machine

/-! ## The halted block (60_exceptions.md R303) -/

/-- Every command that is no query is `command` of its effect (60_exceptions.md R303). -/
theorem exec_of_command {i : Instr} (h : i.op.isQuery = false) :
    ∃ effect : State → State, ∀ s, exec i s = .next (command effect s) := by
  cases i
  case irGetp | irStatus | fbReadb | fbStatus | fbGetcursor | fbGetfont | fbGetsize => cases h
  all_goals exact ⟨_, fun _ => rfl⟩

theorem reservedBits_of_command {op : Op} (h : op.isQuery = false) (s : State) :
    reservedBits op s = command (enterFault .reservedBits op.byte) s := if_neg (Bool.eq_false_iff.1 h)

theorem reservedBits_of_query {op : Op} (h : op.isQuery = true) (s : State) :
    reservedBits op s = queryFault .reservedBits op.byte s := if_pos h

/-- Settles O8: each is `command` of an effect. -/
theorem haltedBlockIgnoresCommands : Obligations.HaltedBlockIgnoresCommands := by
  refine ⟨fun s i hhalt hcmd => ?_, fun s h ws rest hhalt hp hcase => ?_⟩
  · obtain ⟨effect, heffect⟩ := exec_of_command hcmd
    rw [heffect, command_of_halted hhalt]
  · have hhalt : ({ s with port := rest } : State).halted = true := hhalt
    rcases hcase with ⟨o, hd⟩ | ⟨op, hd, hcmd⟩
    · rw [step_of_illegalOpcode hp hd]
      exact congrArg _ (command_of_halted hhalt)
    · rw [step_of_reservedBits hp hd, reservedBits_of_command hcmd, command_of_halted hhalt]

theorem queryFault_of_halted {s : State} (h : s.halted = true) (c : FaultCode) (o : BitVec 8) :
    queryFault c o s = respond 0#32 s := if_pos h

theorem queryFault_of_running {s : State} (h : s.halted = false) (c : FaultCode) (o : BitVec 8) :
    queryFault c o s = enterFault c o s := if_neg (Bool.eq_false_iff.1 h)

/-- A halted query answers one word, whether it has a value or not. -/
theorem query_of_halted {s : State} (h : s.halted = true) (c : FaultCode) (o : BitVec 8) (v : Option Word) :
    query c o v s = respond (v.getD 0#32) s := by
  cases v with
  | none => exact queryFault_of_halted h c o
  | some w => rfl

theorem exec_irGetp (idx : BitVec 8) (s : State) :
    exec (.irGetp idx) s = .next (query .irBadRegister Op.irGetp.byte (irRead s.ire idx) s) := rfl

theorem exec_fbReadb (a : Word) (s : State) :
    exec (.fbReadb a) s = .next (query .fbBadArgument Op.fbReadb.byte (readbValue a s) s) := rfl

/-- Outside the buffer FB_READB has no value (42_fb_config.md R189). -/
theorem readbValue_eq_none {a : Word} {s : State} (h : bufSize s.params ≤ a.toNat) : readbValue a s = none :=
  if_neg (not_lt.2 h)

/-- Settles O9: the queries without a value by `query_of_halted`, the others always answer. -/
theorem haltedBlockAnswersQueries : Obligations.HaltedBlockAnswersQueries := by
  refine ⟨fun s i hhalt hquery => ?_, fun s idx hhalt hidx => ?_, fun s a hhalt ha => ?_,
    fun s h ws rest op hhalt hp hd hquery => ?_⟩
  · cases i
    case irGetp => exact ⟨_, by rw [exec_irGetp, query_of_halted hhalt]; rfl⟩
    case fbReadb => exact ⟨_, by rw [exec_fbReadb, query_of_halted hhalt]; rfl⟩
    case irStatus | fbStatus | fbGetcursor | fbGetfont | fbGetsize => exact ⟨_, rfl⟩
    all_goals cases hquery
  · rw [exec_irGetp, irRead_eq_none _ hidx, query_of_halted hhalt]
    rfl
  · rw [exec_fbReadb, readbValue_eq_none ha, query_of_halted hhalt]
    rfl
  · have hhalt : ({ s with port := rest } : State).halted = true := hhalt
    rw [step_of_reservedBits hp hd, reservedBits_of_query hquery, queryFault_of_halted hhalt]
    rfl

/-- A command writes nothing of a halted block but the host's responses. -/
theorem CommandEffect.of_halted {s t : State} (h : CommandEffect s t) (hhalt : s.halted = true) :
    t.fault = s.fault ∧ t.ire = s.ire ∧ t.fbr = s.fbr := by
  cases h with
  | ignored => exact ⟨rfl, rfl, rfl⟩
  | answered => exact ⟨rfl, rfl, rfl⟩
  | _ => simp_all

/-- Settles O10: a command by `CommandEffect.of_halted`, a tick by `tick_of_halted`; the pin is read off unit IRE. -/
theorem faultStaysUntilReset : Obligations.FaultStaysUntilReset := by
  intro s t hhalt hstep hhost
  have hkept : t.fault = s.fault ∧ t.ire = s.ire ∧ t.fbr = s.fbr := by
    rcases step_effect hstep with ⟨hp, htick⟩ | ⟨-, rest, hcmd⟩
    · have hreset : resetDue s = false := hhost.resolve_left fun hne => hne hp
      rw [tick_of_halted hreset hhalt] at htick
      obtain rfl := Host.Outcome.next.inj htick
      exact ⟨rfl, rfl, rfl⟩
    · exact hcmd.of_halted (s := { s with port := rest }) hhalt
  obtain ⟨hfault, hire, hfbr⟩ := hkept
  exact ⟨hfault, hire, hfbr, by rw [State.irEnv, State.irEnv, hire]⟩

/-! ## Reset (70_reset_and_hazards.md R340 to R343) -/

theorem tick_of_reset {s : State} (h : resetDue s = true) : tick s = .next (resetBlock s.atNextBoundary) := by
  rw [tick, h, Bool.true_or, if_pos rfl, nextBoundary_of_reset h]

/-- Settles O11: the tick is `resetBlock` at the next boundary. -/
theorem hostResetRestoresResetState : Obligations.HostResetRestoresResetState := by
  intro s d ds hp hin hd
  have hreset : resetDue s = true := by rw [resetDue, hin]; exact hd
  rw [step_of_port_nil hp, tick_of_reset hreset, atNextBoundary_of_port_nil hp, hin]
  rfl

/-- Settles O12, field by field; the two status words by evaluation. -/
theorem resetValues : Obligations.ResetValues := by
  have hbank : ∀ r, bankGet State.reset.ire.staging r = 0#32 ∧ bankGet State.reset.ire.ses.P r = 0#32 := by
    intro r
    cases r <;> exact ⟨rfl, rfl⟩
  exact ⟨rfl, rfl, rfl, hbank, rfl, rfl, rfl, rfl, rfl, rfl, rfl, rfl, rfl, rfl, rfl, rfl, rfl, rfl, rfl, rfl, rfl, rfl,
    rfl, rfl, rfl, rfl, rfl, rfl, rfl⟩

/-! ## What no step writes -/

theorem CommandEffect.params_outbox {s t : State} (h : CommandEffect s t) :
    t.params = s.params ∧ ∃ ws, t.outbox = s.outbox ++ ws := by
  cases h with
  | answered w => exact ⟨rfl, [w], rfl⟩
  | _ => exact ⟨rfl, [], (List.append_nil _).symm⟩

/-- Settles O19: no effect of a command or a tick writes the parameters; only a response writes the outbox. -/
theorem stepKeepsParameters : Obligations.StepKeepsParameters := by
  intro s t hstep
  rcases step_effect hstep with ⟨-, htick⟩ | ⟨-, rest, hcmd⟩
  · refine ⟨?_, [], ?_⟩ <;> rcases tick_effect htick with ⟨-, rfl⟩ | ⟨-, -, rfl⟩ | ⟨-, -, r, -, rfl⟩
    all_goals simp [State.atNextBoundary]
  · exact hcmd.params_outbox

end Sys2Proof.Machine
end

section
/-!
The units share no state but the port and FAULT (60_exceptions.md R319): a command of one unit neither writes nor reads
the state of the other, but for the generator a fault stops.
-/
namespace Sys2Proof.Machine

/-- The block with another unit IRE. -/
def State.withIre (s : State) (r : Ire) : State := { s with ire := r }

/-- The block with another unit FBR. -/
def State.withFbr (s : State) (f : Fbr) : State := { s with fbr := f }

/-! ## Painting does not read unit IRE -/

theorem editBytes_withIre (s : State) (r : Ire) (f : Nat → Byte → Byte) (as : List Nat) (m : Memory) :
    editBytes (s.withIre r) f as m = editBytes s f as m := by
  induction as generalizing m with
  | nil => rfl
  | cons a as ih =>
    simp only [editBytes, ih]
    rfl

theorem editPoint_withIre (s : State) (r : Ire) (f : Byte → Nat → Byte → Byte) (p : Point) (m : Memory) :
    editPoint (s.withIre r) f p m = editPoint s f p m := by
  simp only [editPoint, editBytes_withIre]
  rfl

theorem editPoints_withIre (s : State) (r : Ire) (f : Byte → Nat → Byte → Byte) (ps : List Point) (m : Memory) :
    editPoints (s.withIre r) f ps m = editPoints s f ps m := by
  induction ps generalizing m with
  | nil => rfl
  | cons p ps ih => simp only [editPoints, editPoint_withIre, ih]

theorem paintSet_withIre (s : State) (r : Ire) (c : Colour) (S : List Point) (m : Memory) :
    paintSet (s.withIre r) c S m = paintSet s c S m := editPoints_withIre s r (paintByte s c) S.dedup m

theorem shapeBuf_withIre (sh : Shape) (s : State) (r : Ire) : shapeBuf sh (s.withIre r) = shapeBuf sh s := by
  have hfree : (s.withIre r).freePoints sh = s.freePoints sh := rfl
  have hedit : editPoints (s.withIre r) (freePixels s.freeCtr) (s.freePoints sh) =
      editPoints s (freePixels s.freeCtr) (s.freePoints sh) := funext fun m => editPoints_withIre s r _ _ m
  simp only [shapeBuf, paintSet_withIre, hfree]
  show ite _ _ (Option.bind _ (editPoints (s.withIre r) (freePixels s.freeCtr) _)) = _
  rw [hedit]
  rfl

theorem blitBuf_withIre (o : Point) (b : Bitmap) (s : State) (r : Ire) :
    blitBuf o b (s.withIre r) = blitBuf o b s := by
  have hset : ∀ c S, paintSet (s.withIre r) c S = paintSet s c S :=
    fun c S => funext fun m => paintSet_withIre s r c S m
  simp only [blitBuf, hset]
  rfl

/-! ## The commands of unit FBR -/

/-- Whatever unit IRE is, the effect writes unit FBR, the stamps and the responses alike, or faults alike. -/
def FbrOnly (effect : State → State) (s : State) : Prop :=
  (∃ f k out, ∀ r, effect (s.withIre r) = { s.withIre r with fbr := f, freeCtr := k, outbox := out }) ∨
  (s.halted = false ∧ ∃ c o, ∀ r, effect (s.withIre r) = enterFault c o (s.withIre r))

namespace FbrOnly
variable {s : State}

theorem of_unchanged {effect : State → State} (h : ∀ r, effect (s.withIre r) = s.withIre r) : FbrOnly effect s :=
  .inl ⟨s.fbr, s.freeCtr, s.outbox, h⟩

theorem of_register {effect : State → State}
    (h : ∀ r, effect (s.withIre r) = { s.withIre r with fbr := (effect s).fbr }) : FbrOnly effect s :=
  .inl ⟨(effect s).fbr, s.freeCtr, s.outbox, h⟩

theorem of_buffer {effect : State → State} (m : Memory)
    (h : ∀ r, effect (s.withIre r) = { s.withIre r with fbr := { s.fbr with buf := m } }) : FbrOnly effect s :=
  .inl ⟨{ s.fbr with buf := m }, s.freeCtr, s.outbox, h⟩

theorem of_respond {effect : State → State} (w : Word) (h : ∀ r, effect (s.withIre r) = respond w (s.withIre r)) :
    FbrOnly effect s := .inl ⟨s.fbr, s.freeCtr, s.outbox ++ [w], h⟩

theorem of_word (w : State → Word) (h : ∀ r, w (s.withIre r) = w s) : FbrOnly (fun s => respond (w s) s) s :=
  of_respond (w s) fun r => by rw [h]

theorem of_fault {effect : State → State} (hrun : s.halted = false) (c : FaultCode) (o : BitVec 8)
    (h : ∀ r, effect (s.withIre r) = enterFault c o (s.withIre r)) : FbrOnly effect s := .inr ⟨hrun, c, o, h⟩

theorem of_command {effect : State → State} (h : s.halted = false → FbrOnly effect s) :
    FbrOnly (command effect) s := by
  have hhalted : ∀ r, (s.withIre r).halted = s.halted := fun _ => rfl
  cases hs : s.halted with
  | true => exact of_unchanged fun r => command_of_halted ((hhalted r).trans hs)
  | false =>
    have heq : ∀ r, command effect (s.withIre r) = effect (s.withIre r) :=
      fun r => command_of_running ((hhalted r).trans hs)
    simpa only [FbrOnly, heq] using h hs

theorem of_setscale (hrun : s.halted = false) (v : BitVec 8) : FbrOnly (setscaleEffect v) s := by
  cases hv : Scale.ofValue? v with
  | none => exact of_fault hrun _ _ fun r => by rw [setscaleEffect, hv]
  | some k => exact of_register fun r => by rw [setscaleEffect, setscaleEffect, hv]; rfl

theorem of_setwritemode (hrun : s.halted = false) (v : BitVec 3) : FbrOnly (setwritemodeEffect v) s := by
  cases hv : WriteMode.ofCode? v with
  | none => exact of_fault hrun _ _ fun r => by rw [setwritemodeEffect, hv]
  | some k => exact of_register fun r => by rw [setwritemodeEffect, setwritemodeEffect, hv]; rfl

theorem of_paintpixel (c : Colour) (p : Point) : FbrOnly (paintpixelEffect c p) s := by
  obtain ⟨m, hset, -⟩ := paintSet_kept s c [p] (.refl s)
  refine of_buffer m fun r => ?_
  rw [paintpixelEffect, paintSet_withIre]
  show paintOutcome _ _ (paintSet s c [p] s.fbr.buf) _ = _
  rw [hset, paintOutcome_some]
  rfl

theorem of_paintShape (op : Op) (sh : Shape) : FbrOnly (paintShape op sh) s := by
  obtain ⟨m, hbuf, -⟩ := shapeBuf_kept sh s
  exact .inl ⟨{ s.fbr with buf := m }, shapeCtr sh s, s.outbox,
    fun r => paintShape_of_buf ((shapeBuf_withIre sh s r).trans hbuf) op⟩

theorem of_blit (hrun : s.halted = false) (op : Op) (o : Point) (b : Bitmap) : FbrOnly (blit op o b) s := by
  cases hb : b.inSource s.params with
  | false => exact of_fault hrun .fbSourceRange op.byte fun r => if_neg (Bool.eq_false_iff.1 hb)
  | true =>
    obtain ⟨m, hbuf, -⟩ := blitBuf_kept o b s
    refine of_buffer m fun r => (if_pos hb).trans ?_
    rw [blitBuf_withIre, hbuf, paintOutcome_some]
    rfl

theorem of_drawchar (hrun : s.halted = false) (code : BitVec 8) : FbrOnly (drawcharEffect code) s := by
  have hhalt : ∀ r, (s.withIre r).halted = false := fun _ => hrun
  have hglyph : ∀ r, fontGlyph (s.withIre r).params (s.withIre r).fbr.fontRef code =
      fontGlyph s.params s.fbr.fontRef code := fun _ => rfl
  cases hg : fontGlyph s.params s.fbr.fontRef code with
  | none => exact of_fault hrun _ _ fun r => by rw [drawcharEffect, hglyph, hg]
  | some g =>
    have heffect : ∀ r, drawcharEffect code (s.withIre r) =
        if (blit .fbDrawchar s.cursor (glyphBitmap g) (s.withIre r)).halted then
          blit .fbDrawchar s.cursor (glyphBitmap g) (s.withIre r)
        else advanceCursor g.w (blit .fbDrawchar s.cursor (glyphBitmap g) (s.withIre r)) := by
      intro r
      rw [drawcharEffect, hglyph, hg]
      rfl
    rcases of_blit hrun .fbDrawchar s.cursor (glyphBitmap g) with ⟨f, k, out, h⟩ | ⟨-, c, o, h⟩
    · refine .inl ⟨{ f with cursorX := f.cursorX + g.w }, k, out, fun r => ?_⟩
      rw [heffect, h, if_neg]
      · rfl
      · exact Bool.eq_false_iff.1 (hhalt r)
    · refine of_fault hrun c o fun r => ?_
      rw [heffect, h, if_pos (enterFault_halted _ _ _)]

theorem of_readb (a : Word) : FbrOnly (fun s => query .fbBadArgument Op.fbReadb.byte (readbValue a s) s) s := by
  have hvalue : ∀ r, readbValue a (s.withIre r) = readbValue a s := fun _ => rfl
  cases hv : readbValue a s with
  | some w => exact of_respond w fun r => by rw [hvalue, hv]; rfl
  | none =>
    cases hs : s.halted with
    | true => exact of_respond 0#32 fun r => by rw [hvalue, hv]; exact if_pos hs
    | false => exact of_fault hs _ _ fun r => by rw [hvalue, hv]; exact if_neg (Bool.eq_false_iff.1 hs)

end FbrOnly

/-- The mnemonics of unit IRE (30_encoding.md R85). -/
def IsIreOp (op : Op) : Prop := op = .irSetp ∨ op = .irGetp ∨ op = .irSend ∨ op = .irStatus

/-- A command of unit FBR leaves unit IRE alone, a fault's stop apart. -/
theorem exec_fbrOnly {i : Instr} (h : ¬ IsIreOp i.op) (s : State) :
    ∃ effect, (∀ s', exec i s' = .next (effect s')) ∧ FbrOnly effect s := by
  cases i
  case irSetp => exact absurd (.inl rfl) h
  case irGetp => exact absurd (.inr (.inl rfl)) h
  case irSend => exact absurd (.inr (.inr (.inl rfl))) h
  case irStatus => exact absurd (.inr (.inr (.inr rfl))) h
  case fbReadb => exact ⟨_, fun _ => rfl, .of_readb _⟩
  case fbStatus => exact ⟨_, fun _ => rfl, .of_word State.fbStatusWord fun _ => rfl⟩
  case fbGetcursor => exact ⟨_, fun _ => rfl, .of_word (fun s => s.fbr.cursorY ++ s.fbr.cursorX) fun _ => rfl⟩
  case fbGetfont => exact ⟨_, fun _ => rfl, .of_word (fun s => s.fbr.fontRef.setWidth 32) fun _ => rfl⟩
  case fbGetsize =>
    exact ⟨_, fun _ => rfl,
      .of_word (fun s => BitVec.ofNat 16 s.params.physH ++ BitVec.ofNat 16 s.params.physW) fun _ => rfl⟩
  all_goals refine ⟨_, fun _ => rfl, .of_command fun hrun => ?_⟩
  case fbSetscale => exact .of_setscale hrun _
  case fbSetwritemode => exact .of_setwritemode hrun _
  case fbPaintpixel => exact .of_paintpixel _ _
  case fbDrawline => exact .of_paintShape _ _
  case fbDrawrect => exact .of_paintShape _ _
  case fbDrawopenrect => exact .of_paintShape _ _
  case fbDrawcircle => exact .of_paintShape _ _
  case fbDrawopencircle => exact .of_paintShape _ _
  case fbWriteimage => exact .of_blit hrun _ _ _
  case fbDrawchar => exact .of_drawchar hrun _
  all_goals exact .of_register fun _ => rfl

/-! ## The commands of unit IRE -/

/-- Whatever unit FBR is, the effect does the same to the rest, and leaves unit FBR and the stamps alone. -/
def IreOnly (effect : State → State) (s : State) : Prop :=
  (effect s).fbr = s.fbr ∧ (effect s).freeCtr = s.freeCtr ∧ ∀ f, effect (s.withFbr f) = (effect s).withFbr f

theorem IreOnly.of_command {effect : State → State} {s : State} (h : IreOnly effect s) :
    IreOnly (command effect) s := by
  have hhalted : ∀ f, (s.withFbr f).halted = s.halted := fun _ => rfl
  cases hs : s.halted with
  | true =>
    rw [IreOnly, command_of_halted hs]
    exact ⟨rfl, rfl, fun f => command_of_halted ((hhalted f).trans hs)⟩
  | false =>
    rw [IreOnly, command_of_running hs]
    exact ⟨h.1, h.2.1, fun f => (command_of_running ((hhalted f).trans hs)).trans (h.2.2 f)⟩

theorem setpEffect_ireOnly (idx : BitVec 8) (v : Word) (s : State) : IreOnly (setpEffect idx v) s := by
  unfold IreOnly setpEffect
  split
  · exact ⟨rfl, rfl, fun _ => rfl⟩
  · split <;> exact ⟨rfl, rfl, fun _ => rfl⟩

theorem sendEffect_ireOnly (p1 p2 pd ovr : Word) (s : State) : IreOnly (sendEffect p1 p2 pd ovr) s := by
  cases hbusy : s.ire.ses.busy with
  | true =>
    have heq : ∀ f, sendEffect p1 p2 pd ovr (s.withFbr f) = _ := fun f => sendEffect_of_busy p1 p2 pd ovr hbusy
    rw [IreOnly, sendEffect_of_busy p1 p2 pd ovr hbusy]
    exact ⟨rfl, rfl, heq⟩
  | false =>
    cases hvalid : validate s.params s.ire.staging p1 with
    | error e =>
      rw [IreOnly, sendEffect_of_refused p2 pd ovr hbusy hvalid]
      exact ⟨rfl, rfl, fun f => sendEffect_of_refused (s := s.withFbr f) p2 pd ovr hbusy hvalid⟩
    | ok x =>
      obtain ⟨len, mark⟩ := x
      rw [IreOnly, sendEffect_of_accepted p2 pd ovr hbusy hvalid]
      exact ⟨rfl, rfl, fun f => sendEffect_of_accepted (s := s.withFbr f) p2 pd ovr hbusy hvalid⟩

theorem getp_ireOnly (idx : BitVec 8) (s : State) :
    IreOnly (fun s => query .irBadRegister Op.irGetp.byte (irRead s.ire idx) s) s := by
  have hread : ∀ f, irRead (s.withFbr f).ire idx = irRead s.ire idx := fun _ => rfl
  simp only [IreOnly, hread]
  cases irRead s.ire idx with
  | some w => exact ⟨rfl, rfl, fun _ => rfl⟩
  | none =>
    cases hs : s.halted with
    | true =>
      have hq : ∀ f, query .irBadRegister Op.irGetp.byte none (s.withFbr f) = respond 0#32 (s.withFbr f) :=
        fun f => queryFault_of_halted (s := s.withFbr f) hs _ _
      exact hq s.fbr ▸ ⟨rfl, rfl, hq⟩
    | false =>
      have hq : ∀ f, query .irBadRegister Op.irGetp.byte none (s.withFbr f) =
          enterFault .irBadRegister Op.irGetp.byte (s.withFbr f) :=
        fun f => queryFault_of_running (s := s.withFbr f) hs _ _
      exact hq s.fbr ▸ ⟨rfl, rfl, hq⟩

/-- A command of unit IRE leaves unit FBR alone. -/
theorem exec_ireOnly {i : Instr} (h : IsIreOp i.op) (s : State) :
    ∃ effect, (∀ s', exec i s' = .next (effect s')) ∧ IreOnly effect s := by
  cases i
  case irSetp => exact ⟨_, fun _ => rfl, (setpEffect_ireOnly _ _ s).of_command⟩
  case irGetp => exact ⟨_, fun _ => rfl, getp_ireOnly _ s⟩
  case irSend => exact ⟨_, fun _ => rfl, (sendEffect_ireOnly _ _ _ _ s).of_command⟩
  case irStatus => exact ⟨_, fun _ => rfl, rfl, rfl, fun _ => rfl⟩
  all_goals simp [IsIreOp, Instr.op] at h

/-- Settles O20: `exec_ireOnly` for the one unit, `exec_fbrOnly` for the other. -/
theorem unitsShareNoState : Obligations.UnitsShareNoState := by
  intro i s t hexec
  refine ⟨fun hire => ?_, fun hfbr => ?_⟩
  · obtain ⟨effect, heffect, hfbr, hctr, hindep⟩ := exec_ireOnly hire s
    obtain rfl := Host.Outcome.next.inj ((heffect s).symm.trans hexec)
    exact ⟨hfbr, hctr, fun f => (heffect _).trans (congrArg _ (hindep f))⟩
  · obtain ⟨effect, heffect, honly⟩ := exec_fbrOnly hfbr s
    obtain rfl := Host.Outcome.next.inj ((heffect s).symm.trans hexec)
    rcases honly with ⟨f, k, out, h⟩ | ⟨hrun, c, o, h⟩
    · have hs : effect s = { s with fbr := f, freeCtr := k, outbox := out } := h s.ire
      rw [hs]
      exact ⟨fun _ => rfl, fun hne => absurd rfl hne, fun r => ⟨_, (heffect _).trans (congrArg _ (h r)), rfl, rfl, rfl⟩⟩
    · have hs : effect s = enterFault c o s := h s.ire
      rw [hs]
      refine ⟨fun heq => ?_, fun _ => rfl, fun r => ⟨_, (heffect _).trans (congrArg _ (h r)), rfl, rfl, rfl⟩⟩
      rw [enterFault_halted, hrun] at heq
      cases heq

end Sys2Proof.Machine
end

section
/-!
The family of 42_fb_config.md: the setters (R180 to R185), FB_CLEAR and FB_MOVETO (R186 to R188), and the readback
commands (R189 to R193).
-/
namespace Sys2Proof.Machine

/-! ## Setters (42_fb_config.md section 1) -/

/-- Settles O35: each is `command` of one register's write. -/
theorem settersWriteOnlyTheirRegister : Obligations.SettersWriteOnlyTheirRegister := fun _ hrun =>
  ⟨fun _ => congrArg _ (command_of_running hrun), fun _ => congrArg _ (command_of_running hrun),
    fun _ => congrArg _ (command_of_running hrun), fun _ => congrArg _ (command_of_running hrun)⟩

theorem exec_fbSetscale_of_running (v : BitVec 8) {s : State} (hrun : s.halted = false) :
    exec (.fbSetscale v) s = .next (setscaleEffect v s) := congrArg _ (command_of_running hrun)

/-- The legal scales are 1, 2 and 4 (42_fb_config.md R180). -/
theorem Scale.ofValue?_cases (v : BitVec 8) :
    ((v.toNat = 1 ∨ v.toNat = 2 ∨ v.toNat = 4) ∧ ∃ k : Scale, Scale.ofValue? v = some k ∧ k.factor = v.toNat) ∨
    (¬ (v.toNat = 1 ∨ v.toNat = 2 ∨ v.toNat = 4) ∧ Scale.ofValue? v = none) := by
  unfold Scale.ofValue?
  split
  case h_1 h => exact .inl ⟨.inl h, .x1, rfl, h.symm⟩
  case h_2 h => exact .inl ⟨.inr (.inl h), .x2, rfl, h.symm⟩
  case h_3 h => exact .inl ⟨.inr (.inr h), .x4, rfl, h.symm⟩
  case h_4 h1 h2 h4 => exact .inr ⟨by simp only [imp_false] at h1 h2 h4; omega, rfl⟩

/-- Settles O36: the effect by the value's scale. -/
theorem setscaleLegalAndIllegal : Obligations.SetscaleLegalAndIllegal := by
  intro s v hrun
  rw [exec_fbSetscale_of_running v hrun, setscaleEffect]
  rcases Scale.ofValue?_cases v with ⟨hv, k, hk, hfactor⟩ | ⟨hv, hk⟩ <;> rw [hk]
  · exact ⟨fun _ => ⟨k, hfactor, rfl⟩, fun hno => absurd hv hno⟩
  · exact ⟨fun hyes => absurd hyes hv, fun _ => rfl⟩

theorem exec_fbSetwritemode_of_running (v : BitVec 3) {s : State} (hrun : s.halted = false) :
    exec (.fbSetwritemode v) s = .next (setwritemodeEffect v s) := congrArg _ (command_of_running hrun)

/-- The legal write modes are codes 0 to 4 (42_fb_config.md R183). -/
theorem WriteMode.ofCode?_cases (v : BitVec 3) :
    (v.toNat ≤ 4 ∧ ∃ m : WriteMode, WriteMode.ofCode? v = some m ∧ m.code = v) ∨
    (4 < v.toNat ∧ WriteMode.ofCode? v = none) := by
  have hcode : ∀ {w : BitVec 3}, v.toNat = w.toNat → w = v := fun h => (BitVec.eq_of_toNat_eq h).symm
  unfold WriteMode.ofCode?
  split
  case h_1 h => exact .inl ⟨by omega, .write, rfl, hcode h⟩
  case h_2 h => exact .inl ⟨by omega, .inverseWrite, rfl, hcode h⟩
  case h_3 h => exact .inl ⟨by omega, .or, rfl, hcode h⟩
  case h_4 h => exact .inl ⟨by omega, .xor, rfl, hcode h⟩
  case h_5 h => exact .inl ⟨by omega, .inverseAnd, rfl, hcode h⟩
  case h_6 h0 h1 h2 h3 h4 => exact .inr ⟨by simp only [imp_false] at h0 h1 h2 h3 h4; omega, rfl⟩

/-- Settles O37: the effect by the code's mode. -/
theorem setwritemodeLegalAndIllegal : Obligations.SetwritemodeLegalAndIllegal := by
  intro s v hrun
  rw [exec_fbSetwritemode_of_running v hrun, setwritemodeEffect]
  rcases WriteMode.ofCode?_cases v with ⟨hv, m, hm, hcode⟩ | ⟨hv, hm⟩ <;> rw [hm]
  · exact ⟨fun _ => ⟨m, hcode, rfl⟩, fun hno => absurd hno (not_lt.2 hv)⟩
  · exact ⟨fun hyes => absurd hv (not_lt.2 hyes), fun _ => rfl⟩

/-! ## Clear and cursor (42_fb_config.md section 2) -/

theorem colByte_eq (c : Colour) : colByte c = if c = .white then 0xFF#8 else 0x00#8 := by cases c <;> rfl

/-- Settles O38: the buffer is `memFill`, read byte by byte. -/
theorem clearFillsWholeBuffer : Obligations.ClearFillsWholeBuffer := by
  intro s c hrun
  refine ⟨memFill s.fbr.buf (bufSize s.params) (colByte c), congrArg _ (command_of_running hrun), fun a ha => ?_,
    fun a ha => ?_⟩
  · rw [bufByte_memFill, if_pos ha, colByte_eq]
  · rw [bufByte_memFill, if_neg (not_lt.2 ha)]
    rfl

/-- Settles O39: a sign-extended coordinate goes back into its 16 bits. -/
theorem movetoSetsCursor : Obligations.MovetoSetsCursor := by
  intro s w hrun
  refine congrArg _ ((command_of_running hrun).trans ?_)
  simp only [pointOfWord, BitVec.ofInt_toInt]
  rfl

/-! ## Readback (42_fb_config.md section 3) -/

theorem readbValue_of_lt {a : Word} {s : State} (h : a.toNat < bufSize s.params) :
    readbValue a s = some (BitVec.ofNat 32 (s.readByte a.toNat).toNat) := by
  rw [readbValue, if_pos h, BitVec.ofNat_toNat]

/-- Settles O40: the value of FB_READB below BUF_SIZE, and none above. -/
theorem readbAnswersStoredByte : Obligations.ReadbAnswersStoredByte := by
  refine fun s a => ⟨fun ha => ?_, fun ha hrun => ?_⟩
  · rw [exec_fbReadb, readbValue_of_lt ha]
    rfl
  · rw [exec_fbReadb, readbValue_eq_none ha]
    exact congrArg _ (queryFault_of_running hrun _ _)

theorem Params.size_le {p : Params} (h : p.wf = true) : p.physW ≤ 32767 ∧ p.physH ≤ 32767 := by
  simp only [Params.wf, Bool.and_eq_true, decide_eq_true_eq] at h
  omega

/-- Settles O42: the words are put together from their halves. -/
theorem cursorFontSizeAnswers : Obligations.CursorFontSizeAnswers := by
  refine fun s => ⟨⟨_, rfl, loHalf_append _ _, hiHalf_append _ _⟩, ⟨_, rfl, ?_, ?_⟩, ⟨_, rfl, fun hwf => ?_⟩⟩
  · refine BitVec.eq_of_getLsbD_eq fun i hi => ?_
    simp [hi, show i < 32 by omega]
  · refine BitVec.eq_of_getLsbD_eq fun i hi => ?_
    simp
  · obtain ⟨hw, hh⟩ := Params.size_le hwf
    have hlo := loHalf_append (BitVec.ofNat 16 s.params.physH) (BitVec.ofNat 16 s.params.physW)
    have hhi := hiHalf_append (BitVec.ofNat 16 s.params.physH) (BitVec.ofNat 16 s.params.physW)
    rw [loHalf] at hlo
    rw [hiHalf] at hhi
    rw [hlo, hhi, BitVec.toNat_ofNat, BitVec.toNat_ofNat]
    omega

end Sys2Proof.Machine
end

section
/-!
The family of 43_fb_pixel.md, continued: MAP (R213 to R219), PAINTSET as a function of its set (R225, R226), and
FB_PAINTPIXEL (R230).
-/
namespace Sys2Proof.Machine

/-! ## MAP (43_fb_pixel.md section 2) -/

/-- MAP is injective on the points it admits (43_fb_pixel.md R219). -/
theorem mapPoint_inj {s : State} {p q : Point} {u v : Nat} (hp : s.mapPoint p = some (u, v))
    (hq : s.mapPoint q = some (u, v)) : p = q := by
  have hp' := ((mapPoint_eq_some_iff s p u v).1 hp).2.2
  have hq' := ((mapPoint_eq_some_iff s q u v).1 hq).2.2
  exact rotatePoint_injective _ _ _ (mirrorPoint_injective _ _ _ (hp'.trans hq'.symm))

/-- Settles O45: `mapPoint_inj`, and the block's bounds on the canvas. -/
theorem mapInjectiveOnCanvas : Obligations.MapInjectiveOnCanvas := by
  intro s p q u v hp
  refine ⟨mapPoint_inj hp, fun px py hb => ?_⟩
  obtain ⟨hx0, hx1, hy0, hy1⟩ := hb
  obtain ⟨hu, hv⟩ := mapPoint_lt hp
  have hx := hx1.trans_le (block_right_le hu)
  have hy := hy1.trans_le (block_bottom_le hv)
  have hmem := ((mem_block_iff s u v _ _).2 ⟨px, py, hx0, hx1, hy0, hy1, rfl, rfl⟩).1
  exact ⟨hx, hy, hmem, pixAddr_lt_bufSize hx hy⟩

/-- A point that the rotation and the mirror bring to a canvas coordinate is mapped to it. -/
theorem mapPoint_of_eq {s : State} {p : Point} {u v : Nat} (hu : u < s.logicalW) (hv : v < s.logicalH)
    (h : mirrorPoint s.fbr.mirror s.logicalW s.logicalH (rotatePoint s.fbr.rotation s.logicalW s.logicalH p) =
      ⟨u, v⟩) : s.mapPoint p = some (u, v) :=
  (mapPoint_eq_some_iff s p u v).2 ⟨hu, hv, h⟩

/-- Settles O46: each rotation and each mirror on coordinates, by `mapPoint_of_eq`. -/
theorem mapRotationsAndMirrors : Obligations.MapRotationsAndMirrors := by
  intro s u v hu hv hm
  refine ⟨fun hr => ?_, fun hr => ?_, fun hr => ?_, fun hr => ?_, fun p hp => ?_, ?_⟩
  · exact mapPoint_of_eq hu hv (by simp only [hm, hr, mirrorPoint, rotatePoint])
  · refine mapPoint_of_eq hu hv ?_
    simp only [hm, hr, mirrorPoint, rotatePoint, Point.mk.injEq, and_true]
    omega
  · refine mapPoint_of_eq hu hv ?_
    simp only [hm, hr, mirrorPoint, rotatePoint, Point.mk.injEq]
    omega
  · refine mapPoint_of_eq hu hv ?_
    simp only [hm, hr, mirrorPoint, rotatePoint, Point.mk.injEq, true_and]
    omega
  · have hrot := ((mapPoint_eq_some_iff s p u v).1 hp).2.2
    simp only [hm, mirrorPoint] at hrot
    have hrotated : ∀ m : Mirror, mirrorPoint m s.logicalW s.logicalH
        (rotatePoint s.fbr.rotation s.logicalW s.logicalH p) = mirrorPoint m s.logicalW s.logicalH ⟨u, v⟩ :=
      fun m => by rw [hrot]
    refine ⟨mapPoint_of_eq ?_ hv ((hrotated .x).trans ?_), mapPoint_of_eq hu ?_ ((hrotated .y).trans ?_),
      mapPoint_of_eq ?_ ?_ ((hrotated .origin).trans ?_)⟩
    · exact lt_of_le_of_lt (Nat.sub_le _ _) (Nat.sub_lt (Nat.zero_lt_of_lt hu) Nat.zero_lt_one)
    · simp only [mirrorPoint, Point.mk.injEq, and_true]; omega
    · exact lt_of_le_of_lt (Nat.sub_le _ _) (Nat.sub_lt (Nat.zero_lt_of_lt hv) Nat.zero_lt_one)
    · simp only [mirrorPoint, Point.mk.injEq, true_and]; omega
    · exact lt_of_le_of_lt (Nat.sub_le _ _) (Nat.sub_lt (Nat.zero_lt_of_lt hu) Nat.zero_lt_one)
    · exact lt_of_le_of_lt (Nat.sub_le _ _) (Nat.sub_lt (Nat.zero_lt_of_lt hv) Nat.zero_lt_one)
    · simp only [mirrorPoint, Point.mk.injEq]; omega
  · refine mapPoint_of_eq hu hv ?_
    show mirrorPoint .origin s.logicalW s.logicalH (rotatePoint .rotate180 s.logicalW s.logicalH ⟨u, v⟩) = _
    simp only [mirrorPoint, rotatePoint, Point.mk.injEq]
    omega

/-! ## PAINTSET and its set (43_fb_pixel.md R225, R226) -/

/-- Byte `a` holds a row of the block of the logical point `p`. -/
def State.touches (s : State) (p : Point) (a : Nat) : Prop :=
  ∃ u v, s.mapPoint p = some (u, v) ∧ a ∈ s.blockAddrs u v

/-- From `m` to `m'` exactly the bytes of `A` are written: they hold a byte then, and every other is as it was. -/
structure WritesExactly (A : Nat → Prop) (m m' : Memory) : Prop where
  written : ∀ a, A a → (memLookup m' a).isSome = true
  kept : ∀ a, ¬ A a → memLookup m' a = memLookup m a

/-- What two writes after each other write. -/
theorem WritesExactly.trans {A B : Nat → Prop} {m m' m'' : Memory} (h : WritesExactly A m m')
    (h' : WritesExactly B m' m'') : WritesExactly (fun a => A a ∨ B a) m m'' where
  written a hab := by
    by_cases hb : B a
    · exact h'.written a hb
    · rw [h'.kept a hb]
      exact h.written a (hab.resolve_right hb)
  kept a hab := (h'.kept a fun hb => hab (.inr hb)).trans (h.kept a fun ha => hab (.inl ha))

theorem WritesExactly.congr {A B : Nat → Prop} {m m' : Memory} (h : WritesExactly A m m') (hab : ∀ a, A a ↔ B a) :
    WritesExactly B m m' :=
  ⟨fun a hb => h.written a ((hab a).2 hb), fun a hb => h.kept a fun ha => hb ((hab a).1 ha)⟩

theorem memWrite_writesExactly (m : Memory) (a : Nat) (v : Byte) : WritesExactly (· = a) m (memWrite m a v) where
  written b hb := by rw [hb, memLookup_memWrite_self]; rfl
  kept _ hb := memLookup_memWrite_of_ne m v hb

theorem editBytes_writesExactly {s : State} {f : Nat → Byte → Byte} {as : List Nat} {m m' : Memory}
    (h : editBytes s f as m = some m') : WritesExactly (· ∈ as) m m' := by
  induction as generalizing m with
  | nil =>
    obtain rfl := Option.some.inj h
    exact ⟨nofun, fun _ _ => rfl⟩
  | cons a as ih =>
    rw [editBytes] at h
    by_cases ha : a < bufSize s.params
    · simp only [bufWrite?, if_pos ha] at h
      exact ((memWrite_writesExactly m a _).trans (ih h)).congr fun b => List.mem_cons.symm
    · simp only [bufWrite?, if_neg ha] at h
      cases h

theorem editPoint_writesExactly {s : State} {f : Byte → Nat → Byte → Byte} {p : Point} {m m' : Memory}
    (h : editPoint s f p m = some m') : WritesExactly (s.touches p) m m' := by
  unfold editPoint at h
  cases hp : s.mapPoint p with
  | none =>
    rw [hp] at h
    obtain rfl := Option.some.inj h
    exact ⟨fun a ⟨u, v, hm, _⟩ => by rw [hp] at hm; (cases hm), fun _ _ => rfl⟩
  | some uv =>
    rw [hp] at h
    refine (editBytes_writesExactly h).congr fun a => ⟨fun ha => ⟨_, _, hp, ha⟩, fun ⟨u, v, hm, ha⟩ => ?_⟩
    obtain rfl := Option.some.inj (hp.symm.trans hm)
    exact ha

theorem editPoints_writesExactly {s : State} {f : Byte → Nat → Byte → Byte} {ps : List Point} {m m' : Memory}
    (h : editPoints s f ps m = some m') : WritesExactly (fun a => ∃ p ∈ ps, s.touches p a) m m' := by
  induction ps generalizing m with
  | nil =>
    obtain rfl := Option.some.inj h
    exact ⟨nofun, fun _ _ => rfl⟩
  | cons p ps ih =>
    rw [editPoints] at h
    cases hp : editPoint s f p m with
    | none => rw [hp] at h; cases h
    | some m1 =>
      rw [hp] at h
      exact ((editPoint_writesExactly hp).trans (ih h)).congr fun a => by simp

theorem memLookup_of_isSome {m : Memory} {a : Nat} (h : (memLookup m a).isSome = true) (stamp : Nat) :
    memLookup m a = some (bufByte stamp m a) := by
  obtain ⟨b, hb⟩ := Option.isSome_iff_exists.1 h
  rw [bufByte, hb]
  rfl

/-- Settles O47: both results are canonical, write the same bytes, and combine the same bits. -/
theorem paintsetIgnoresOrder : Obligations.PaintsetIgnoresOrder := by
  intro s c S S' hwf hsame
  obtain ⟨m, hset, hbits, -, hwf1, -⟩ := paintSet_spec s c S s.fbr.buf
  obtain ⟨m', hset', hbits', -, hwf2, -⟩ := paintSet_spec s c S' s.fbr.buf
  have hwrites := editPoints_writesExactly hset
  have hwrites' := editPoints_writesExactly hset'
  simp only [List.mem_dedup] at hwrites hwrites'
  simp only [← hsame] at hwrites' hbits'
  rw [hset, hset']
  refine congrArg some (memory_ext (hwf1 hwf) (hwf2 hwf) fun a => ?_)
  by_cases ha : ∃ p ∈ S, s.touches p a
  · rw [memLookup_of_isSome (hwrites.written a ha) s.bufStamp, memLookup_of_isSome (hwrites'.written a ha) s.bufStamp]
    refine congrArg some (BitVec.eq_of_getLsbD_eq fun i hi => ?_)
    by_cases hc : ∃ p ∈ S, s.covers p a i
    · rw [(hbits a i hi).1 hc, (hbits' a i hi).1 hc]
    · rw [(hbits a i hi).2 hc, (hbits' a i hi).2 hc]
  · rw [hwrites.kept a ha, hwrites'.kept a ha]

/-! ## FB_PAINTPIXEL (43_fb_pixel.md R230) -/

/-- The painted points are the same when the predicate is. -/
theorem Paints.congr {s : State} {m : Memory} {S S' : Point → Colour → Prop} (h : Paints s m S)
    (hsame : ∀ p c, S p c ↔ S' p c) : Paints s m S' := by
  obtain rfl : S = S' := funext fun p => funext fun c => propext (hsame p c)
  exact h

/-- Settles O49: PAINTSET of the one point; a clipped point leaves the very buffer. -/
theorem paintpixelPaintsOneBlock : Obligations.PaintpixelPaintsOneBlock := by
  intro s c p hrun
  obtain ⟨m, hset, hpaints⟩ := paintSet_paints s c [p]
  refine ⟨m, ?_, hpaints.congr fun q d => by rw [List.mem_singleton], fun hclip => ?_⟩
  · refine congrArg _ ((command_of_running hrun).trans ?_)
    rw [paintpixelEffect, hset, paintOutcome_some]
  · have hdedup : [p].dedup = [p] := List.dedup_eq_self.2 (List.nodup_singleton p)
    have hnone : paintSet s c [p] s.fbr.buf = some s.fbr.buf := by
      simp only [paintSet, hdedup, editPoints, editPoint, hclip]
    exact Option.some.inj (hset.symm.trans hnone)

end Sys2Proof.Machine
end

section
/-!
The family of 44_fb_shapes.md and 45_fb_blit.md: the shapes as sets of points, and what each drawing command paints.
-/
namespace Sys2Proof.Machine

/-! ## Shapes without free pixels (43_fb_pixel.md R225) -/

theorem freePoints_of_no_repeated {sh : Shape} (h : sh.repeated = []) (s : State) : s.freePoints sh = [] := by
  rw [State.freePoints, h, List.dedup_nil, ite_self]

theorem freePoints_of_set {s : State} (h : ¬ (s.fbr.writeMode = .xor ∧ s.params.xorMult = .unspecified))
    (sh : Shape) : s.freePoints sh = [] := if_neg h

/-- What a drawing command without free pixels does to a running block. -/
theorem paintShape_command {op : Op} {sh : Shape} {s : State} (hrun : s.halted = false) (h : s.freePoints sh = []) :
    ∃ m, Host.Outcome.next (φ := Fault) (ρ := Refusal) (command (paintShape op sh) s) =
        .next { s with fbr := { s.fbr with buf := m } } ∧
      paintSet s s.fbr.colour sh.pts s.fbr.buf = some m ∧
      Paints s m fun q d => q ∈ sh.pts ∧ d = s.fbr.colour := by
  obtain ⟨m, hset, hpaints⟩ := paintSet_paints s s.fbr.colour sh.pts
  have hbuf : shapeBuf sh s = some m := (if_pos h).trans hset
  refine ⟨m, congrArg _ ((command_of_running hrun).trans ?_), hset, hpaints⟩
  rw [paintShape_of_buf hbuf, shapeCtr, if_pos h]

/-- An empty set paints nothing. -/
theorem paintSet_nil (s : State) (c : Colour) (m : Memory) : paintSet s c [] m = some m := rfl

/-- Settles O50: the shape of a line is LINESET, without free pixels. -/
theorem drawlinePaintsLineset : Obligations.DrawlinePaintsLineset := by
  intro s p0 p1 hrun
  obtain ⟨m, hexec, -, hpaints⟩ := paintShape_command (op := .fbDrawline) hrun
    (freePoints_of_no_repeated (sh := lineShape p0 p1) rfl s)
  exact ⟨m, hexec, hpaints⟩

/-! ## Rectangles (44_fb_shapes.md section 2) -/

/-- The points of FB_DRAWRECT are the box between its corners (44_fb_shapes.md R250). -/
theorem mem_rectShape (p0 p1 q : Point) :
    q ∈ (rectShape p0 p1).pts ↔ min p0.x p1.x ≤ q.x ∧ q.x ≤ max p0.x p1.x ∧ min p0.y p1.y ≤ q.y ∧
      q.y ≤ max p0.y p1.y := by
  simp only [rectShape, List.mem_flatMap, mem_intRange, mem_lineSet_of_row]
  constructor
  · rintro ⟨y, hy, rfl, hx⟩
    omega
  · rintro ⟨hx0, hx1, hy⟩
    exact ⟨q.y, hy, rfl, by omega⟩

/-- Settles O53: `mem_rectShape`, without free pixels. -/
theorem drawrectPaintsBox : Obligations.DrawrectPaintsBox := by
  intro s p0 p1 hrun
  obtain ⟨m, hexec, -, hpaints⟩ := paintShape_command (op := .fbDrawrect) hrun
    (freePoints_of_no_repeated (sh := rectShape p0 p1) rfl s)
  exact ⟨m, hexec, hpaints.congr fun q d => by rw [mem_rectShape, and_comm]⟩

/-- The points of FB_DRAWOPENRECT are the box's outline (44_fb_shapes.md R251). -/
theorem mem_openrectPoints (p0 p1 q : Point) :
    q ∈ openrectPoints p0 p1 ↔ min p0.x p1.x ≤ q.x ∧ q.x ≤ max p0.x p1.x ∧ min p0.y p1.y ≤ q.y ∧
      q.y ≤ max p0.y p1.y ∧ (q.x = p0.x ∨ q.x = p1.x ∨ q.y = p0.y ∨ q.y = p1.y) := by
  simp only [openrectPoints, List.mem_append, mem_lineSet_of_row, mem_lineSet_of_column]
  omega

/-- Settles O54: `mem_openrectPoints`, without free pixels. -/
theorem drawopenrectPaintsOutline : Obligations.DrawopenrectPaintsOutline := by
  intro s p0 p1 hrun hmode
  obtain ⟨m, hexec, -, hpaints⟩ := paintShape_command (op := .fbDrawopenrect) hrun
    (freePoints_of_set hmode (openrectShape p0 p1))
  refine ⟨m, hexec, hpaints.congr fun q d => ?_⟩
  show q ∈ openrectPoints p0 p1 ∧ _ ↔ _
  rw [mem_openrectPoints, and_comm]

/-! ## Circles (44_fb_shapes.md section 3) -/

/-- The steps of MIDPOINT lie in the octant `0 ≤ y ≤ x ≤ r` (44_fb_shapes.md R260). -/
theorem midpointSteps_octant (fuel : Nat) {x y d : Int} (hy : 0 ≤ y) {q : Point}
    (h : q ∈ midpointSteps fuel x y d) : y ≤ q.y ∧ q.y ≤ q.x ∧ q.x ≤ x := by
  induction fuel generalizing x y d with
  | zero => cases h
  | succ fuel ih =>
    rw [midpointSteps] at h
    split at h
    case isTrue => cases h
    case isFalse hxy =>
      rcases List.mem_cons.1 h with rfl | h
      · dsimp only
        omega
      · split at h
        case isTrue =>
          have := ih (by omega) h
          omega
        case isFalse =>
          have := ih (by omega) h
          omega

theorem mem_midpoint_octant {r : Int} {q : Point} (h : q ∈ midpoint r) : 0 ≤ q.y ∧ q.y ≤ q.x ∧ q.x ≤ r :=
  midpointSteps_octant _ (Int.le_refl 0) h

/-- A negative radius has no step. -/
theorem midpoint_of_neg {r : Int} (h : r < 0) : midpoint r = [] := by
  rw [midpoint, midpointSteps, if_pos h]

/-- The first step of MIDPOINT is `(r, 0)`. -/
theorem first_mem_midpoint {r : Int} (h : 0 ≤ r) : (⟨r, 0⟩ : Point) ∈ midpoint r := by
  rw [midpoint, midpointSteps, if_neg (not_lt.2 h)]
  exact List.mem_cons_self

/-- For radius 0 that is the only one. -/
theorem midpoint_zero : midpoint 0 = [⟨0, 0⟩] := by decide

/-- A point is symmetric to an octant step when its distances from the centre are the step's coordinates. -/
theorem mem_octantPoints {c st q : Point} (hx : 0 ≤ st.x) (hy : 0 ≤ st.y) :
    q ∈ octantPoints c st ↔
      (|q.x - c.x| = st.x ∧ |q.y - c.y| = st.y) ∨ (|q.x - c.x| = st.y ∧ |q.y - c.y| = st.x) := by
  obtain ⟨qx, qy⟩ := q
  simp only [octantPoints, List.mem_cons, List.not_mem_nil, or_false, Point.mk.injEq, abs_eq hx, abs_eq hy]
  omega

theorem mem_opencirclePoints {c q : Point} {r : Int} :
    q ∈ opencirclePoints c r ↔ ∃ st ∈ midpoint r,
      (|q.x - c.x| = st.x ∧ |q.y - c.y| = st.y) ∨ (|q.x - c.x| = st.y ∧ |q.y - c.y| = st.x) := by
  rw [opencirclePoints, List.mem_flatMap]
  refine exists_congr fun st => and_congr_right fun hst => ?_
  obtain ⟨hy, hyx, -⟩ := mem_midpoint_octant hst
  exact mem_octantPoints (by omega) hy

/-- Settles O55: `mem_opencirclePoints`, without free pixels. -/
theorem drawopencirclePaintsOctants : Obligations.DrawopencirclePaintsOctants := by
  intro s c r hrun hmode
  obtain ⟨m, hexec, hset, hpaints⟩ := paintShape_command (op := .fbDrawopencircle) hrun
    (freePoints_of_set hmode (opencircleShape c r))
  refine ⟨m, hexec, hpaints.congr fun q d => ?_, fun hneg => ?_⟩
  · show q ∈ opencirclePoints c r ∧ _ ↔ _
    rw [mem_opencirclePoints, and_comm]
  · have hnone : opencirclePoints c r = [] := by rw [opencirclePoints, midpoint_of_neg hneg]; rfl
    change paintSet s s.fbr.colour (opencirclePoints c r) s.fbr.buf = some m at hset
    rw [hnone, paintSet_nil] at hset
    exact (Option.some.inj hset).symm

/-- A fill row is the row's points within its half width (44_fb_shapes.md R262). -/
theorem mem_fillRowPoints {c q : Point} {y half : Int} (h : 0 ≤ half) :
    q ∈ fillRowPoints c ⟨y, half⟩ ↔ q.y = y ∧ |q.x - c.x| ≤ half := by
  refine (mem_lineSet_of_row (p0 := ⟨c.x - half, y⟩) (p1 := ⟨c.x + half, y⟩) rfl q).trans ?_
  rw [abs_le]
  dsimp only
  omega

/-- A point is on a fill row of an octant step when it is between symmetric points. -/
theorem mem_octantRows {c st q : Point} (hx : 0 ≤ st.x) (hy : 0 ≤ st.y) :
    (∃ w ∈ octantRows c st, q ∈ fillRowPoints c w) ↔
      (|q.x - c.x| ≤ st.x ∧ |q.y - c.y| = st.y) ∨ (|q.x - c.x| ≤ st.y ∧ |q.y - c.y| = st.x) := by
  simp only [octantRows, List.mem_cons, exists_eq_or_imp, List.not_mem_nil, or_false, exists_eq_left,
    mem_fillRowPoints hx, mem_fillRowPoints hy, abs_eq hx, abs_eq hy]
  omega

theorem mem_circlePoints {c q : Point} {r : Int} :
    q ∈ circlePoints c r ↔ ∃ st ∈ midpoint r,
      (|q.x - c.x| ≤ st.x ∧ |q.y - c.y| = st.y) ∨ (|q.x - c.x| ≤ st.y ∧ |q.y - c.y| = st.x) := by
  rw [circlePoints, circleRows, List.flatMap_assoc, List.mem_flatMap]
  refine exists_congr fun st => and_congr_right fun hst => ?_
  obtain ⟨hy, hyx, -⟩ := mem_midpoint_octant hst
  rw [List.mem_flatMap]
  exact mem_octantRows (by omega) hy

/-- Settles O56: `mem_circlePoints`, without free pixels. -/
theorem drawcirclePaintsRows : Obligations.DrawcirclePaintsRows := by
  intro s c r hrun hmode
  obtain ⟨m, hexec, hset, hpaints⟩ := paintShape_command (op := .fbDrawcircle) hrun
    (freePoints_of_set hmode (circleShape c r))
  refine ⟨m, hexec, hpaints.congr fun q d => ?_, fun hneg => ?_⟩
  · show q ∈ circlePoints c r ∧ _ ↔ _
    rw [mem_circlePoints, and_comm]
  · have hnone : circlePoints c r = [] := by rw [circlePoints, circleRows, midpoint_of_neg hneg]; rfl
    change paintSet s s.fbr.colour (circlePoints c r) s.fbr.buf = some m at hset
    rw [hnone, paintSet_nil] at hset
    exact (Option.some.inj hset).symm

/-! ## The circle sets of every radius (44_fb_shapes.md R263) -/

/-- One step of the loop of MIDPOINT: the next step is one higher, and at most one nearer. -/
theorem midpointSteps_succ {fuel : Nat} {x y : Int} (d : Int) (h : y ≤ x) :
    ∃ x' d', (x' = x ∨ x' = x - 1) ∧
      midpointSteps (fuel + 1) x y d = ⟨x, y⟩ :: midpointSteps fuel x' (y + 1) d' := by
  rw [midpointSteps, if_neg (not_lt.2 h)]
  split
  case isTrue => exact ⟨x, _, .inl rfl, rfl⟩
  case isFalse => exact ⟨x - 1, _, .inr rfl, rfl⟩

/-- Only the first step has the first y coordinate. -/
theorem eq_of_mem_midpointSteps (fuel : Nat) {x y d : Int} {q : Point} (hy : 0 ≤ y) (hxy : y ≤ x)
    (h : q ∈ midpointSteps fuel x y d) (hqy : q.y = y) : q = ⟨x, y⟩ := by
  cases fuel with
  | zero => cases h
  | succ fuel =>
    obtain ⟨x', d', -, heq⟩ := midpointSteps_succ (fuel := fuel) d hxy
    rw [heq] at h
    rcases List.mem_cons.1 h with rfl | h
    · rfl
    · have := midpointSteps_octant fuel (by omega) h
      omega

/-- Every y coordinate below a step's is a step's, of no smaller x coordinate. -/
theorem exists_midpointSteps_below (fuel : Nat) {x y d k : Int} {q : Point} (hy : 0 ≤ y)
    (h : q ∈ midpointSteps fuel x y d) (hk : y ≤ k) (hkq : k ≤ q.y) :
    ∃ p ∈ midpointSteps fuel x y d, p.y = k ∧ q.x ≤ p.x := by
  have hq := midpointSteps_octant fuel hy h
  induction fuel generalizing x y d with
  | zero => cases h
  | succ fuel ih =>
    obtain ⟨x', d', -, heq⟩ := midpointSteps_succ (fuel := fuel) d (show y ≤ x by omega)
    rw [heq] at h ⊢
    by_cases hky : k = y
    · exact ⟨_, List.mem_cons_self, hky.symm, hq.2.2⟩
    · rcases List.mem_cons.1 h with rfl | h
      · exact absurd hkq (by dsimp only; omega)
      · obtain ⟨p, hp, hpq⟩ := ih (by omega) h (by omega) (midpointSteps_octant fuel (by omega) h)
        exact ⟨p, List.mem_cons_of_mem _ hp, hpq⟩

/-- Every coordinate between a step's two is a coordinate of a step that is no lower: the loop ends on the diagonal,
and neither coordinate leaps. -/
theorem exists_midpointSteps_between (fuel : Nat) {x y d k : Int} (hfuel : x - y + 1 ≤ fuel) (hk : y ≤ k)
    (hkx : k ≤ x) : ∃ p ∈ midpointSteps fuel x y d, (p.y = k ∨ p.x = k) ∧ y ≤ p.y := by
  induction fuel generalizing x y d with
  | zero => omega
  | succ fuel ih =>
    obtain ⟨x', d', hx', heq⟩ := midpointSteps_succ (fuel := fuel) d (hk.trans hkx)
    rw [heq]
    by_cases hend : k = y ∨ k = x
    · exact ⟨_, List.mem_cons_self, hend.imp Eq.symm Eq.symm, le_rfl⟩
    · obtain ⟨p, hp, hpk, hpy⟩ := ih (x := x') (y := y + 1) (d := d') (by omega) (by omega) (by omega)
      exact ⟨p, List.mem_cons_of_mem _ hp, hpk, by omega⟩

/-- The same from any step on. -/
theorem exists_midpointSteps_between_of_mem (fuel : Nat) {x y d k : Int} {q : Point} (hfuel : x - y + 1 ≤ fuel)
    (hy : 0 ≤ y) (h : q ∈ midpointSteps fuel x y d) (hk : q.y ≤ k) (hkx : k ≤ q.x) :
    ∃ p ∈ midpointSteps fuel x y d, (p.y = k ∨ p.x = k) ∧ q.y ≤ p.y := by
  have hq := midpointSteps_octant fuel hy h
  induction fuel generalizing x y d with
  | zero => cases h
  | succ fuel ih =>
    have hxy : y ≤ x := by omega
    obtain ⟨x', d', hx', heq⟩ := midpointSteps_succ (fuel := fuel) d hxy
    by_cases hhead : q = ⟨x, y⟩
    · subst hhead
      exact exists_midpointSteps_between (fuel + 1) hfuel hk hkx
    · rw [heq] at h ⊢
      have h := (List.mem_cons.1 h).resolve_left hhead
      obtain ⟨p, hp, hpq⟩ := ih (by omega) (by omega) h (midpointSteps_octant fuel (by omega) h)
      exact ⟨p, List.mem_cons_of_mem _ hp, hpq⟩

/-- The distances `A` and `B` from the centre, along x and along y, are those of a point of FB_DRAWCIRCLE. -/
def inDisc (r A B : Int) : Prop := ∃ st ∈ midpoint r, (A ≤ st.x ∧ B = st.y) ∨ (A ≤ st.y ∧ B = st.x)

/-- The axes of the disc may be swapped. -/
theorem inDisc_swap {r A B : Int} (hA : 0 ≤ A) (h : inDisc r A B) : inDisc r B A := by
  obtain ⟨st, hst, hAB⟩ := h
  have hoct := mem_midpoint_octant hst
  have hfuel : r - 0 + 1 ≤ ((r.toNat + 1 : Nat) : Int) := by omega
  rcases hAB with ⟨hAx, rfl⟩ | ⟨hAy, rfl⟩
  · rcases le_total A st.y with hle | hle
    · obtain ⟨p, hp, rfl, hpx⟩ := exists_midpointSteps_below _ le_rfl hst hA hle
      exact ⟨p, hp, .inl ⟨by omega, rfl⟩⟩
    · obtain ⟨p, hp, hpA | hpA, hpy⟩ := exists_midpointSteps_between_of_mem _ hfuel le_rfl hst hle hAx
      · have := mem_midpoint_octant hp
        exact ⟨p, hp, .inl ⟨by omega, hpA.symm⟩⟩
      · exact ⟨p, hp, .inr ⟨hpy, hpA.symm⟩⟩
  · obtain ⟨p, hp, rfl, hpx⟩ := exists_midpointSteps_below _ le_rfl hst hA hAy
    exact ⟨p, hp, .inl ⟨hpx, rfl⟩⟩

/-- The centre is no point of an outline of radius 1 or more: the step on the axis is `(r, 0)`. -/
theorem centre_not_mem_opencirclePoints (c : Point) {r : Int} (hr : 1 ≤ r) : c ∉ opencirclePoints c r := by
  rw [mem_opencirclePoints]
  rintro ⟨st, hst, hdist⟩
  rw [sub_self, sub_self, abs_zero] at hdist
  have hfirst := eq_of_mem_midpointSteps _ le_rfl (by omega) hst (by omega)
  simp only [hfirst] at hdist
  omega

/-- Settles O57: both sets depend on the distances from the centre alone, and swapping these keeps either set. -/
theorem circleSetsAreNestedAndSymmetric : Obligations.CircleSetsAreNestedAndSymmetric := by
  refine fun c r => ⟨fun q hq => ?_, fun hr => ⟨?_, centre_not_mem_opencirclePoints c hr⟩, fun hr q => ?_,
    fun a b => ?_, fun a b => ?_⟩
  · rw [mem_opencirclePoints] at hq
    obtain ⟨st, hst, hdist⟩ := hq
    exact mem_circlePoints.2 ⟨st, hst, hdist.imp (And.imp_left le_of_eq) (And.imp_left le_of_eq)⟩
  · rw [mem_circlePoints, sub_self, sub_self, abs_zero]
    exact ⟨⟨r, 0⟩, first_mem_midpoint (by omega), .inl ⟨by dsimp only; omega, rfl⟩⟩
  · subst hr
    rw [mem_circlePoints, mem_opencirclePoints, midpoint_zero]
    obtain ⟨qx, qy⟩ := q
    obtain ⟨cx, cy⟩ := c
    simp [sub_eq_zero]
  · simp only [mem_opencirclePoints, add_sub_cancel_left, sub_sub_cancel_left, abs_neg]
    refine exists_congr fun st => and_congr_right fun _ => ?_
    omega
  · simp only [mem_circlePoints, add_sub_cancel_left, sub_sub_cancel_left, abs_neg]
    exact ⟨inDisc_swap (abs_nonneg a), inDisc_swap (abs_nonneg b)⟩

end Sys2Proof.Machine
end

section
/-!
The family of 45_fb_blit.md: what a blit, FB_WRITEIMAGE and FB_DRAWCHAR paint.
-/
namespace Sys2Proof.Machine

/-! ## The two sets of a blit (45_fb_blit.md R272) -/

/-- ONES and ZEROS: the destinations of the source pixels of one value. -/
theorem mem_blitSet {p : Params} {o q : Point} {b : Bitmap} {v : Bool} :
    q ∈ blitSet p o b v ↔ ∃ i j, i < b.w ∧ j < b.h ∧ q = ⟨o.x + (i : Int), o.y + (j : Int)⟩ ∧ b.srcBit p i j = v := by
  simp only [blitSet, Bitmap.pixels, blitPoint, List.mem_map, List.mem_filter, List.mem_flatMap, List.mem_range,
    beq_iff_eq]
  constructor
  · rintro ⟨-, ⟨⟨j, hj, i, hi, rfl⟩, hbit⟩, rfl⟩
    exact ⟨i, j, hi, hj, rfl, hbit⟩
  · rintro ⟨i, j, hi, hj, rfl, hbit⟩
    exact ⟨(i, j), ⟨⟨j, hj, i, hi, rfl⟩, hbit⟩, rfl⟩

/-- A destination is that of one source pixel, which has one value. -/
theorem not_mem_blitSet_of_mem {p : Params} {o q : Point} {b : Bitmap} (h : q ∈ blitSet p o b true) :
    q ∉ blitSet p o b false := by
  intro h'
  obtain ⟨i, j, -, -, rfl, hbit⟩ := mem_blitSet.1 h
  obtain ⟨i', j', -, -, heq, hbit'⟩ := mem_blitSet.1 h'
  obtain ⟨hx, hy⟩ := Point.mk.inj heq
  obtain rfl : i = i' := by omega
  obtain rfl : j = j' := by omega
  rw [hbit] at hbit'
  cases hbit'

theorem eq_inverseColour_iff {c d : Colour} : d = inverseColour c ↔ d ≠ c := by
  cases c <;> cases d <;> decide

/-! ## The buffer of a blit (45_fb_blit.md R273) -/

/-- Two PAINTSETs after each other, of sets that share no point, paint each point in the colour of its set. -/
theorem paintSet_twice_paints (s : State) (c c' : Colour) {S S' : List Point} (hdisj : ∀ q ∈ S, q ∉ S') :
    ∃ m, (paintSet s c S s.fbr.buf).bind (paintSet s c' S') = some m ∧
      Paints s m fun q d => (q ∈ S ∧ d = c) ∨ (q ∈ S' ∧ d = c') := by
  obtain ⟨m, hset, hbits, hframe, -⟩ := paintSet_spec s c S s.fbr.buf
  obtain ⟨m', hset', hbits', hframe', -⟩ := paintSet_spec s c' S' m
  refine ⟨m', by rw [hset]; exact hset', paints_of_bits s m' _ ?_ ?_ ?_⟩
  · rintro q d a i hi (⟨hq, rfl⟩ | ⟨hq, rfl⟩) hc
    · have hother : ¬ ∃ p ∈ S', s.covers p a i := fun ⟨p, hp, hpc⟩ => hdisj q hq (covers_inj hc hpc ▸ hp)
      rw [(hbits' a i hi).2 hother, (hbits a i hi).1 ⟨q, hq, hc⟩]
      rfl
    · have hother : ¬ ∃ p ∈ S, s.covers p a i := fun ⟨p, hp, hpc⟩ => hdisj p hp (covers_inj hc hpc ▸ hq)
      rw [(hbits' a i hi).1 ⟨q, hq, hc⟩, (hbits a i hi).2 hother]
      rfl
  · intro a i hi hno
    rw [(hbits' a i hi).2 fun ⟨q, hq, hc⟩ => hno ⟨q, c', .inr ⟨hq, rfl⟩, hc⟩,
      (hbits a i hi).2 fun ⟨q, hq, hc⟩ => hno ⟨q, c, .inl ⟨hq, rfl⟩, hc⟩]
    rfl
  · intro a ha
    rw [hframe' a fun q hq u v => ha q c' u v (.inr ⟨hq, rfl⟩), hframe a fun q hq u v => ha q c u v (.inl ⟨hq, rfl⟩)]
    rfl

/-- Point `q` is the destination of a source pixel that is painted in colour `d`: a 1 in the colour, a 0 in the other
one, under BLIT_ZERO_POLICY = OPAQUE alone. -/
def blitPaintsIn (s : State) (o : Point) (b : Bitmap) (q : Point) (d : Colour) : Prop :=
  ∃ i j, i < b.w ∧ j < b.h ∧ q = ⟨o.x + (i : Int), o.y + (j : Int)⟩ ∧
    (b.srcBit s.params i j = true ∧ d = s.fbr.colour ∨
     b.srcBit s.params i j = false ∧ s.params.blitZero = .opaqueInverse ∧ d ≠ s.fbr.colour)

theorem blitPaintsIn_iff (s : State) (o : Point) (b : Bitmap) (q : Point) (d : Colour) :
    blitPaintsIn s o b q d ↔ (q ∈ blitSet s.params o b true ∧ d = s.fbr.colour) ∨
      (q ∈ blitSet s.params o b false ∧ s.params.blitZero = .opaqueInverse ∧ d ≠ s.fbr.colour) := by
  rw [mem_blitSet, mem_blitSet, blitPaintsIn]
  constructor
  · rintro ⟨i, j, hi, hj, hq, ⟨hbit, hd⟩ | ⟨hbit, hd⟩⟩
    · exact .inl ⟨⟨i, j, hi, hj, hq, hbit⟩, hd⟩
    · exact .inr ⟨⟨i, j, hi, hj, hq, hbit⟩, hd⟩
  · rintro (⟨⟨i, j, hi, hj, hq, hbit⟩, hd⟩ | ⟨⟨i, j, hi, hj, hq, hbit⟩, hd⟩)
    · exact ⟨i, j, hi, hj, hq, .inl ⟨hbit, hd⟩⟩
    · exact ⟨i, j, hi, hj, hq, .inr ⟨hbit, hd⟩⟩

theorem blitBuf_paints (o : Point) (b : Bitmap) (s : State) :
    ∃ m, blitBuf o b s = some m ∧ Paints s m (blitPaintsIn s o b) := by
  unfold blitBuf
  cases hzero : s.params.blitZero with
  | transparent =>
    obtain ⟨m, hset, hpaints⟩ := paintSet_paints s s.fbr.colour (blitSet s.params o b true)
    refine ⟨m, hset, hpaints.congr fun q d => ?_⟩
    simp [blitPaintsIn_iff, hzero]
  | opaqueInverse =>
    obtain ⟨m, hset, hpaints⟩ := paintSet_twice_paints s s.fbr.colour (inverseColour s.fbr.colour)
      (S := blitSet s.params o b true) (S' := blitSet s.params o b false) fun q => not_mem_blitSet_of_mem
    refine ⟨m, hset, hpaints.congr fun q d => ?_⟩
    simp only [blitPaintsIn_iff, hzero, true_and, eq_inverseColour_iff]

theorem blit_of_inSource {o : Point} {b : Bitmap} {s : State} (h : b.inSource s.params = true) (op : Op) :
    ∃ m, blit op o b s = { s with fbr := { s.fbr with buf := m } } ∧ Paints s m (blitPaintsIn s o b) := by
  obtain ⟨m, hbuf, hpaints⟩ := blitBuf_paints o b s
  exact ⟨m, by rw [blit, if_pos h, hbuf, paintOutcome_some], hpaints⟩

theorem blit_of_not_inSource {b : Bitmap} {s : State} (h : b.inSource s.params = false) (op : Op) (o : Point) :
    blit op o b s = enterFault .fbSourceRange op.byte s := by
  rw [blit, h]
  rfl

/-! ## FB_WRITEIMAGE and FB_DRAWCHAR (45_fb_blit.md R274, R275) -/

theorem inSource_iff (p : Params) (b : Bitmap) : b.inSource p = true ↔ b.size = 0 ∨ b.base + b.size ≤ p.srcSize := by
  rw [Bitmap.inSource, Bool.or_eq_true, decide_eq_true_iff, decide_eq_true_iff]

/-- Settles O58: CHECKSRC decides between the blit of the image and the fault. -/
theorem writeimagePaintsBitmap : Obligations.WriteimagePaintsBitmap := by
  refine fun s o z a hrun => ⟨fun hin => ?_, fun hout => ?_⟩
  · obtain ⟨m, hblit, hpaints⟩ := blit_of_inSource (o := o) ((inSource_iff s.params (imageBitmap z a)).2 hin)
      .fbWriteimage
    exact ⟨m, congrArg _ ((command_of_running hrun).trans hblit), hpaints⟩
  · have hrange := Bool.eq_false_iff.2 fun h => hout ((inSource_iff s.params (imageBitmap z a)).1 h)
    exact congrArg _ ((command_of_running hrun).trans (blit_of_not_inSource hrange _ o))

/-- Settles O59: the glyph is missing, outside the source memory, or blitted at the cursor. -/
theorem drawcharPaintsGlyphAndAdvances : Obligations.DrawcharPaintsGlyphAndAdvances := by
  intro s code hrun
  have hexec : exec (.fbDrawchar code) s = .next (drawcharEffect code s) := congrArg _ (command_of_running hrun)
  rw [hexec]
  refine ⟨fun hnone => ?_, fun g hg => ⟨fun hout => ?_, fun hin => ?_⟩⟩
  · rw [drawcharEffect, hnone]
    rfl
  · rw [drawcharEffect, hg]
    dsimp only
    rw [blit_of_not_inSource hout]
    rfl
  · obtain ⟨m, hblit, hpaints⟩ := blit_of_inSource (o := s.cursor) hin .fbDrawchar
    refine ⟨m, ?_, hpaints⟩
    rw [drawcharEffect, hg]
    dsimp only
    rw [hblit]
    exact congrArg _ (if_neg fun h => Bool.false_ne_true (hrun.symm.trans h))

end Sys2Proof.Machine
end

section
/-!
Shapes with free pixels: Xor with XOR_MULTIPLICITY = UNSPECIFIED (43_fb_pixel.md R225, 93 U3; log 10, log 13).
-/
namespace Sys2Proof.Machine

/-- The buffer of a shape, its free points being some or none: the other points painted, then the free ones freed. -/
theorem shapeBuf_eq (sh : Shape) (s : State) :
    shapeBuf sh s = (paintSet s s.fbr.colour (sh.pts.filter fun p => !(s.freePoints sh).contains p) s.fbr.buf).bind
      (editPoints s (freePixels s.freeCtr) (s.freePoints sh)) := by
  unfold shapeBuf
  split
  case isTrue hnone =>
    have hall : sh.pts.filter (fun p => !([] : List Point).contains p) = sh.pts := List.filter_eq_self.2 fun _ _ => rfl
    rw [hnone, hall]
    exact (Option.bind_fun_some _).symm
  case isFalse => rfl

/-- A shape of whose points some are free: the others are painted, and nothing outside the shape's blocks changes. -/
theorem shapeBuf_spec {sh : Shape} {s : State} (hsub : ∀ p ∈ s.freePoints sh, p ∈ sh.pts) :
    ∃ m, shapeBuf sh s = some m ∧
      (∀ p a i, i < 8 → p ∈ sh.pts → p ∉ s.freePoints sh → s.covers p a i →
        (bufByte s.bufStamp m a).getLsbD i = combineBit s.fbr.writeMode s.fbr.colour ((s.readByte a).getLsbD i)) ∧
      (∀ a i, i < 8 → (¬ ∃ p ∈ sh.pts, s.covers p a i) →
        (bufByte s.bufStamp m a).getLsbD i = (s.readByte a).getLsbD i) ∧
      (∀ a, (∀ p ∈ sh.pts, ∀ u v, s.mapPoint p = some (u, v) → a ∉ s.blockAddrs u v) →
        bufByte s.bufStamp m a = s.readByte a) := by
  have hfixed : ∀ p, p ∈ (sh.pts.filter fun p => !(s.freePoints sh).contains p) ↔ p ∈ sh.pts ∧ p ∉ s.freePoints sh :=
    fun p => by simp
  obtain ⟨m, hset, hbits, hframe, -⟩ := paintSet_spec s s.fbr.colour
    (sh.pts.filter fun p => !(s.freePoints sh).contains p) s.fbr.buf
  obtain ⟨m', hedit, hbits', hframe', -⟩ :=
    editPoints_spec s (freePixels_masked s.freeCtr) (s.freePoints sh) (freePoints_nodup sh s) m
  refine ⟨m', by rw [shapeBuf_eq, hset]; exact hedit, fun p a i hi hp hnot hc => ?_, fun a i hi hno => ?_,
    fun a ha => ?_⟩
  · have hfree : ¬ ∃ q ∈ s.freePoints sh, s.covers q a i := fun ⟨q, hq, hqc⟩ => hnot (covers_inj hc hqc ▸ hq)
    rw [(hbits' a i hi).2 hfree, (hbits a i hi).1 ⟨p, (hfixed p).2 ⟨hp, hnot⟩, hc⟩]
    rfl
  · rw [(hbits' a i hi).2 fun ⟨q, hq, hc⟩ => hno ⟨q, hsub q hq, hc⟩,
      (hbits a i hi).2 fun ⟨q, hq, hc⟩ => hno ⟨q, ((hfixed q).1 hq).1, hc⟩]
    rfl
  · rw [hframe' a fun q hq => ha q (hsub q hq), hframe a fun q hq => ha q ((hfixed q).1 hq).1]
    rfl

theorem mem_paintAddrs {s : State} {S : List Point} {a : Nat} : a ∈ s.paintAddrs S ↔ ∃ p ∈ S, s.touches p a := by
  rw [State.paintAddrs, List.mem_flatMap]
  refine exists_congr fun p => and_congr_right fun _ => ?_
  unfold State.touches
  cases s.mapPoint p with
  | none => simp
  | some uv =>
    obtain ⟨u, v⟩ := uv
    simp

/-- Each command of O60 paints its shape, whose points reached more than once are points of it. -/
theorem exec_repeating_shape {s : State} {i : Instr} {sh : Shape} (hrun : s.halted = false)
    (h : (∃ p0 p1, i = .fbDrawopenrect p0 p1 ∧ sh = openrectShape p0 p1) ∨
      (∃ c r, i = .fbDrawopencircle c r ∧ sh = opencircleShape c r) ∨
      (∃ c r, i = .fbDrawcircle c r ∧ sh = circleShape c r)) :
    (∃ op, exec i s = .next (paintShape op sh s)) ∧ ∀ p ∈ sh.repeated, p ∈ sh.pts := by
  have hexec : ∀ op, Host.Outcome.next (φ := Fault) (ρ := Refusal) (command (paintShape op sh) s) =
      .next (paintShape op sh s) := fun op => congrArg _ (command_of_running hrun)
  rcases h with ⟨p0, p1, rfl, rfl⟩ | ⟨c, r, rfl, rfl⟩ | ⟨c, r, rfl, rfl⟩
  · exact ⟨⟨_, hexec .fbDrawopenrect⟩, fun p => List.mem_of_mem_filter⟩
  · exact ⟨⟨_, hexec .fbDrawopencircle⟩, fun p => List.mem_of_mem_filter⟩
  · exact ⟨⟨_, hexec .fbDrawcircle⟩, fun p => List.mem_of_mem_filter⟩

/-- Settles O60: `shapeBuf_spec`, the free points being those reached more than once. -/
theorem unspecifiedXorFreesOnlyRepeatedPixels : Obligations.UnspecifiedXorFreesOnlyRepeatedPixels := by
  intro s i sh hrun hmode hmult hshape
  obtain ⟨⟨op, hexec⟩, hrepeated⟩ := exec_repeating_shape hrun hshape
  have hfree : ∀ p, p ∈ s.freePoints sh ↔ p ∈ sh.repeated := fun p => by
    rw [State.freePoints, if_pos ⟨hmode, hmult⟩, List.mem_dedup]
  obtain ⟨m, hbuf, hpainted, hothers, hframe⟩ := shapeBuf_spec (sh := sh) (s := s)
    fun p hp => hrepeated p ((hfree p).1 hp)
  refine ⟨m, shapeCtr sh s, hexec.trans (congrArg _ (paintShape_of_buf hbuf op)),
    fun p u v px py hp hnot hmap hblock => ?_, fun a b hb hno => ?_, fun a ha => ?_⟩
  · have hcov := (covers_iff s p _ _).2 ⟨u, v, px, py, hmap, hblock, rfl, rfl⟩
    exact hmode ▸ hpainted p _ _ (pixBit_lt px) hp (fun h => hnot ((hfree p).1 h)) hcov
  · refine hothers a b hb fun ⟨p, hp, hc⟩ => ?_
    obtain ⟨u, v, px, py, hmap, hblock, haddr, hbit⟩ := (covers_iff s p a b).1 hc
    exact hno p u v px py hp hmap hblock ⟨haddr, hbit⟩
  · exact hframe a fun p hp u v hmap hmem => ha (mem_paintAddrs.2 ⟨p, hp, u, v, hmap, hmem⟩)

end Sys2Proof.Machine
end

section
/-!
BRESENHAM as a set of points: one point per step of the major axis, each within half a step of the exact line
(44_fb_shapes.md R243).
-/
namespace Sys2Proof.Machine

/-! ## The loop -/

theorem pointOnAxes_inj {steep : Bool} {x y x' y' : Int} :
    pointOnAxes steep x y = pointOnAxes steep x' y' ↔ x = x' ∧ y = y' := by
  cases steep with
  | false => simp [pointOnAxes]
  | true => simp [pointOnAxes, and_comm]

section Loop
variable {steep : Bool} {dx dy ystep x y err : Int} {q : Point}

/-- After its point, the loop goes on one further on the major axis, from some minor coordinate and error. -/
theorem exists_bresenhamSteps_succ (steep : Bool) (dx dy ystep : Int) (k : Nat) (x y err : Int) :
    ∃ y' err', bresenhamSteps steep dx dy ystep (k + 1) x y err =
      pointOnAxes steep x y :: bresenhamSteps steep dx dy ystep k (x + 1) y' err' := by
  rw [bresenhamSteps_succ]
  split
  case isTrue => exact ⟨_, _, rfl⟩
  case isFalse => exact ⟨_, _, rfl⟩

theorem length_bresenhamSteps (steep : Bool) (dx dy ystep : Int) (k : Nat) (x y err : Int) :
    (bresenhamSteps steep dx dy ystep k x y err).length = k := by
  induction k generalizing x y err with
  | zero => rfl
  | succ k ih =>
    obtain ⟨y', err', heq⟩ := exists_bresenhamSteps_succ steep dx dy ystep k x y err
    rw [heq, List.length_cons, ih]

/-- No point lies before the loop's start on the major axis. -/
theorem le_major_of_mem_bresenhamSteps (k : Nat) {x' y' : Int}
    (h : pointOnAxes steep x' y' ∈ bresenhamSteps steep dx dy ystep k x y err) : x ≤ x' := by
  induction k generalizing x y err with
  | zero => cases h
  | succ k ih =>
    obtain ⟨y'', err'', heq⟩ := exists_bresenhamSteps_succ steep dx dy ystep k x y err
    rw [heq] at h
    rcases List.mem_cons.1 h with h | h
    · exact (pointOnAxes_inj.1 h).1.ge
    · have := ih h
      omega

theorem nodup_bresenhamSteps (steep : Bool) (dx dy ystep : Int) (k : Nat) (x y err : Int) :
    (bresenhamSteps steep dx dy ystep k x y err).Nodup := by
  induction k generalizing x y err with
  | zero => exact List.nodup_nil
  | succ k ih =>
    obtain ⟨y', err', heq⟩ := exists_bresenhamSteps_succ steep dx dy ystep k x y err
    rw [heq]
    refine List.nodup_cons.2 ⟨fun h => ?_, ih _ _ _⟩
    have := le_major_of_mem_bresenhamSteps k h
    omega

/-- The converse of `exists_minor_mem_bresenhamSteps`: every point is that of a step, whose error is in range. A line of
one point has `dx = 0` and error 0. -/
theorem exists_step_of_mem_bresenhamSteps (k : Nat) (hdy : 0 ≤ dy) (hdx : dy ≤ dx) (hlo : 0 ≤ err)
    (hhi : err < max dx 1) (h : q ∈ bresenhamSteps steep dx dy ystep k x y err) :
    ∃ i c : Int, q = pointOnAxes steep (x + i) (y + c * ystep) ∧
      0 ≤ err - i * dy + c * dx ∧ err - i * dy + c * dx < max dx 1 := by
  induction k generalizing x y err with
  | zero => cases h
  | succ k ih =>
    rw [bresenhamSteps_succ] at h
    rcases List.mem_cons.1 h with rfl | h
    · exact ⟨0, 0, by simp, by simpa using hlo, by simpa using hhi⟩
    split at h
    case isTrue herr =>
      obtain ⟨i, c, rfl, hclo, hchi⟩ := ih (by omega) (by omega) h
      exact ⟨i + 1, c + 1, by congr 1 <;> ring, by linarith, by linarith⟩
    case isFalse herr =>
      obtain ⟨i, c, rfl, hclo, hchi⟩ := ih (by omega) (by omega) h
      exact ⟨i + 1, c, by congr 1; ring, by linarith, by linarith⟩

/-- Without a minor distance the loop never moves on the minor axis. -/
theorem mem_bresenhamSteps_flat (k : Nat) (herr : 0 ≤ err) :
    q ∈ bresenhamSteps steep dx 0 ystep k x y err ↔ ∃ x', q = pointOnAxes steep x' y ∧ x ≤ x' ∧ x' < x + k := by
  induction k generalizing x err with
  | zero =>
    refine ⟨nofun, ?_⟩
    rintro ⟨x', -, hlo, hhi⟩
    omega
  | succ k ih =>
    rw [bresenhamSteps_succ, if_neg (by omega), List.mem_cons, ih (by omega)]
    constructor
    · rintro (rfl | ⟨x', rfl, hlo, hhi⟩)
      · exact ⟨x, rfl, by omega⟩
      · exact ⟨x', rfl, by omega⟩
    · rintro ⟨x', rfl, hlo, hhi⟩
      rcases hlo.eq_or_lt with rfl | hlt
      · exact .inl rfl
      · exact .inr ⟨x', rfl, by omega⟩

end Loop

/-! ## The line between ordered endpoints, and the swap (44_fb_shapes.md R241) -/

section Ordered
variable {steep : Bool} {x0 y0 x1 y1 : Int} {q : Point}

/-- The distance of a point from the exact line along the minor axis, times the major distance. -/
def lineDist (x0 y0 x1 y1 x y : Int) : Int := |(y - y0) * (x1 - x0) - (x - x0) * (y1 - y0)|

/-- It does not depend on which endpoint is taken first. -/
theorem lineDist_swap (x0 y0 x1 y1 x y : Int) : lineDist x1 y1 x0 y0 x y = lineDist x0 y0 x1 y1 x y := by
  unfold lineDist
  rw [← abs_neg]
  congr 1
  ring

/-- Nor on the names of the axes. -/
theorem lineDist_axes (x0 y0 x1 y1 x y : Int) : lineDist y0 x0 y1 x1 y x = lineDist x0 y0 x1 y1 x y :=
  abs_sub_comm _ _

/-- A point `i` steps and `c` moves from the first endpoint. -/
theorem lineDist_step (x0 y0 x1 y1 i c : Int) :
    lineDist x0 y0 x1 y1 (x0 + i) (y0 + c * (if y0 < y1 then 1 else -1)) = abs (c * (x1 - x0) - i * |y1 - y0|) := by
  unfold lineDist
  split
  case isTrue h =>
    rw [abs_of_pos (show 0 < y1 - y0 by omega)]
    congr 1
    ring
  case isFalse h =>
    rw [abs_of_nonpos (show y1 - y0 ≤ 0 by omega), ← abs_neg]
    congr 1
    ring

/-- The error starts in the middle of its range, so that it never leads further than half a step off the line. -/
theorem lineDist_of_mem_bresenhamMajor (hle : x0 ≤ x1) (hmajor : |y1 - y0| ≤ x1 - x0)
    (h : q ∈ bresenhamMajor steep x0 y0 x1 y1) :
    ∃ x y, q = pointOnAxes steep x y ∧ 2 * lineDist x0 y0 x1 y1 x y ≤ x1 - x0 := by
  obtain ⟨i, c, hq, hlo, hhi⟩ := exists_step_of_mem_bresenhamSteps _ (abs_nonneg _) hmajor (by omega) (by omega) h
  refine ⟨_, _, hq, ?_⟩
  rw [lineDist_step]
  have hdist : abs (c * (x1 - x0) - i * |y1 - y0|) ≤ (x1 - x0) / 2 := abs_le.2 ⟨by omega, by omega⟩
  omega

theorem lineDist_of_mem_bresenhamOrdered (hmajor : |y1 - y0| ≤ |x1 - x0|)
    (h : q ∈ bresenhamOrdered steep x0 y0 x1 y1) :
    ∃ x y, q = pointOnAxes steep x y ∧ 2 * lineDist x0 y0 x1 y1 x y ≤ |x1 - x0| := by
  unfold bresenhamOrdered at h
  split at h
  case isTrue hlt =>
    rw [abs_sub_comm y1, abs_sub_comm x1, abs_of_pos (sub_pos.2 hlt)] at hmajor
    rw [abs_sub_comm x1, abs_of_pos (sub_pos.2 hlt)]
    obtain ⟨x, y, hq, hdist⟩ := lineDist_of_mem_bresenhamMajor hlt.le hmajor h
    exact ⟨x, y, hq, by rwa [lineDist_swap] at hdist⟩
  case isFalse hle =>
    rw [abs_of_nonneg (sub_nonneg.2 (not_lt.1 hle))] at hmajor ⊢
    exact lineDist_of_mem_bresenhamMajor (not_lt.1 hle) hmajor h

theorem nodup_bresenhamOrdered (steep : Bool) (x0 y0 x1 y1 : Int) : (bresenhamOrdered steep x0 y0 x1 y1).Nodup := by
  unfold bresenhamOrdered
  split
  case isTrue => exact nodup_bresenhamSteps _ _ _ _ _ _ _ _
  case isFalse => exact nodup_bresenhamSteps _ _ _ _ _ _ _ _

theorem length_bresenhamOrdered (steep : Bool) (x0 y0 x1 y1 : Int) :
    ((bresenhamOrdered steep x0 y0 x1 y1).length : Int) = |x1 - x0| + 1 := by
  unfold bresenhamOrdered
  split
  case isTrue h =>
    rw [bresenhamMajor, length_bresenhamSteps, abs_of_neg (sub_neg.2 h)]
    omega
  case isFalse h =>
    rw [bresenhamMajor, length_bresenhamSteps, abs_of_nonneg (sub_nonneg.2 (not_lt.1 h))]
    omega

/-- Without a minor distance the line is the range of the major axis. -/
theorem mem_bresenhamOrdered_flat (y : Int) :
    q ∈ bresenhamOrdered steep x0 y x1 y ↔ ∃ x, q = pointOnAxes steep x y ∧ min x0 x1 ≤ x ∧ x ≤ max x0 x1 := by
  unfold bresenhamOrdered bresenhamMajor
  rw [sub_self, abs_zero]
  split
  case isTrue h =>
    rw [mem_bresenhamSteps_flat _ (by omega)]
    refine exists_congr fun x => and_congr_right fun _ => ?_
    omega
  case isFalse h =>
    rw [mem_bresenhamSteps_flat _ (by omega)]
    refine exists_congr fun x => and_congr_right fun _ => ?_
    omega

end Ordered

/-! ## BRESENHAM -/

/-- The two kinds of line: along y when that is the longer axis, else along x. -/
theorem bresenham_cases (p0 p1 : Point) :
    (|p1.x - p0.x| < |p1.y - p0.y| ∧ bresenham p0 p1 = bresenhamOrdered true p0.y p0.x p1.y p1.x) ∨
    (|p1.y - p0.y| ≤ |p1.x - p0.x| ∧ bresenham p0 p1 = bresenhamOrdered false p0.x p0.y p1.x p1.y) := by
  unfold bresenham
  split
  case isTrue h => exact .inl ⟨h, rfl⟩
  case isFalse h => exact .inr ⟨not_lt.1 h, rfl⟩

theorem lineDist_of_mem_bresenham {p0 p1 q : Point} (h : q ∈ bresenham p0 p1) :
    2 * lineDist p0.x p0.y p1.x p1.y q.x q.y ≤ max |p1.x - p0.x| |p1.y - p0.y| := by
  rcases bresenham_cases p0 p1 with ⟨hlong, heq⟩ | ⟨hlong, heq⟩
  · rw [heq] at h
    obtain ⟨x, y, rfl, hdist⟩ := lineDist_of_mem_bresenhamOrdered hlong.le h
    rw [lineDist_axes] at hdist
    exact hdist.trans (le_max_right _ _)
  · rw [heq] at h
    obtain ⟨x, y, rfl, hdist⟩ := lineDist_of_mem_bresenhamOrdered hlong h
    exact hdist.trans (le_max_left _ _)

theorem mem_bresenham_of_row {p0 p1 : Point} (hrow : p0.y = p1.y) (q : Point) :
    q ∈ bresenham p0 p1 ↔ q ∈ lineSet p0 p1 := by
  obtain ⟨qx, qy⟩ := q
  have hflat : bresenham p0 p1 = bresenhamOrdered false p0.x p0.y p1.x p0.y := by
    rw [bresenham, hrow, sub_self, abs_zero, if_neg (abs_nonneg _).not_gt]
  rw [hflat, mem_bresenhamOrdered_flat, mem_lineSet_of_row hrow]
  simp only [pointOnAxes, Bool.false_eq_true, if_false, Point.mk.injEq]
  constructor
  · rintro ⟨x, ⟨rfl, rfl⟩, hx⟩
    exact ⟨rfl, hx⟩
  · rintro ⟨rfl, hx⟩
    exact ⟨qx, ⟨rfl, rfl⟩, hx⟩

theorem mem_bresenham_of_column {p0 p1 : Point} (hrow : p0.y ≠ p1.y) (hcol : p0.x = p1.x) (q : Point) :
    q ∈ bresenham p0 p1 ↔ q ∈ lineSet p0 p1 := by
  obtain ⟨qx, qy⟩ := q
  have hflat : bresenham p0 p1 = bresenhamOrdered true p0.y p0.x p1.y p0.x := by
    rw [bresenham, hcol, sub_self, abs_zero, if_pos (abs_pos.2 (sub_ne_zero.2 hrow.symm))]
  rw [hflat, mem_bresenhamOrdered_flat, mem_lineSet_of_column hcol]
  simp only [pointOnAxes, if_true, Point.mk.injEq]
  constructor
  · rintro ⟨y, ⟨rfl, rfl⟩, hy⟩
    exact ⟨rfl, hy⟩
  · rintro ⟨rfl, hy⟩
    exact ⟨qy, ⟨rfl, rfl⟩, hy⟩

/-- Settles O52: one point per step of the loop, its error in range, and no move on the minor axis without a minor
distance. -/
theorem bresenhamFollowsTheLine : Obligations.BresenhamFollowsTheLine := by
  refine fun p0 p1 => ⟨?_, ?_, fun q hq => lineDist_of_mem_bresenham hq, fun hshared q => ?_⟩
  · rcases bresenham_cases p0 p1 with ⟨-, heq⟩ | ⟨-, heq⟩
    · exact heq ▸ nodup_bresenhamOrdered _ _ _ _ _
    · exact heq ▸ nodup_bresenhamOrdered _ _ _ _ _
  · rcases bresenham_cases p0 p1 with ⟨hlong, heq⟩ | ⟨hlong, heq⟩
    · rw [heq, length_bresenhamOrdered, max_eq_right hlong.le]
    · rw [heq, length_bresenhamOrdered, max_eq_left hlong]
  · by_cases hrow : p0.y = p1.y
    · exact mem_bresenham_of_row hrow q
    · exact mem_bresenham_of_column hrow (hshared.resolve_right hrow) q

end Sys2Proof.Machine
end
